-- ==== Sys2Proof/Word.lean ====
section
/-!
DEFINITION. Word: the bit-vector types of the block, at the widths 00_scope.md rule R11 binds, and the command word
of 30_encoding.md rule R91. A value the spec treats as a mathematical integer (an operand before truncation, a count)
is a Nat or an Int, not a word.
-/

namespace Sys2Proof

/-- A sample pattern, `W` = 14 bits (10_state.md R23). -/
abbrev Sample := BitVec 14

/-- A slot address, `A` = 10 bits (20_memory.md R61); also the read pointer (10_state.md R26). -/
abbrev SlotAddr := BitVec 10

/-- The link's address field, `A_low` = 8 bits (30_encoding.md R91). -/
abbrev LinkAddress := BitVec 8

/-- The link's payload field, `PAYLOAD_BITS` = 17 bits (30_encoding.md R92). -/
abbrev Payload := BitVec 17

/-- A register address of a DAC chip, 5 bits (20_memory.md R62). -/
abbrev RegAddr := BitVec 5

/-- A register value of a DAC chip, 16 bits (20_memory.md R62). -/
abbrev RegData := BitVec 16

/-- A chip-select mask, `CS_BITS` = 4 bits (30_encoding.md R108). -/
abbrev CsMask := BitVec 4

/-- A DAC index, in `[0, 8)` (42_dac_bus.md R151). -/
abbrev DacIndex := Fin 8

/-- The two fields of a command word, which the link carries side by side (30_encoding.md R91, R95). -/
structure CommandWord where
  linkAddress : LinkAddress
  payload     : Payload
  deriving DecidableEq, Repr

/-- The signed reading of a sample pattern, `sext_14` (00_scope.md R14, 30_encoding.md R98). No operation of the
block uses it; it is a reader's view. -/
def sext14 (p : Sample) : Int := p.toInt

end Sys2Proof
end

