-- ==== Sys2Proof/Config.lean ====
section
/-!
DEFINITION. Config: what is fixed for one machine and what the spec leaves free. The record of the document's
literals (00_scope.md R11; its value is `Machine.literals`), the open launch parameters (R12), and the free values:
opaque constants with no body, of which nothing can be proved or evaluated.
-/

namespace Sys2Proof

/-- The unaudited literals of the document, in one record (00_scope.md R11, 92_eei_decisions.md D34). The structural
widths (14, 10, 8, 17, 24, ...) are in the types. -/
structure Literals where
  /-- `IDLE_VALUE` (R27). -/
  idleValue     : Sample
  /-- `CS_TABLE` (R108). -/
  csTable       : Vector CsMask 8
  /-- `FRAME_RESERVED`, the two reserved bits of a command byte (R104). -/
  frameReserved : BitVec 2
  /-- `ID_REG` (R107). -/
  idReg         : RegAddr
  /-- `ID_VALUE` (R181). -/
  idValue       : RegData
  /-- `ID_MASK`, the bits of the response that are compared (R12). -/
  idMask        : RegData
  /-- `CAL_REG_A` (R181). -/
  calRegA       : RegAddr
  /-- `CAL_REG_B` (R181). -/
  calRegB       : RegAddr
  /-- `CAL_DATA` (R181). -/
  calData       : RegData
  /-- `STATUS_REG` (R164). -/
  statusReg     : RegAddr
  /-- `RESET_HOLD`, in time-units (R156). -/
  resetHold     : Nat
  /-- `RESET_POST_HOLD`, in time-units (R156). -/
  resetPostHold : Nat
  /-- `WRITE_GAP`, in reference-clock periods (R192). -/
  writeGap      : Nat
  deriving DecidableEq, Repr

/-- The parameters 00_scope.md R12 leaves OPEN, as launch parameters: a state carries them (`State.params`), no step
changes them, and a statement holds for every choice. `N_CHANNELS` is the length of the state's channel list. -/
structure Params where
  /-- `T_UNIT`: the length of a time-unit. No rule reads it (R217): delays are recorded, not timed. -/
  tUnit            : Nat
  /-- `T_SETTLE`: the settling delay of `INITIALIZE` (R181). -/
  tSettle          : Nat
  /-- `FACADE_LOAD_ENABLE`: the enable bit `write_sample` sends (R191). -/
  facadeLoadEnable : Bool
  /-- `SET_ENABLE_ADDR`: the slot `set_enable` writes (R193). -/
  setEnableAddr    : Nat
  /-- `SET_ENABLE_VALUE`: the value `set_enable` writes there (R193). -/
  setEnableValue   : Int
  deriving DecidableEq, Repr, Inhabited

/-- FREE. The launch parameters the reset state carries: OPEN in the spec (00_scope.md R12; log 9). -/
opaque Config.launchParams : Params

/-- FREE. `N_CHANNELS - 1` at reset: OPEN, at least one channel (92_eei_decisions.md D3; log 8). -/
opaque Config.extraChannels : Nat

/-- FREE. What slot `a` of channel `c` holds when no `WR` has written it since reset: arbitrary, stable (10_state.md
R24; log 6). -/
opaque Config.launchSlot : Nat → SlotAddr → Sample

/-- FREE. The `n`-th answer of the chips that no queued answer supplies; a transfer takes its low bits (20_memory.md
R70; log 5). -/
opaque Config.freeAnswer : Nat → BitVec 24

/-- FREE. The test point of channel `c` at its `n`-th draw, a pattern of unknown width (10_state.md R28; log 7). -/
opaque Config.testPoint : Nat → Nat → List Bool

/-- Whose turn it is when no stimulus says so: an output clock's, the bus driver's, or that of a batch in progress. -/
inductive Turn where
  | clock
  | driver
  | batch
  deriving DecidableEq, Repr, Inhabited

/-- FREE. Whose turn it is at the `n`-th choice that no stimulus makes (00_scope.md R16; log 2). -/
opaque Config.freeTurn : Nat → Turn

/-- FREE. Which channel's output clock ticks at the `n`-th choice that no stimulus makes (20_memory.md R76, R77;
log 2). -/
opaque Config.idleChannel : Nat → Nat

end Sys2Proof
end

