-- ==== Sys2Proof/Machine/Literals.lean ====
section
/-!
DEFINITION. Machine/Literals: the document's literals as transcribed (00_scope.md R11, 92_eei_decisions.md D34), each
in this one place. They are unaudited (log 22).
-/

namespace Sys2Proof.Machine

/-- The transcribed literals and the decided parameters of 00_scope.md R11 and R12. -/
def literals : Literals where
  idleValue     := 0
  csTable       := #v[0b1111, 0b1110, 0b1101, 0b1100, 0b1011, 0b1010, 0b1001, 0b1000]
  frameReserved := 0b00
  idReg         := 0x1F
  idValue       := 0x000A
  idMask        := 0xFFFF
  calRegA       := 0x05
  calRegB       := 0x08
  calData       := 0x0080
  statusReg     := 0x14
  resetHold     := 100
  resetPostHold := 100
  writeGap      := 100

/-- `CS_TABLE[i]` (30_encoding.md R108). -/
def csMask (i : DacIndex) : CsMask := literals.csTable[i]

end Sys2Proof.Machine
end

