-- ==== Sys2Proof/Machine/Flags.lean ====
section
/-!
DEFINITION. Machine/Flags: the block has no condition codes and no arithmetic flags (10_state.md R50). What acts as
flags is the enable bit of a command word and the outcome of the identity check; their computation is here.
-/

namespace Sys2Proof.Machine

/-- The enable bit of a payload, `payload[14]` (30_encoding.md R92). -/
def enableOf (p : Payload) : Bool := p.extractLsb' 14 1 == 1

/-- The enable bit a command word carries for a Boolean, `e ? 1 : 0` (40_link_codec.md R121). -/
def enableBit (e : Bool) : BitVec 1 := if e then 1 else 0

/-- Whether an identity response passes: equal to `ID_VALUE` in the bits of `ID_MASK`, which are all 16
(43_dac_bringup.md R181, 92_eei_decisions.md D19). -/
def identityMatches (v : RegData) : Bool :=
  v &&& literals.idMask == literals.idValue &&& literals.idMask

end Sys2Proof.Machine
end

