-- ==== Sys2Proof/Syntax.lean ====
section
/-!
DEFINITION. Syntax: the operations of spec/opcode_table.json, one constructor of `Instr` per row, with the operands
the spec gives them; the small types of those operands; and the requests that carry a wire word.
-/

namespace Sys2Proof

/-- The legal values of `bus_cfg.len` (10_state.md R41). -/
inductive XferLen where
  | b8
  | b16
  | b24
  deriving DecidableEq, Repr

/-- The number of bits a transfer of this length moves. -/
def XferLen.bits : XferLen → Nat
  | .b8  => 8
  | .b16 => 16
  | .b24 => 24

/-- The direction of the data line, `bus_cfg.mode` (10_state.md R41). -/
inductive BusMode where
  | out
  | hdIn
  deriving DecidableEq, Repr

/-- The bits a driver presents to `BUS_XFER`, with their count: a write frame `WF` or a read command `RC`
(42_dac_bus.md R153, 30_encoding.md R90). -/
inductive Frame where
  | wf (w : BitVec 24)
  | rc (b : BitVec 8)
  deriving DecidableEq, Repr

/-- The operations of the opcode table. Operands the spec truncates (R97, R106, R122) are unbounded numbers here, so
that the over-wide case is expressible; a channel or a DAC index stands beside the word (R96, R158). -/
inductive Instr where
  /-- `WR(c, cw)` (R131); the word comes in two containers, of which R97 uses the low bits. -/
  | wr (c linkAddress payload : Nat)
  /-- `ENCODE(a, v, e)` (R121). -/
  | encode (a : Nat) (v : Int) (e : Bool)
  /-- `DECODE(link_address, payload)` (R123), from containers (R97). -/
  | decode (linkAddress payload : Nat)
  /-- `WRITE_REGISTER(i, r, d)` (R158). -/
  | writeRegister (i r d : Nat)
  /-- `RD_P1(i, r)` (R161). -/
  | rdP1 (i r : Nat)
  /-- `RD_P2(i, r)` (R162). -/
  | rdP2 (i r : Nat)
  /-- `READ_REGISTER(i, r)` (R160). -/
  | readRegister (i r : Nat)
  /-- `TIMING_STATUS(i)` (R164). -/
  | timingStatus (i : Nat)
  /-- `INITIALIZE.id_read` on chip `i`: the identity read and its check (R181; log 14). -/
  | initIdRead (i : Nat)
  /-- `INITIALIZE.cal_write_a` on chip `i` (R181). -/
  | initCalWriteA (i : Nat)
  /-- `INITIALIZE.cal_write_b` on chip `i` (R181). -/
  | initCalWriteB (i : Nat)
  /-- `INITIALIZE()` (R181). -/
  | bringUp
  /-- `TICK(c)` (R135). -/
  | tick (c : Nat)
  /-- `DAC_RESET()` (R156). -/
  | dacReset
  /-- `BUS_CONFIG(cs, len, end, mode)` (R152). -/
  | busConfig (cs : CsMask) (len : XferLen) (ends : Bool) (mode : BusMode)
  /-- `BUS_XFER(out_bits)` (R153). -/
  | busXfer (outBits : Frame)
  /-- `write_sample(channel, address, value)` (R191). -/
  | writeSample (c address : Nat) (value : Int)
  /-- `write_samples(channel, values[])` (R192). -/
  | writeSamples (c : Nat) (values : List Int)
  /-- `set_enable(channel, enabled)` (R193). -/
  | setEnable (c : Nat) (enabled : Bool)
  /-- `initialize_dac_bank()` (R194). -/
  | initDacBank
  /-- `get_dac_timing_status(dac_index)` (R195). -/
  | getDacTimingStatus (i : Nat)
  deriving DecidableEq, Repr

/-- The rows of the opcode table that have a wire encoding (30_encoding.md R112). -/
inductive WireOp where
  | wr
  | encode
  | decode
  | writeRegister
  | rdP1
  | rdP2
  | readRegister
  | timingStatus
  | initIdRead
  | initCalWriteA
  | initCalWriteB
  deriving DecidableEq, Repr

/-- How many bits the table gives a row's word. -/
def WireOp.width : WireOp → Nat
  | .wr | .encode | .decode => 25
  | .writeRegister | .rdP2 | .initCalWriteA | .initCalWriteB => 24
  | .rdP1 | .readRegister | .timingStatus | .initIdRead => 8

/-- A wire word as the table writes it, with what stands beside it: which operation the interface it arrives on
selects (several rows share one pattern, R94, R101), and the channel or DAC index `port` (R96). -/
structure Request where
  op   : WireOp
  port : Nat
  word : Nat
  deriving DecidableEq, Repr

/-- Why a word is not one of a row's words. -/
inductive Reject where
  /-- The word has bits above the row's width. -/
  | wordTooWide
  /-- The opcode bit is not the row's (R103). -/
  | wrongOpcode
  /-- The two reserved bits are not `FRAME_RESERVED` (R104). -/
  | reservedBits
  /-- The word is not the row's one fixed frame (R107). -/
  | notTheFixedFrame
  deriving DecidableEq, Repr

end Sys2Proof
end

