-- ==== Sys2Proof/Machine/Operands.lean ====
section
/-!
DEFINITION. Machine/Operands: every operand form. Truncation (00_scope.md R14), the Link Codec's packing and
unpacking (40_link_codec.md R121, R123), the frames of the serial bus (30_encoding.md R100, R101, R106), the
DAC-index operand, and which operations are the bus driver's.
-/

namespace Sys2Proof.Machine

/-- `trunc_10` of an address operand (R121). -/
def trunc10 (a : Nat) : SlotAddr := BitVec.ofNat 10 a

/-- `trunc_14` of a value operand, `v mod 2^14` for an integer of any sign (R14, R121). -/
def trunc14 (v : Int) : Sample := BitVec.ofInt 14 v

/-- `trunc_5` of a register address (R106). -/
def trunc5 (r : Nat) : RegAddr := BitVec.ofNat 5 r

/-- `trunc_16` of register data (R106). -/
def trunc16 (d : Nat) : RegData := BitVec.ofNat 16 d

/-- The command word in two containers: the low 8 and the low 17 bits (R97). -/
def containers (linkAddress payload : Nat) : CommandWord :=
  ⟨BitVec.ofNat 8 linkAddress, BitVec.ofNat 17 payload⟩

/-- The word of an address, a value and an enable bit already cut to their fields (R92). -/
def packWord (a : SlotAddr) (v : Sample) (e : Bool) : CommandWord :=
  ⟨a.extractLsb' 0 8, a.extractLsb' 8 2 ++ enableBit e ++ v⟩

/-- `ENCODE(a, v, e)` (R121, R122). -/
def codecEncode (a : Nat) (v : Int) (e : Bool) : CommandWord :=
  packWord (trunc10 a) (trunc14 v) e

/-- `DECODE`: the logical address of a word (R93). -/
def addressOf (w : CommandWord) : SlotAddr := w.payload.extractLsb' 15 2 ++ w.linkAddress

/-- `DECODE`: the value of a word, a 14-bit pattern (R93). -/
def valueOf (w : CommandWord) : Sample := w.payload.extractLsb' 0 14

/-- `DECODE(link_address, payload)` (R123). -/
def codecDecode (w : CommandWord) : SlotAddr × Sample × Bool :=
  (addressOf w, valueOf w, enableOf w.payload)

/-- A command byte: opcode bit, `FRAME_RESERVED`, register address (R100, R101). -/
def commandByte (opcode : BitVec 1) (r : RegAddr) : BitVec 8 :=
  opcode ++ literals.frameReserved ++ r

/-- The write frame `WF` (R100). -/
def writeFrame (r : RegAddr) (d : RegData) : BitVec 24 := commandByte 0 r ++ d

/-- The read command `RC` (R101). -/
def readCommand (r : RegAddr) : BitVec 8 := commandByte 1 r

/-- A DAC-index operand, `none` outside `[0, 8)` (R151). -/
def dacIndex? (i : Nat) : Option DacIndex := if h : i < 8 then some ⟨i, h⟩ else none

/-- The operations of the bus driver (42_dac_bus.md, 43_dac_bringup.md and the facade calls onto them). -/
def onBusDriver : Instr → Bool
  | .writeRegister _ _ _ | .rdP1 _ _ | .rdP2 _ _ | .readRegister _ _ | .timingStatus _ | .initIdRead _
  | .initCalWriteA _ | .initCalWriteB _ | .bringUp | .dacReset | .busConfig _ _ _ _ | .busXfer _ | .initDacBank
  | .getDacTimingStatus _ => true
  | .wr _ _ _ | .encode _ _ _ | .decode _ _ | .tick _ | .writeSample _ _ _ | .writeSamples _ _ | .setEnable _ _ => false

end Sys2Proof.Machine
end

