-- ==== Sys2Proof/WellFormed.lean ====
section
/-!
DEFINITION. WellFormed: which terms of `Instr` are operations of the spec. Over-wide operands are legal (they are
truncated, R97, R106, R122) and a DAC index outside `[0, 8)` is refused by the operation itself (R151), so neither is
checked here. What is checked is the operand domain of the two bus primitives (R152, R153). `inField` says that the
operands fit the fields of the wire encoding.
-/

namespace Sys2Proof

/-- A frame the driver can present: opcode and reserved bits as R100 and R101 give them. -/
def Frame.wellFormed : Frame → Bool
  | .wf w => w.extractLsb' 21 3 == 0#1 ++ Machine.literals.frameReserved
  | .rc b => b.extractLsb' 5 3 == 1#1 ++ Machine.literals.frameReserved

/-- The mask is an entry of `CS_TABLE` (10_state.md R41, 30_encoding.md R111). -/
def csLegal (m : CsMask) : Bool := Machine.literals.csTable.toList.contains m

/-- The operand domains of the operations. -/
def Instr.wellFormed : Instr → Bool
  | .busConfig cs _ _ _ => csLegal cs
  | .busXfer f => f.wellFormed
  | .wr _ _ _ | .encode _ _ _ | .decode _ _ | .writeRegister _ _ _ | .rdP1 _ _ | .rdP2 _ _ | .readRegister _ _
  | .timingStatus _ | .initIdRead _ | .initCalWriteA _ | .initCalWriteB _ | .bringUp | .tick _ | .dacReset
  | .writeSample _ _ _ | .writeSamples _ _ | .setEnable _ _ | .initDacBank | .getDacTimingStatus _ => true

/-- The operands fit the fields of the wire encoding, so that nothing is truncated. -/
def Instr.inField : Instr → Bool
  | .wr _ la p | .decode la p => decide (la < 2 ^ 8) && decide (p < 2 ^ 17)
  | .encode a v _ => decide (a < 2 ^ 10) && decide (0 ≤ v) && decide (v < 2 ^ 14)
  | .writeRegister _ r d => decide (r < 2 ^ 5) && decide (d < 2 ^ 16)
  | .rdP1 _ r | .rdP2 _ r | .readRegister _ r => decide (r < 2 ^ 5)
  | .timingStatus _ | .initIdRead _ | .initCalWriteA _ | .initCalWriteB _ | .bringUp | .tick _ | .dacReset
  | .busConfig _ _ _ _ | .busXfer _ | .writeSample _ _ _ | .writeSamples _ _ | .setEnable _ _ | .initDacBank
  | .getDacTimingStatus _ => true

end Sys2Proof
end

