-- ==== Sys2Proof/Decode.lean ====
section
/-!
DEFINITION. Decode: from a wire word of spec/opcode_table.json, with what stands beside it, to the operation, and
after it the encoder. Decoding is total: every word gives an operation or a named rejection. The block itself decodes
command words only (30_encoding.md R104: it never decodes a bus frame); for the frames, decoding says which request
of the caller a frame stands for.
-/

namespace Sys2Proof

open Machine

/-- `CW25 = { link_address, payload }` as two fields (30_encoding.md R95). -/
def splitCw (w : BitVec 25) : CommandWord := ⟨w.extractLsb' 17 8, w.extractLsb' 0 17⟩

/-- The two fields of a command word as `CW25` (30_encoding.md R95). -/
def joinCw (w : CommandWord) : BitVec 25 := w.linkAddress ++ w.payload

/-- A command word: every one of the 2^25 patterns is legal (30_encoding.md R94). -/
def decodeCw (word : Nat) (k : CommandWord → Instr) : Except Reject Instr :=
  if word < 2 ^ 25 then .ok (k (splitCw (BitVec.ofNat 25 word))) else .error .wordTooWide

/-- The register address of a command byte with the given opcode bit (30_encoding.md R100, R101, R104). -/
def decodeCommandByte (opcode : BitVec 1) (b : BitVec 8) : Except Reject RegAddr :=
  if b.extractLsb' 7 1 ≠ opcode then .error .wrongOpcode
  else if b.extractLsb' 5 2 ≠ literals.frameReserved then .error .reservedBits
  else .ok (b.extractLsb' 0 5)

/-- A read command `RC` (30_encoding.md R101). -/
def decodeRc (word : Nat) (k : RegAddr → Instr) : Except Reject Instr :=
  if word < 2 ^ 8 then (decodeCommandByte 1 (BitVec.ofNat 8 word)).map k else .error .wordTooWide

/-- A word of 24 bits that begins with a command byte (30_encoding.md R100, R105). -/
def decode24 (opcode : BitVec 1) (word : Nat) (k : RegAddr → RegData → Instr) : Except Reject Instr :=
  if word < 2 ^ 24 then
    let w := BitVec.ofNat 24 word
    (decodeCommandByte opcode (w.extractLsb' 16 8)).map fun r => k r (w.extractLsb' 0 16)
  else .error .wordTooWide

/-- A row whose word is one fixed frame (30_encoding.md R107). -/
def decodeFixed (frame word : Nat) (i : Instr) : Except Reject Instr :=
  if word = frame then .ok i else .error .notTheFixedFrame

/-- The operation a request asks for. The 16 response bits of an `RD_P2` word are the chip's answer, not an operand,
and are ignored (log 24). -/
def decode (q : Request) : Except Reject Instr :=
  match q.op with
  | .wr => decodeCw q.word fun w => .wr q.port w.linkAddress.toNat w.payload.toNat
  | .encode => decodeCw q.word fun w =>
      .encode (addressOf w).toNat (valueOf w).toNat (enableOf w.payload)
  | .decode => decodeCw q.word fun w => .decode w.linkAddress.toNat w.payload.toNat
  | .writeRegister => decode24 0 q.word fun r d => .writeRegister q.port r.toNat d.toNat
  | .rdP1 => decodeRc q.word fun r => .rdP1 q.port r.toNat
  | .rdP2 => decode24 1 q.word fun r _ => .rdP2 q.port r.toNat
  | .readRegister => decodeRc q.word fun r => .readRegister q.port r.toNat
  | .timingStatus => decodeFixed (readCommand literals.statusReg).toNat q.word (.timingStatus q.port)
  | .initIdRead => decodeFixed (readCommand literals.idReg).toNat q.word (.initIdRead q.port)
  | .initCalWriteA =>
      decodeFixed (writeFrame literals.calRegA literals.calData).toNat q.word (.initCalWriteA q.port)
  | .initCalWriteB =>
      decodeFixed (writeFrame literals.calRegB literals.calData).toNat q.word (.initCalWriteB q.port)

/-- The wire word of an operation, with the channel or DAC index beside it; `none` for the operations that have no
encoding (30_encoding.md R112). -/
def encode : Instr → Option Request
  | .wr c la p => some ⟨.wr, c, (joinCw (containers la p)).toNat⟩
  | .encode a v e => some ⟨.encode, 0, (joinCw (codecEncode a v e)).toNat⟩
  | .decode la p => some ⟨.decode, 0, (joinCw (containers la p)).toNat⟩
  | .writeRegister i r d => some ⟨.writeRegister, i, (writeFrame (trunc5 r) (trunc16 d)).toNat⟩
  | .rdP1 i r => some ⟨.rdP1, i, (readCommand (trunc5 r)).toNat⟩
  | .rdP2 i r => some ⟨.rdP2, i, (readCommand (trunc5 r) ++ (0 : RegData)).toNat⟩
  | .readRegister i r => some ⟨.readRegister, i, (readCommand (trunc5 r)).toNat⟩
  | .timingStatus i => some ⟨.timingStatus, i, (readCommand literals.statusReg).toNat⟩
  | .initIdRead i => some ⟨.initIdRead, i, (readCommand literals.idReg).toNat⟩
  | .initCalWriteA i => some ⟨.initCalWriteA, i, (writeFrame literals.calRegA literals.calData).toNat⟩
  | .initCalWriteB i => some ⟨.initCalWriteB, i, (writeFrame literals.calRegB literals.calData).toNat⟩
  | .bringUp | .tick _ | .dacReset | .busConfig _ _ _ _ | .busXfer _ | .writeSample _ _ _ | .writeSamples _ _
  | .setEnable _ _ | .initDacBank | .getDacTimingStatus _ => none

/-- The row a bare table word of `nbits` bits is taken for, where several rows share its pattern (log 16): a fixed
frame of `TIMING_STATUS` or `INITIALIZE` before the general row, a read command as `READ_REGISTER`, a command word as
`WR` (30_encoding.md R94). -/
def wordOp (nbits w : Nat) : WireOp :=
  if nbits ≤ 8 then
    if w = (readCommand literals.statusReg).toNat then .timingStatus
    else if w = (readCommand literals.idReg).toNat then .initIdRead
    else .readRegister
  else if nbits ≤ 24 then
    if w = (writeFrame literals.calRegA literals.calData).toNat then .initCalWriteA
    else if w = (writeFrame literals.calRegB literals.calData).toNat then .initCalWriteB
    else if w.testBit 23 then .rdP2
    else .writeRegister
  else .wr

/-- The request a bare table word stands for: channel 0 or DAC index 0 beside it (log 16). -/
def tableRequest (nbits w : Nat) : Request := ⟨wordOp nbits w, 0, w⟩

/-- The operation read from a bare table word, for the host's questions. -/
def decodeTableWord (nbits w : Nat) : Option Instr :=
  match decode (tableRequest nbits w) with
  | .ok i    => some i
  | .error _ => none

end Sys2Proof
end

