-- ==== Sys2Proof/Machine/State.lean ====
section
/-!
DEFINITION. Machine/State: every piece of state 10_state.md gives the machine, as plain data, and the state after
block reset (70_reset_and_hazards.md R230, R231). Fields that are the model's own are marked MODEL and have a log
entry; all others are named by the rule in their docstring.
-/

namespace Sys2Proof.Machine

/-- The slots of one sample buffer that a `WR` has written since reset, as (slot address, value) pairs with strictly
rising addresses below 1024; a slot that is not listed has not been written since reset and holds its launch value
(10_state.md R23, R24; log 6). Slots are 14 bits wide, so this is not a list of byte cells (20_memory.md R63). -/
abbrev Memory := List (Nat × Sample)

/-- The sample-path state of one channel (10_state.md R20). -/
structure Channel where
  /-- `SB[c]` (R23). -/
  sb      : Memory
  /-- `en[c]` (R25). -/
  en      : Bool
  /-- `rp[c]` (R26). -/
  rp      : SlotAddr
  /-- `out[c]` (R27). -/
  out     : Sample
  /-- MODEL: how many values the test point has drawn (R28 makes `tp[c]` a draw, not state; log 7). -/
  tpDraws : Nat
  deriving DecidableEq, Repr

/-- `bus_cfg` (10_state.md R41). -/
structure BusCfg where
  cs   : CsMask
  len  : XferLen
  /-- The field `end`: the next transfer ends the transaction. -/
  ends : Bool
  mode : BusMode
  deriving DecidableEq, Repr

/-- `cs_line` (10_state.md R42). -/
inductive CsLine where
  | released
  | asserted (m : CsMask)
  deriving DecidableEq, Repr

/-- `bus_phase` (10_state.md R43). -/
inductive BusPhase where
  | idle
  | readOpen (i : DacIndex) (r : RegAddr)
  deriving DecidableEq, Repr

/-- `init_status` (10_state.md R46). -/
inductive InitStatus where
  | notInitialized
  | initialized
  | failed (i : DacIndex) (v : RegData)
  deriving DecidableEq, Repr

/-- The bits captured by a transfer in `HD_IN` mode, with their count (42_dac_bus.md R153). -/
inductive Captured where
  | c8 (v : BitVec 8)
  | c16 (v : BitVec 16)
  | c24 (v : BitVec 24)
  deriving DecidableEq, Repr

/-- The board-level enable lines (10_state.md R45). -/
inductive BoardLine where
  | oscEn
  | mmcxSel
  | refclkSel
  deriving DecidableEq, Repr

/-- The kinds of delay (10_state.md R48, 60_exceptions.md R217). -/
inductive DelayKind where
  | resetHold
  | resetPostHold
  | settle
  | writeGap
  deriving DecidableEq, Repr

/-- The fatal conditions: the spec defines exactly one (60_exceptions.md R200, R202). -/
inductive FatalCondition where
  /-- `BringUpIdentityMismatch(i, v)` (60_exceptions.md R201). -/
  | bringUpIdentityMismatch (i : DacIndex) (v : RegData)
  deriving DecidableEq, Repr

/-- The events of the trace `T` (10_state.md R48). -/
inductive Event where
  | cfg (c : BusCfg)
  | xfer (cs : CsMask) (mode : BusMode) (len : XferLen) (outBits : Frame) (inBits : Option Captured) (ends : Bool)
  | resetLine (level : Bool)
  | enableLine (line : BoardLine) (level : Bool)
  | delay (kind : DelayKind) (n : Nat)
  | fault (x : FatalCondition)
  deriving DecidableEq, Repr

/-- What a transfer's operation does with the captured bits, and with the phase, in the same step (42_dac_bus.md). -/
inductive AfterXfer where
  /-- Nothing more (R158). -/
  | done
  /-- The captured bits are returned (R153). -/
  | giveBits
  /-- Phase 1 of a read: the read is open (R161). -/
  | openRead (i : DacIndex) (r : RegAddr)
  /-- Phase 2 of a read: the read is closed and its 16 bits are returned (R162). -/
  | closeRead
  /-- Phase 2 of the identity read of chip `i`: the read is closed and its 16 bits are checked (43_dac_bringup.md
  R181). -/
  | checkIdentity (i : DacIndex)
  deriving DecidableEq, Repr

/-- One step of the bus driver (00_scope.md R10): a reconfiguration, a transfer, a line change or a delay. -/
inductive BusStep where
  /-- `BUS_CONFIG` (42_dac_bus.md R152). -/
  | config (c : BusCfg)
  /-- `BUS_XFER` (R153), and what its operation does after it. -/
  | xfer (outBits : Frame) (after : AfterXfer)
  /-- The device reset line driven to a level (R156). -/
  | resetLine (level : Bool)
  /-- A board-level enable line driven active; with the `last` one success is recorded (43_dac_bringup.md R181). -/
  | enableLine (line : BoardLine) (last : Bool)
  /-- A delay (R156, R181). -/
  | delay (kind : DelayKind) (n : Nat)
  deriving DecidableEq, Repr

/-- The state of the DAC bus driver (10_state.md R40). -/
structure Bus where
  /-- `bus_cfg` (R41). -/
  cfg        : BusCfg
  /-- `cs_line` (R42). -/
  csLine     : CsLine
  /-- `bus_phase` (R43). -/
  phase      : BusPhase
  /-- `dac_reset` (R44). -/
  dacReset   : Bool
  /-- `osc_en` (R45). -/
  oscEn      : Bool
  /-- `mmcx_sel` (R45). -/
  mmcxSel    : Bool
  /-- `refclk_sel` (R45). -/
  refclkSel  : Bool
  /-- `init_status` (R46). -/
  initStatus : InitStatus
  /-- `T` (R48), oldest event first. -/
  trace      : List Event
  /-- MODEL: the steps that the operation in progress has still to take, a local of the operation (00_scope.md R16,
  10_state.md R22, 42_dac_bus.md R165; log 3). -/
  todo       : List BusStep
  /-- MODEL: the answers the chips are about to give, oldest first (20_memory.md R70; log 5). -/
  answers    : List (BitVec 24)
  /-- MODEL: how many answers beyond the queued ones have been drawn (log 5). -/
  drawn      : Nat
  deriving DecidableEq, Repr

/-- MODEL: what the latest operation that returns a value returned to its caller (log 11). -/
inductive Returned where
  | nothing
  /-- `ENCODE` (R121). -/
  | commandWord (w : CommandWord)
  /-- `DECODE` (R123). -/
  | decoded (a : SlotAddr) (v : Sample) (e : Bool)
  /-- A register read (R160, R162, R164). -/
  | data16 (v : RegData)
  /-- `BUS_XFER` (R153). -/
  | inBits (c : Option Captured)
  deriving DecidableEq, Repr

/-- MODEL: an entry of the agenda (log 1): something the outside asks of the machine, or an agent's turn. -/
inductive Stimulus where
  /-- A wire word presented on an interface; its operation runs with nothing between its steps. -/
  | wire (q : Request)
  /-- An operation invoked by the caller, or a tick of an output clock; it runs with nothing between its steps. -/
  | call (i : Instr)
  /-- An operation invoked by the caller, whose steps are then taken one by one as its agent gets its turns. -/
  | start (i : Instr)
  /-- The bus driver's turn: the next step of its operation in progress. -/
  | driver
  /-- The batch's turn: the next step of the `write_samples` in progress. -/
  | batch
  deriving DecidableEq, Repr

/-- One step of a `write_samples` (44_control_facade.md R192). -/
inductive BatchStep where
  /-- A command word for channel `c`. -/
  | word (c : Nat) (w : CommandWord)
  /-- The delay between one write and the next. -/
  | gap
  deriving DecidableEq, Repr

/-- The reasons the machine stops with a fault. -/
inductive Fault where
  /-- `BusProtocolViolation` (60_exceptions.md R212): raised by every bus operation but the matching `RD_P2` when a
  read is open, by `RD_P2` with no matching open read, and by a transfer under a mask other than the asserted one.
  Safe: the spec claims nothing after it. -/
  | busProtocolViolation
  deriving DecidableEq, Repr

/-- The reasons an operation is refused. -/
inductive Refusal where
  /-- Raised by exec's arm of an instruction that has no meaning yet. Safe. -/
  | notModelled (mnemonic : String)
  /-- `BadDacIndex` (60_exceptions.md R214): raised by an operation given a DAC index outside `[0, 8)`. Safe. -/
  | badDacIndex
  /-- `DriverHalted` (60_exceptions.md R204, R214): raised by every bus-driver operation once `init_status` is
  `FAILED`. Safe. -/
  | driverHalted
  /-- Raised by a bus-driver operation while another is in progress, which R165 of 42_dac_bus.md forbids to begin. A
  step never answers it: there the request waits (log 26). Safe. -/
  | driverBusy
  /-- Raised by a sample-path operation on a channel number that is not below `N_CHANNELS` (log 8). Safe. -/
  | noSuchChannel
  /-- Raised by the step on an operation that is not well formed: a mask outside `CS_TABLE`, or bits that are no
  frame (log 15). Safe. -/
  | illFormedRequest
  /-- Raised by the step on a wire word that is not one of its row's words. Safe. -/
  | undecodable (why : Reject)
  deriving DecidableEq, Repr

/-- The whole machine. -/
structure State where
  /-- The channels `0 .. N_CHANNELS - 1` (10_state.md R20, 60_exceptions.md R219). -/
  channels : List Channel
  /-- The bus driver (10_state.md R40). -/
  bus      : Bus
  /-- MODEL: the value the caller was last given (log 11). -/
  returned : Returned
  /-- MODEL: the open launch parameters (00_scope.md R12; log 9). -/
  params   : Params
  /-- MODEL: the steps that the `write_samples` in progress has still to take, where its caller stands in the call
  (00_scope.md R16, 44_control_facade.md R192; log 4). -/
  batch    : List BatchStep
  /-- The marks that refused operations left on the run, oldest first (60_exceptions.md R214; log 12). -/
  marks    : List Refusal
  /-- MODEL: what the agents do next, oldest first (00_scope.md R16; log 1). -/
  agenda   : List Stimulus
  /-- MODEL: how many times the choice of who goes next was left free (log 2). -/
  unasked  : Nat
  deriving DecidableEq, Repr

/-- A channel after block reset (70_reset_and_hazards.md R231). -/
def Channel.reset : Channel where
  sb      := []
  en      := false
  rp      := 0
  out     := 0
  tpDraws := 0

/-- The bus driver after block reset (70_reset_and_hazards.md R231). -/
def Bus.reset : Bus where
  cfg        := ⟨0b1111, .b8, true, .out⟩
  csLine     := .released
  phase      := .idle
  dacReset   := false
  oscEn      := false
  mmcxSel    := false
  refclkSel  := false
  initStatus := .notInitialized
  trace      := []
  todo       := []
  answers    := []
  drawn      := 0

/-- The machine after block reset (70_reset_and_hazards.md R230, R231): at least one channel, of open number, each
idle; the bus driver idle and not initialized; nothing asked of it yet. -/
def State.reset : State where
  channels := List.replicate (Config.extraChannels + 1) Channel.reset
  bus      := Bus.reset
  returned := .nothing
  params   := Config.launchParams
  batch    := []
  marks    := []
  agenda   := []
  unasked  := 0

end Sys2Proof.Machine
end

