-- ==== Sys2Proof/Machine/Ops.lean ====
section
/-!
DEFINITION. Machine/Ops: the named operations over the sample buffers, the channels and the bus driver; taking the
one fatal condition; the steps of each bus-driver operation and of a batch; and the checks on entry that the operations
share. Every meaning is built from these.
-/

namespace Sys2Proof.Machine

/-! ### The sample buffer (20_memory.md R61, R66) -/

/-- The value a `WR` has stored in slot `a` since reset, if one has. -/
def Memory.read? : Memory → Nat → Option Sample
  | [], _ => none
  | (k, v) :: m, a => if k = a then some v else Memory.read? m a

/-- `MemWrite(SB[c], a, 1, v)` (00_scope.md R15): slot `a` holds `v` afterwards, every other slot what it held. -/
def Memory.write : Memory → Nat → Sample → Memory
  | [], a, v => [(a, v)]
  | (k, w) :: m, a, v =>
    if a < k then (a, v) :: (k, w) :: m
    else if a = k then (a, v) :: m
    else (k, w) :: Memory.write m a v

/-- The canonical form: every address is a slot (below `N_SAMPLES`) and addresses rise strictly. -/
def Memory.wf : Memory → Bool
  | [] => true
  | (k, _) :: m => decide (k < 1024) && m.all (fun e => decide (k < e.1)) && Memory.wf m

/-! ### One channel (41_sample_store_playback.md) -/

/-- `MemRead(SB[c], a, 1)`: the value last stored in the slot, or the slot's launch value (10_state.md R24). -/
def Channel.slot (c : Nat) (ch : Channel) (a : SlotAddr) : Sample :=
  (ch.sb.read? a.toNat).getD (Config.launchSlot c a)

/-- The two stores of the write process, in one step (R131, 20_memory.md R78). -/
def Channel.store (ch : Channel) (a : SlotAddr) (v : Sample) (e : Bool) : Channel :=
  { ch with sb := ch.sb.write a.toNat v, en := e }

/-- The write process on one command word (R131). -/
def Channel.applyWord (w : CommandWord) (ch : Channel) : Channel :=
  let (a, v, e) := codecDecode w
  ch.store a v e

/-- One output-clock tick (R135, R137). -/
def Channel.tick (c : Nat) (ch : Channel) : Channel :=
  if ch.en then
    { ch with out := ch.slot c ch.rp, rp := ch.rp + 1, tpDraws := ch.tpDraws + 1 }
  else
    { ch with out := literals.idleValue, rp := 0, tpDraws := ch.tpDraws + 1 }

/-- The test point `tp[c]` after the latest tick (10_state.md R28): a view of the channel, not state. -/
def Channel.testPoint (c : Nat) (ch : Channel) : List Bool := Config.testPoint c ch.tpDraws

/-! ### The channels of the machine -/

/-- A step of one channel's agent: no other channel and no other state changes (10_state.md R20). -/
def onChannel (c : Nat) (f : Channel → Channel) (s : State) : Host.Outcome State Fault Refusal :=
  match s.channels[c]? with
  | some ch => .next { s with channels := s.channels.set c (f ch) }
  | none    => .refused .noSuchChannel

/-! ### The bus driver (42_dac_bus.md) -/

/-- `emit E` (00_scope.md R15). -/
def Bus.emit (b : Bus) (e : Event) : Bus := { b with trace := b.trace ++ [e] }

/-- `draw`: the next answer of the chips, queued or free (20_memory.md R70). -/
def Bus.draw (b : Bus) : BitVec 24 × Bus :=
  match b.answers with
  | a :: as => (a, { b with answers := as })
  | []      => (Config.freeAnswer b.drawn, { b with drawn := b.drawn + 1 })

/-- The `len` bits captured from an answer (42_dac_bus.md R153). -/
def capture (len : XferLen) (a : BitVec 24) : Captured :=
  match len with
  | .b8  => .c8 (a.setWidth 8)
  | .b16 => .c16 (a.setWidth 16)
  | .b24 => .c24 (a.setWidth 24)

/-- `BUS_CONFIG(cs, len, end, mode)` (R152): `cs_line` is not touched. -/
def Bus.config (c : BusCfg) (b : Bus) : Bus := { b with cfg := c }.emit (.cfg c)

/-- The end of a transfer: the event, and chip-select released or held (R153). -/
def Bus.finish (outBits : Frame) (inBits : Option Captured) (b : Bus) : Bus :=
  { b with csLine := if b.cfg.ends then .released else .asserted b.cfg.cs }.emit
    (.xfer b.cfg.cs b.cfg.mode b.cfg.len outBits inBits b.cfg.ends)

/-- `BUS_XFER(out_bits) -> in_bits` (R153); `none` where its `require` line fails, which is a protocol violation. -/
def Bus.xfer (outBits : Frame) (b : Bus) : Option (Option Captured × Bus) :=
  if b.csLine = .released ∨ b.csLine = .asserted b.cfg.cs then
    match b.cfg.mode with
    | .out  => some (none, b.finish outBits none)
    | .hdIn =>
      let (a, b') := b.draw
      let inBits := some (capture b.cfg.len a)
      some (inBits, b'.finish outBits inBits)
  else none

/-- `dac_reset <- level ; emit ResetLine(level)` (R156). -/
def Bus.setReset (level : Bool) (b : Bus) : Bus := { b with dacReset := level }.emit (.resetLine level)

/-- A board-level enable line driven active, with its event; with the last line `init_status <- INITIALIZED`
(43_dac_bringup.md R181, R183). -/
def Bus.assertLine (line : BoardLine) (last : Bool) (b : Bus) : Bus :=
  { b with
    oscEn      := b.oscEn || decide (line = BoardLine.oscEn)
    mmcxSel    := b.mmcxSel || decide (line = BoardLine.mmcxSel)
    refclkSel  := b.refclkSel || decide (line = BoardLine.refclkSel)
    initStatus := if last then .initialized else b.initStatus }.emit (.enableLine line true)

/-! ### The exception (60_exceptions.md) -/

/-- TAKING THE EXCEPTION `BringUpIdentityMismatch(i, v)` (60_exceptions.md R204): the outcome is recorded, the event
appended and the rest of the operation dropped; nothing is saved and control goes nowhere. There is no return from it
(R206). -/
def Bus.raiseIdentityMismatch (i : DacIndex) (v : RegData) (b : Bus) : Bus :=
  { b with initStatus := .failed i v, todo := [] }.emit (.fault (.bringUpIdentityMismatch i v))

/-- `init_status = FAILED`: the driver takes no further step (60_exceptions.md R204). -/
def Bus.halted (b : Bus) : Bool :=
  match b.initStatus with
  | .failed _ _ => true
  | .notInitialized | .initialized => false

/-! ### One step of the driver (00_scope.md R10) -/

/-- The 16 bits of a read response (42_dac_bus.md R162); a transfer under the configuration of phase 2 captures no
other number of bits. -/
def response : Option Captured → Option RegData
  | some (.c16 v) => some v
  | some (.c8 _) | some (.c24 _) | none => none

/-- The end of phase 2 of the identity read of chip `i`: the check, and the exception on a mismatch (43_dac_bringup.md
R181). -/
def Bus.checkIdentity (i : DacIndex) (v : RegData) (b : Bus) : Bus :=
  let b := { b with phase := .idle }
  if identityMatches v then b else b.raiseIdentityMismatch i v

/-- What the operation of a transfer does after it, in the same step: the driver and what its caller was last given. -/
def AfterXfer.apply (a : AfterXfer) (inBits : Option Captured) (o : Returned) (b : Bus) : Option (Returned × Bus) :=
  match a with
  | .done            => some (o, b)
  | .giveBits        => some (.inBits inBits, b)
  | .openRead i r    => some (o, { b with phase := .readOpen i r })
  | .closeRead       => (response inBits).map fun v => (.data16 v, { b with phase := .idle })
  | .checkIdentity i => (response inBits).map fun v => (o, b.checkIdentity i v)

/-- One step of the driver; `none` where the `require` line of a transfer fails (42_dac_bus.md R153). -/
def BusStep.perform (m : BusStep) (o : Returned) (b : Bus) : Option (Returned × Bus) :=
  match m with
  | .config c             => some (o, b.config c)
  | .resetLine level      => some (o, b.setReset level)
  | .enableLine line last => some (o, b.assertLine line last)
  | .delay kind n         => some (o, b.emit (.delay kind n))
  | .xfer outBits after   =>
    match b.xfer outBits with
    | some (inBits, b') => after.apply inBits o b'
    | none => none

/-- The steps of an operation with nothing between them, up to the exception if one is taken. -/
def Bus.run : List BusStep → Returned → Bus → Option (Returned × Bus)
  | [], o, b => some (o, b)
  | m :: ms, o, b =>
    match m.perform o b with
    | some (o', b') => if b'.halted then some (o', b') else Bus.run ms o' b'
    | none => none

/-! ### The steps of each operation, in order (42_dac_bus.md, 43_dac_bringup.md) -/

/-- `WRITE_REGISTER(i, r, d)` (R158). -/
def writeRegisterSteps (i : DacIndex) (r : RegAddr) (d : RegData) : List BusStep :=
  [.config ⟨csMask i, .b24, true, .out⟩, .xfer (.wf (writeFrame r d)) .done]

/-- `RD_P1(i, r)` (R161). -/
def readPhase1Steps (i : DacIndex) (r : RegAddr) : List BusStep :=
  [.config ⟨csMask i, .b8, false, .out⟩, .xfer (.rc (readCommand r)) (.openRead i r)]

/-- `RD_P2(i, r)` (R162), and what is done with its 16 bits. -/
def readPhase2Steps (i : DacIndex) (r : RegAddr) (after : AfterXfer) : List BusStep :=
  [.config ⟨csMask i, .b16, true, .hdIn⟩, .xfer (.rc (readCommand r)) after]

/-- `READ_REGISTER(i, r)` (R160): the two phases, with nothing on the bus between them. -/
def readRegisterSteps (i : DacIndex) (r : RegAddr) (after : AfterXfer) : List BusStep :=
  readPhase1Steps i r ++ readPhase2Steps i r after

/-- `DAC_RESET()` (R156): the line pulsed, with a hold after each change. -/
def resetSteps : List BusStep :=
  [.resetLine true, .delay .resetHold literals.resetHold,
   .resetLine false, .delay .resetPostHold literals.resetPostHold]

/-- The identity read of chip `i` (R181). -/
def identitySteps (i : DacIndex) : List BusStep := readRegisterSteps i literals.idReg (.checkIdentity i)

/-- The first calibration write of chip `i` (R181). -/
def calStepsA (i : DacIndex) : List BusStep := writeRegisterSteps i literals.calRegA literals.calData

/-- The second calibration write of chip `i` (R181). -/
def calStepsB (i : DacIndex) : List BusStep := writeRegisterSteps i literals.calRegB literals.calData

/-- What bring-up does with chip `i`: identity read, settling delay, two calibration writes (R181). -/
def chipSteps (tSettle : Nat) (i : DacIndex) : List BusStep :=
  identitySteps i ++ [.delay .settle tSettle] ++ calStepsA i ++ calStepsB i

/-- The board-level enable sequence (43_dac_bringup.md R183). -/
def lineSteps : List BusStep :=
  [.enableLine .oscEn false, .enableLine .mmcxSel false, .enableLine .refclkSel true]

/-- The chips in index order (R181). -/
def chipOrder : List DacIndex := [0, 1, 2, 3, 4, 5, 6, 7]

/-- `INITIALIZE()` (R181). -/
def bringUpSteps (tSettle : Nat) : List BusStep :=
  resetSteps ++ chipOrder.flatMap (chipSteps tSettle) ++ lineSteps

/-! ### Checks on entry, and the two ways to take an operation's steps -/

/-- The driver takes no step once bring-up has failed (60_exceptions.md R204, R214). -/
def unlessHalted (s : State) (k : Host.Outcome State Fault Refusal) : Host.Outcome State Fault Refusal :=
  if s.bus.halted then .refused .driverHalted else k

/-- No operation begins while another is in progress (42_dac_bus.md R165; log 26). -/
def whenDriverFree (s : State) (k : Host.Outcome State Fault Refusal) : Host.Outcome State Fault Refusal :=
  unlessHalted s (if s.bus.todo.isEmpty then k else .refused .driverBusy)

/-- The common preconditions (42_dac_bus.md R151), in the order of 60_exceptions.md R208: not halted, no open read. -/
def whenBusIdle (s : State) (k : Host.Outcome State Fault Refusal) : Host.Outcome State Fault Refusal :=
  whenDriverFree s (if s.bus.phase = .idle then k else .fault .busProtocolViolation)

/-- The last check: the DAC index (42_dac_bus.md R151, 60_exceptions.md R208). -/
def withDac (i : Nat) (k : DacIndex → Host.Outcome State Fault Refusal) : Host.Outcome State Fault Refusal :=
  match dacIndex? i with
  | some d => k d
  | none   => .refused .badDacIndex

/-- An operation run to its end with nothing between its steps: the sample path is untouched (00_scope.md R3); a failed
`require` is the fault of 60_exceptions.md R212. -/
def runOperation (s : State) (ms : List BusStep) : Host.Outcome State Fault Refusal :=
  match Bus.run ms s.returned s.bus with
  | some (o, b) => .next { s with bus := b, returned := o }
  | none        => .fault .busProtocolViolation

/-- An operation begun: its steps are the driver's to take, one at each of its turns (00_scope.md R16). -/
def beginOperation (s : State) (ms : List BusStep) : Host.Outcome State Fault Refusal :=
  .next { s with bus := { s.bus with todo := ms } }

/-- The next step of the operation in progress, `m`, with `ms` after it. -/
def driverStep (m : BusStep) (ms : List BusStep) (s : State) : Host.Outcome State Fault Refusal :=
  match m.perform s.returned { s.bus with todo := ms } with
  | some (o, b) => .next { s with bus := b, returned := o }
  | none        => .fault .busProtocolViolation

/-! ### A batch of writes (44_control_facade.md R192) -/

/-- One command word to channel `c`: `WR(c, ENCODE(a, v, e))` (R191, R193). -/
def sendWord (c a : Nat) (v : Int) (e : Bool) (s : State) : Host.Outcome State Fault Refusal :=
  onChannel c (Channel.applyWord (codecEncode a v e)) s

/-- The steps of `write_samples` from address `k` on (R192): a gap between each write and the next, none after the
last. -/
def batchSteps (c : Nat) (e : Bool) : Nat → List Int → List BatchStep
  | _, [] => []
  | k, [v] => [.word c (codecEncode k v e)]
  | k, v :: w :: vs => .word c (codecEncode k v e) :: .gap :: batchSteps c e (k + 1) (w :: vs)

/-- A gap's event waits while a read is open, because the trace holds nothing but the configuration of phase 2 between
the two transfers of a read (20_memory.md R80; log 4). -/
def BatchStep.waits (m : BatchStep) (s : State) : Bool :=
  match m with
  | .word _ _ => false
  | .gap      => !decide (s.bus.phase = .idle)

/-- One step of a batch. -/
def BatchStep.perform (m : BatchStep) (s : State) : Host.Outcome State Fault Refusal :=
  match m with
  | .word c w => onChannel c (Channel.applyWord w) s
  | .gap      => .next { s with bus := s.bus.emit (.delay .writeGap literals.writeGap) }

/-- The steps of a batch with nothing between them; from one that must wait on, they stay in progress. -/
def runBatch : List BatchStep → State → Host.Outcome State Fault Refusal
  | [], s => .next { s with batch := [] }
  | m :: ms, s =>
    if m.waits s then .next { s with batch := m :: ms }
    else
      match m.perform s with
      | .next s' => runBatch ms s'
      | .fault f => .fault f
      | .refused r => .refused r

end Sys2Proof.Machine
end

