-- ==== Sys2Proof/Machine/BringUp.lean ====
section
/-!
DEFINITION. Machine/BringUp: `INITIALIZE` and the three frames it sends, each an operation of its own (43_dac_bringup.md
R181, 30_encoding.md R112; log 14): for each its entry and its meaning, as in DacBus.lean. An identity mismatch takes the
exception of 60_exceptions.md R204: a next state, since the sample path goes on (R205).
-/

namespace Sys2Proof.Machine

/-- `INITIALIZE.id_read` on chip `i`: the identity read, and the exception on a mismatch (R181). -/
def enterInitIdRead (i : Nat) (s : State) (k : List BusStep → Host.Outcome State Fault Refusal) :
    Host.Outcome State Fault Refusal :=
  whenBusIdle s (withDac i fun j => k (identitySteps j))

/-- `INITIALIZE.cal_write_a` on chip `i` (R181). -/
def enterInitCalWriteA (i : Nat) (s : State) (k : List BusStep → Host.Outcome State Fault Refusal) :
    Host.Outcome State Fault Refusal :=
  whenBusIdle s (withDac i fun j => k (calStepsA j))

/-- `INITIALIZE.cal_write_b` on chip `i` (R181). -/
def enterInitCalWriteB (i : Nat) (s : State) (k : List BusStep → Host.Outcome State Fault Refusal) :
    Host.Outcome State Fault Refusal :=
  whenBusIdle s (withDac i fun j => k (calStepsB j))

/-- `INITIALIZE()` (R181, R186: it may run again after a success). -/
def enterBringUp (s : State) (k : List BusStep → Host.Outcome State Fault Refusal) :
    Host.Outcome State Fault Refusal :=
  whenBusIdle s (k (bringUpSteps s.params.tSettle))

/-! ### The meanings -/

/-- `INITIALIZE.id_read` (R181). -/
def execInitIdRead (i : Nat) (s : State) : Host.Outcome State Fault Refusal := enterInitIdRead i s (runOperation s)

/-- `INITIALIZE.cal_write_a` (R181). -/
def execInitCalWriteA (i : Nat) (s : State) : Host.Outcome State Fault Refusal :=
  enterInitCalWriteA i s (runOperation s)

/-- `INITIALIZE.cal_write_b` (R181). -/
def execInitCalWriteB (i : Nat) (s : State) : Host.Outcome State Fault Refusal :=
  enterInitCalWriteB i s (runOperation s)

/-- `INITIALIZE` (R181). -/
def execBringUp (s : State) : Host.Outcome State Fault Refusal := enterBringUp s (runOperation s)

end Sys2Proof.Machine
end

