-- ==== Sys2Proof/Machine/DacBus.lean ====
section
/-!
DEFINITION. Machine/DacBus: the bus driver's operations (42_dac_bus.md). For each, its entry (an `enter` definition):
the checks that R151 asks, in the order of 60_exceptions.md R208, and the steps it then takes, with its operands masked
(30_encoding.md R106). Its meaning runs the steps with nothing between them; Turns.lean begins the same steps one by one.
-/

namespace Sys2Proof.Machine

/-- `BUS_CONFIG(cs, len, end, mode)` asked for by the caller (R152). -/
def enterBusConfig (cs : CsMask) (len : XferLen) (ends : Bool) (mode : BusMode) (s : State)
    (k : List BusStep → Host.Outcome State Fault Refusal) : Host.Outcome State Fault Refusal :=
  whenBusIdle s (k [.config ⟨cs, len, ends, mode⟩])

/-- `BUS_XFER(out_bits) -> in_bits` asked for by the caller (R153). -/
def enterBusXfer (outBits : Frame) (s : State) (k : List BusStep → Host.Outcome State Fault Refusal) :
    Host.Outcome State Fault Refusal :=
  whenBusIdle s (k [.xfer outBits .giveBits])

/-- `DAC_RESET()` (R156). -/
def enterDacReset (s : State) (k : List BusStep → Host.Outcome State Fault Refusal) :
    Host.Outcome State Fault Refusal :=
  whenBusIdle s (k resetSteps)

/-- `WRITE_REGISTER(i, r, d)` (R158). -/
def enterWriteRegister (i r d : Nat) (s : State) (k : List BusStep → Host.Outcome State Fault Refusal) :
    Host.Outcome State Fault Refusal :=
  whenBusIdle s (withDac i fun j => k (writeRegisterSteps j (trunc5 r) (trunc16 d)))

/-- `RD_P1(i, r)` asked for by the caller (R161, R163). -/
def enterRdP1 (i r : Nat) (s : State) (k : List BusStep → Host.Outcome State Fault Refusal) :
    Host.Outcome State Fault Refusal :=
  whenBusIdle s (withDac i fun j => k (readPhase1Steps j (trunc5 r)))

/-- `RD_P2(i, r)` asked for by the caller (R162, R163). Under an open read it may only complete that one (60_exceptions.md
R212); with none open its index is checked (R151), and then its `require` line fails (log 13). -/
def enterRdP2 (i r : Nat) (s : State) (k : List BusStep → Host.Outcome State Fault Refusal) :
    Host.Outcome State Fault Refusal :=
  whenDriverFree s
    (match s.bus.phase with
     | .readOpen j q =>
       if i = j.val ∧ trunc5 r = q then k (readPhase2Steps j q .closeRead) else .fault .busProtocolViolation
     | .idle => withDac i fun _ => .fault .busProtocolViolation)

/-- The read of a register for the caller: R151's checks, then R160. -/
def enterRead (i : Nat) (r : RegAddr) (s : State) (k : List BusStep → Host.Outcome State Fault Refusal) :
    Host.Outcome State Fault Refusal :=
  whenBusIdle s (withDac i fun j => k (readRegisterSteps j r .closeRead))

/-- `READ_REGISTER(i, r)` (R160). -/
def enterReadRegister (i r : Nat) (s : State) (k : List BusStep → Host.Outcome State Fault Refusal) :
    Host.Outcome State Fault Refusal :=
  enterRead i (trunc5 r) s k

/-- `TIMING_STATUS(i)` (R164). -/
def enterTimingStatus (i : Nat) (s : State) (k : List BusStep → Host.Outcome State Fault Refusal) :
    Host.Outcome State Fault Refusal :=
  enterRead i literals.statusReg s k

/-! ### The meanings -/

/-- `BUS_CONFIG` (R152). -/
def execBusConfig (cs : CsMask) (len : XferLen) (ends : Bool) (mode : BusMode) (s : State) :
    Host.Outcome State Fault Refusal :=
  enterBusConfig cs len ends mode s (runOperation s)

/-- `BUS_XFER` (R153). -/
def execBusXfer (outBits : Frame) (s : State) : Host.Outcome State Fault Refusal :=
  enterBusXfer outBits s (runOperation s)

/-- `DAC_RESET` (R156). -/
def execDacReset (s : State) : Host.Outcome State Fault Refusal := enterDacReset s (runOperation s)

/-- `WRITE_REGISTER` (R158). -/
def execWriteRegister (i r d : Nat) (s : State) : Host.Outcome State Fault Refusal :=
  enterWriteRegister i r d s (runOperation s)

/-- `RD_P1` (R161). -/
def execRdP1 (i r : Nat) (s : State) : Host.Outcome State Fault Refusal := enterRdP1 i r s (runOperation s)

/-- `RD_P2` (R162). -/
def execRdP2 (i r : Nat) (s : State) : Host.Outcome State Fault Refusal := enterRdP2 i r s (runOperation s)

/-- `READ_REGISTER` (R160). -/
def execReadRegister (i r : Nat) (s : State) : Host.Outcome State Fault Refusal :=
  enterReadRegister i r s (runOperation s)

/-- `TIMING_STATUS` (R164). -/
def execTimingStatus (i : Nat) (s : State) : Host.Outcome State Fault Refusal :=
  enterTimingStatus i s (runOperation s)

end Sys2Proof.Machine
end

