-- ==== Sys2Proof/Machine/Facade.lean ====
section
/-!
DEFINITION. Machine/Facade: the meanings of the five facade calls, each an expansion into the other operations
(44_control_facade.md R190 to R195). The facade holds no state; the steps a batch has still to take are where its caller
stands in the call (log 4).
-/

namespace Sys2Proof.Machine

/-- `write_sample(channel, address, value)` (R191). -/
def execWriteSample (c address : Nat) (value : Int) (s : State) : Host.Outcome State Fault Refusal :=
  sendWord c address value s.params.facadeLoadEnable s

/-- `write_samples(channel, values[])` begun (R192), from address 0 up, after the steps of a batch in progress. -/
def beginBatch (c : Nat) (values : List Int) (s : State) : Host.Outcome State Fault Refusal :=
  if !values.isEmpty && decide (s.channels.length ≤ c) then .refused .noSuchChannel
  else .next { s with batch := s.batch ++ batchSteps c s.params.facadeLoadEnable 0 values }

/-- `write_samples(channel, values[])` (R192). -/
def execWriteSamples (c : Nat) (values : List Int) (s : State) : Host.Outcome State Fault Refusal :=
  match beginBatch c values s with
  | .next s' => runBatch s'.batch s'
  | .fault f => .fault f
  | .refused r => .refused r

/-- `set_enable(channel, enabled)` (R193): it overwrites a slot (70_reset_and_hazards.md R248). -/
def execSetEnable (c : Nat) (enabled : Bool) (s : State) : Host.Outcome State Fault Refusal :=
  sendWord c s.params.setEnableAddr s.params.setEnableValue enabled s

/-- `initialize_dac_bank()` (R194). -/
def execInitDacBank (s : State) : Host.Outcome State Fault Refusal := enterBringUp s (runOperation s)

/-- `get_dac_timing_status(dac_index)` (R195). -/
def execGetDacTimingStatus (i : Nat) (s : State) : Host.Outcome State Fault Refusal :=
  enterTimingStatus i s (runOperation s)

end Sys2Proof.Machine
end

