-- ==== Sys2Proof/Machine/LinkCodec.lean ====
section
/-!
DEFINITION. Machine/LinkCodec: the meanings of `ENCODE` and `DECODE` (40_link_codec.md). Both are pure: they read and
write no state of the machine, and what they return is handed to the caller (log 11).
-/

namespace Sys2Proof.Machine

/-- `ENCODE(a, v, e)` (R121, R122). -/
def execEncode (a : Nat) (v : Int) (e : Bool) (s : State) : Host.Outcome State Fault Refusal :=
  .next { s with returned := .commandWord (codecEncode a v e) }

/-- `DECODE(link_address, payload)` (R123), on containers of any width (30_encoding.md R97). -/
def execDecode (linkAddress payload : Nat) (s : State) : Host.Outcome State Fault Refusal :=
  let (a, v, e) := codecDecode (containers linkAddress payload)
  .next { s with returned := .decoded a v e }

end Sys2Proof.Machine
end

