-- ==== Sys2Proof/Machine/SampleStore.lean ====
section
/-!
DEFINITION. Machine/SampleStore: the meanings of `WR` and `TICK` (41_sample_store_playback.md).
-/

namespace Sys2Proof.Machine

/-- `WR(c, cw)` (R131, R132): every presented word is accepted. -/
def execWr (c linkAddress payload : Nat) (s : State) : Host.Outcome State Fault Refusal :=
  onChannel c (Channel.applyWord (containers linkAddress payload)) s

/-- `TICK(c)` (R135). -/
def execTick (c : Nat) (s : State) : Host.Outcome State Fault Refusal :=
  onChannel c (Channel.tick c) s

end Sys2Proof.Machine
end

