-- ==== Sys2Proof/Machine/Dispatch.lean ====
section
/-!
DEFINITION. Machine/Dispatch: one arm per operation of spec/opcode_table.json, each one call of its meaning.
-/

namespace Sys2Proof.Machine

def exec (i : Instr) (s : State) : Host.Outcome State Fault Refusal :=
  match i with
  | .wr c linkAddress payload => Sys2Proof.Machine.execWr c linkAddress payload s
  | .encode a v e => Sys2Proof.Machine.execEncode a v e s
  | .decode linkAddress payload => Sys2Proof.Machine.execDecode linkAddress payload s
  | .writeRegister k r d => Sys2Proof.Machine.execWriteRegister k r d s
  | .rdP1 k r => Sys2Proof.Machine.execRdP1 k r s
  | .rdP2 k r => Sys2Proof.Machine.execRdP2 k r s
  | .readRegister k r => Sys2Proof.Machine.execReadRegister k r s
  | .timingStatus k => Sys2Proof.Machine.execTimingStatus k s
  | .initIdRead k => Sys2Proof.Machine.execInitIdRead k s
  | .initCalWriteA k => Sys2Proof.Machine.execInitCalWriteA k s
  | .initCalWriteB k => Sys2Proof.Machine.execInitCalWriteB k s
  | .bringUp => Sys2Proof.Machine.execBringUp s
  | .tick c => Sys2Proof.Machine.execTick c s
  | .dacReset => Sys2Proof.Machine.execDacReset s
  | .busConfig cs len ends mode => Sys2Proof.Machine.execBusConfig cs len ends mode s
  | .busXfer outBits => Sys2Proof.Machine.execBusXfer outBits s
  | .writeSample c address value => Sys2Proof.Machine.execWriteSample c address value s
  | .writeSamples c values => Sys2Proof.Machine.execWriteSamples c values s
  | .setEnable c enabled => Sys2Proof.Machine.execSetEnable c enabled s
  | .initDacBank => Sys2Proof.Machine.execInitDacBank s
  | .getDacTimingStatus k => Sys2Proof.Machine.execGetDacTimingStatus k s

end Sys2Proof.Machine
end

