-- ==== Sys2Proof/Machine/Turns.lean ====
section
/-!
DEFINITION. Machine/Turns: operations taken one step at a time, so that the steps of other agents fall between (00_scope.md
R10, R16; 20_memory.md R77, R81): an operation begun, the turns of the bus driver, of a batch and of the output clocks,
and the mark a refusal leaves (60_exceptions.md R214).
-/

namespace Sys2Proof.Machine

/-- An operation begun: the same entry as its meaning's, and then its steps are its agent's to take. What is one step, or
no step of an agent, is done at once. -/
def start (i : Instr) (s : State) : Host.Outcome State Fault Refusal :=
  match i with
  | .writeRegister k r d => enterWriteRegister k r d s (beginOperation s)
  | .rdP1 k r => enterRdP1 k r s (beginOperation s)
  | .rdP2 k r => enterRdP2 k r s (beginOperation s)
  | .readRegister k r => enterReadRegister k r s (beginOperation s)
  | .timingStatus k => enterTimingStatus k s (beginOperation s)
  | .initIdRead k => enterInitIdRead k s (beginOperation s)
  | .initCalWriteA k => enterInitCalWriteA k s (beginOperation s)
  | .initCalWriteB k => enterInitCalWriteB k s (beginOperation s)
  | .bringUp => enterBringUp s (beginOperation s)
  | .dacReset => enterDacReset s (beginOperation s)
  | .busConfig cs len ends mode => enterBusConfig cs len ends mode s (beginOperation s)
  | .busXfer outBits => enterBusXfer outBits s (beginOperation s)
  | .initDacBank => enterBringUp s (beginOperation s)
  | .getDacTimingStatus k => enterTimingStatus k s (beginOperation s)
  | .writeSamples c values => beginBatch c values s
  | .wr _ _ _ | .encode _ _ _ | .decode _ _ | .tick _ | .writeSample _ _ _ | .setEnable _ _ => exec i s

/-- An operation of the bus driver is in progress. -/
def Bus.busy (b : Bus) : Bool := !b.halted && !b.todo.isEmpty

/-- A tick of a free channel (41_sample_store_playback.md R141, R142; log 2). -/
def clockTurn (s : State) : Host.Outcome State Fault Refusal :=
  exec (.tick (Config.idleChannel s.unasked % s.channels.length)) { s with unasked := s.unasked + 1 }

/-- The bus driver's turn: the next step of its operation in progress; with none, the turn is a clock's. -/
def driverTurn (s : State) : Host.Outcome State Fault Refusal :=
  match s.bus.todo with
  | []      => clockTurn s
  | m :: ms => if s.bus.halted then clockTurn s else driverStep m ms s

/-- The batch's turn: the next step of the `write_samples` in progress; with none, or one that must wait, the turn is a
clock's. -/
def batchTurn (s : State) : Host.Outcome State Fault Refusal :=
  match s.batch with
  | []      => clockTurn s
  | m :: ms => if m.waits s then clockTurn s else m.perform { s with batch := ms }

/-- The turn nobody asked for: any agent that has a step may take it (00_scope.md R16). -/
def freeTurn (s : State) : Host.Outcome State Fault Refusal :=
  match Config.freeTurn s.unasked with
  | .clock  => clockTurn s
  | .driver => driverTurn { s with unasked := s.unasked + 1 }
  | .batch  => batchTurn { s with unasked := s.unasked + 1 }

/-- A refusal of 60_exceptions.md R214 changes no state, and is kept as a mark on the run; any other ends it. -/
def keepMark (s : State) (o : Host.Outcome State Fault Refusal) : Host.Outcome State Fault Refusal :=
  match o with
  | .refused .badDacIndex   => .next { s with marks := s.marks ++ [.badDacIndex] }
  | .refused .driverHalted  => .next { s with marks := s.marks ++ [.driverHalted] }
  | .refused r              => .refused r
  | .next t                 => .next t
  | .fault f                => .fault f

end Sys2Proof.Machine
end

