-- ==== Sys2Proof/Machine/Fetch.lean ====
section
/-!
DEFINITION. Machine/Fetch: what the head of the agenda asks for. The block fetches nothing (20_memory.md R84); the outside
presents words, ticks and calls, and the agents take turns, in the order of the agenda (00_scope.md R16; log 1).
-/

namespace Sys2Proof.Machine

/-- What the machine does next. -/
inductive Move where
  /-- An operation, its steps with nothing between them. -/
  | run (i : Instr)
  /-- An operation begun. -/
  | invoke (i : Instr)
  /-- The bus driver's turn. -/
  | driver
  /-- The batch's turn. -/
  | batch
  deriving DecidableEq, Repr

/-- The operation a wire word stands for, with the machine's reason where it stands for none. -/
def readWire (q : Request) : Except Refusal Instr :=
  match decode q with
  | .ok i    => .ok i
  | .error e => .error (.undecodable e)

/-- An operation of the spec, or the refusal of one that is not well formed (log 15). -/
def checked (i : Instr) : Except Refusal Instr := if i.wellFormed then .ok i else .error .illFormedRequest

/-- What an entry of the agenda asks for. -/
def readStimulus : Stimulus → Except Refusal Move
  | .wire q  => ((readWire q).bind checked).map .run
  | .call i  => (checked i).map .run
  | .start i => (checked i).map .invoke
  | .driver  => .ok .driver
  | .batch   => .ok .batch

/-- A bus-driver operation waits while another is in progress (42_dac_bus.md R165; log 26). -/
def Move.waits (m : Move) (s : State) : Bool :=
  match m with
  | .run i | .invoke i => onBusDriver i && s.bus.busy
  | .driver | .batch => false

/-- The machine makes a move. -/
def Move.make (m : Move) (s : State) : Host.Outcome State Fault Refusal :=
  match m with
  | .run i    => keepMark s (exec i s)
  | .invoke i => keepMark s (start i s)
  | .driver   => driverTurn s
  | .batch    => batchTurn s

end Sys2Proof.Machine
end

