-- ==== Sys2Proof/Machine/Step.lean ====
section
/-!
DEFINITION. Machine/Step: one step of the machine, and how a table word is presented to it (00_scope.md R10, R16).
-/

namespace Sys2Proof.Machine

/-- One step: what the head of the agenda asks for, or, while its request waits for the bus driver, the driver's next
step; with an empty agenda, the turn of any agent. -/
def step (s : State) : Host.Outcome State Fault Refusal :=
  match s.agenda with
  | [] => freeTurn s
  | q :: rest =>
    match readStimulus q with
    | .ok m    => if m.waits s then driverTurn s else m.make { s with agenda := rest }
    | .error r => .refused r

/-- The state with a table word presented to the machine, to be taken by the very next step (log 1, log 16). -/
def State.withFetchWord (s : State) (nbits w : Nat) : State :=
  { s with agenda := .wire (tableRequest nbits w) :: s.agenda }

end Sys2Proof.Machine
end

