-- ==== Sys2Proof/Machine/SimChip.lean ====
section
/-!
DEFINITION. Machine/SimChip: the reference simulated chip of 20_memory.md R71, the spec's test fixture. It is no part of
the machine and makes no claim about the real chips: the machine's reads are answered by the environment (R70; log 5),
and a statement that wants this chip says that the answers are its answers.
-/

namespace Sys2Proof.Machine

/-- One reference chip: the identity value it is configured with, by default `0x000A`, and its 32 registers (R71). -/
structure SimChip where
  identity : RegData := literals.idValue
  regs     : Vector RegData 32
  deriving DecidableEq, Repr

/-- A write frame stores `d` in register `r` (R71). -/
def SimChip.write (r : RegAddr) (d : RegData) (c : SimChip) : SimChip :=
  { c with regs := c.regs.set r.toFin d }

/-- A read of `r` answers the stored value; the identity register answers the identity, whatever was written (R71). -/
def SimChip.read (c : SimChip) (r : RegAddr) : RegData :=
  if r = literals.idReg then c.identity else c.regs[r.toFin]

/-- The eight chips on the bus, by DAC index. -/
abbrev SimBank := Vector SimChip 8

/-- What the chips make of one event of the trace: a 24-bit write frame is delivered to the chip its mask selects
(R71); nothing else is a write. -/
def SimBank.hear (b : SimBank) : Event → SimBank
  | .xfer m .out .b24 (.wf w) _ _ =>
    Vector.ofFn fun i =>
      if csMask i = m then (b[i]).write (w.extractLsb' 16 5) (w.extractLsb' 0 16) else b[i]
  | .xfer _ .out .b24 (.rc _) _ _ | .xfer _ .out .b16 _ _ _ | .xfer _ .out .b8 _ _ _ | .xfer _ .hdIn _ _ _ _
  | .cfg _ | .resetLine _ | .enableLine _ _ | .delay _ _ | .fault _ => b

/-- The chips after a stretch of the trace. -/
def SimBank.after (b : SimBank) (events : List Event) : SimBank := events.foldl SimBank.hear b

end Sys2Proof.Machine
end

