-- ==== Sys2Proof/Safety.lean ====
section
/-!
DEFINITION. Safety: the terms claims are stated in. The invariant of the machine, what a safe run is, the events and
the resulting states the spec lists for the operations (written out from its rules, not from the operations'
definitions), and runs of ticks.
-/

namespace Sys2Proof.Machine

/-! ### The invariant and safe runs -/

/-- What holds of the driver in every reachable state, in the middle of an operation too: legal masks (10_state.md R41,
R42); an open read holds its own chip-select (R43); no enable line is active before the one that precedes it
(43_dac_bringup.md R183); after success all three are (R45, R181); a failure is recorded with a value that failed the
check and with its event, and leaves the bus idle (R46, 60_exceptions.md R204). -/
structure Bus.Always (b : Bus) : Prop where
  cfgLegal   : csLegal b.cfg.cs = true
  lineLegal  : ∀ m, b.csLine = .asserted m → csLegal m = true
  openHolds  : ∀ i r, b.phase = .readOpen i r → b.csLine = .asserted (csMask i)
  linesOrder : (b.mmcxSel = true → b.oscEn = true) ∧ (b.refclkSel = true → b.mmcxSel = true)
  linesAfter : b.initStatus = .initialized → b.refclkSel = true
  failure    : ∀ i v, b.initStatus = .failed i v →
    b.phase = .idle ∧ b.csLine = .released ∧ v ≠ 0x000A ∧ Event.fault (.bringUpIdentityMismatch i v) ∈ b.trace

/-- What holds besides while no operation is in progress: the reset line is de-asserted (10_state.md R44), and the
enable lines agree, inactive as long as bring-up has not been run (R45). -/
structure Bus.Settled (b : Bus) : Prop extends Bus.Always b where
  resetLow    : b.dacReset = false
  linesAgree  : b.mmcxSel = b.oscEn ∧ b.refclkSel = b.oscEn
  linesBefore : b.initStatus = .notInitialized → b.oscEn = false

/-- The driver is sound now, and through the steps `ms` it has still to take: after each of them, and settled after the
last and after the exception. -/
def Bus.Sound : List BusStep → Bus → Prop
  | [], b => b.Settled
  | m :: ms, b => b.Always ∧ ∀ o o' b', m.perform o b = some (o', b') →
      if b'.halted then b'.Settled else Bus.Sound ms b'

/-- The invariant of the driver. -/
structure Bus.Inv (b : Bus) : Prop where
  sound   : Bus.Sound b.todo b
  stopped : b.halted = true → b.todo = []

/-- The invariant of the machine: at least one channel, every sample buffer in canonical form, a batch in progress only
for channels that exist, and the driver's invariant. -/
structure State.Inv (s : State) : Prop where
  someChannel : 0 < s.channels.length
  buffers     : ∀ ch ∈ s.channels, ch.sb.wf = true
  batch       : ∀ c w, BatchStep.word c w ∈ s.batch → c < s.channels.length
  driver      : s.bus.Inv

/-- A run of `k` steps that neither faults nor is refused, leaves no mark of a refusal and does not end in the fault
state `FAILED` (60_exceptions.md R204, R212, R214). -/
def SafeRun (k : Nat) (s : State) : Prop :=
  ∃ t, Host.Core.run core k s = .next t ∧ t.bus.halted = false ∧ t.marks = s.marks

/-! ### Infinite runs and fairness (20_memory.md R76) -/

/-- An infinite run: `σ n` is the state before step `n`, and `env n` is what the outside adds to the agenda before
it. -/
def InfiniteRun (env : Nat → List Stimulus) (σ : Nat → State) : Prop :=
  ∀ n, step { σ n with agenda := (σ n).agenda ++ env n } = .next (σ (n + 1))

/-- Step `n` of a run is a tick of channel `c`. -/
def TicksAt (σ : Nat → State) (n c : Nat) : Prop :=
  ∃ ch, (σ n).channels[c]? = some ch ∧ (σ (n + 1)).channels[c]? = some (ch.tick c)

/-- THE FAIRNESS PREMISE: every output clock ticks infinitely often. -/
def Fair (σ : Nat → State) : Prop :=
  ∀ c < (σ 0).channels.length, ∀ n, ∃ m, n ≤ m ∧ TicksAt σ m c

/-- `n` ticks of channel `c`, one after another (20_memory.md R76). -/
def ticks (c : Nat) : Nat → State → Host.Outcome State Fault Refusal
  | 0, s => .next s
  | n + 1, s =>
    match exec (.tick c) s with
    | .next t => ticks c n t
    | .fault f => .fault f
    | .refused r => .refused r

/-! ### Which operations belong to which path -/

/-- The DAC index an operation takes, where it takes one (42_dac_bus.md R151). -/
def dacOperand : Instr → Option Nat
  | .writeRegister i _ _ | .rdP1 i _ | .rdP2 i _ | .readRegister i _ | .timingStatus i | .initIdRead i
  | .initCalWriteA i | .initCalWriteB i | .getDacTimingStatus i => some i
  | .bringUp | .dacReset | .busConfig _ _ _ _ | .busXfer _ | .initDacBank | .wr _ _ _ | .encode _ _ _ | .decode _ _
  | .tick _ | .writeSample _ _ _ | .writeSamples _ _ | .setEnable _ _ => none

/-! ### What the environment answers (20_memory.md R70) -/

/-- The `n`-th answer, counted from 0, that the reads to come will get. -/
def Bus.answer (b : Bus) (n : Nat) : BitVec 24 :=
  match b.answers[n]? with
  | some a => a
  | none   => Config.freeAnswer (b.drawn + (n - b.answers.length))

/-- The 16 bits a register read captures from the `n`-th answer. -/
def Bus.reads (b : Bus) (n : Nat) : RegData := (b.answer n).setWidth 16

/-- The driver after `n` answers have been taken. -/
def Bus.afterDraws (b : Bus) (n : Nat) : Bus :=
  { b with answers := b.answers.drop n, drawn := b.drawn + (n - b.answers.length) }

/-! ### Events and states the spec lists -/

/-- The driver may start an operation: not halted, none in progress, no open read (R151, R165). -/
structure Bus.MayStart (b : Bus) : Prop where
  running : b.halted = false
  free    : b.todo = []
  idle    : b.phase = .idle

/-- The driver may start an operation on a mask: besides, chip-select is released or already on that mask (R153). -/
structure Bus.Ready (b : Bus) (m : CsMask) : Prop extends Bus.MayStart b where
  line    : b.csLine = .released ∨ b.csLine = .asserted m

/-- The two events of `WRITE_REGISTER` under mask `m` (42_dac_bus.md R158). -/
def writeEvents (m : CsMask) (frame : BitVec 24) : List Event :=
  [.cfg ⟨m, .b24, true, .out⟩, .xfer m .out .b24 (.wf frame) none true]

/-- The four events of `READ_REGISTER` under mask `m` (42_dac_bus.md R160). -/
def readEvents (m : CsMask) (command : BitVec 8) (answer : RegData) : List Event :=
  [.cfg ⟨m, .b8, false, .out⟩, .xfer m .out .b8 (.rc command) none false,
   .cfg ⟨m, .b16, true, .hdIn⟩, .xfer m .hdIn .b16 (.rc command) (some (.c16 answer)) true]

/-- The four events of `DAC_RESET` (42_dac_bus.md R156). -/
def resetEvents : List Event :=
  [.resetLine true, .delay .resetHold 100, .resetLine false, .delay .resetPostHold 100]

/-- The nine events of a chip that passes bring-up, under mask `m` (43_dac_bringup.md R184). -/
def passEvents (tSettle : Nat) (m : CsMask) : List Event :=
  readEvents m 0x9F 0x000A ++ [.delay .settle tSettle] ++ writeEvents m 0x050080 ++ writeEvents m 0x080080

/-- The masks of chips 0 to 7 (30_encoding.md R108). -/
def maskList : List CsMask := [0b1111, 0b1110, 0b1101, 0b1100, 0b1011, 0b1010, 0b1001, 0b1000]

/-- The event groups of the first `k` chips, all passing (43_dac_bringup.md R185). -/
def chipGroups (tSettle k : Nat) : List Event := (maskList.take k).flatMap (passEvents tSettle)

/-- The three events of the board-level enable sequence (43_dac_bringup.md R183). -/
def lineEvents : List Event :=
  [.enableLine .oscEn true, .enableLine .mmcxSel true, .enableLine .refclkSel true]

/-- The state after `WRITE_REGISTER` of frame `frame` under mask `m` (42_dac_bus.md R158). -/
def State.wrote (s : State) (m : CsMask) (frame : BitVec 24) : State :=
  { s with bus := { s.bus with
      cfg := ⟨m, .b24, true, .out⟩, csLine := .released, trace := s.bus.trace ++ writeEvents m frame } }

/-- The driver after `READ_REGISTER` with command byte `command` under mask `m` (42_dac_bus.md R160). -/
def Bus.didRead (b : Bus) (m : CsMask) (command : BitVec 8) : Bus :=
  { b.afterDraws 1 with
      cfg := ⟨m, .b16, true, .hdIn⟩, csLine := .released, phase := .idle,
      trace := b.trace ++ readEvents m command (b.reads 0) }

/-- The state after a register read that returned its 16 bits to the caller (42_dac_bus.md R160). -/
def State.didRead (s : State) (m : CsMask) (command : BitVec 8) : State :=
  { s with bus := s.bus.didRead m command, returned := .data16 (s.bus.reads 0) }

/-- A write transaction in the document's counts (42_dac_bus.md R167). -/
def Event.isWrite : Event → Bool
  | .xfer _ .out .b24 _ _ _ => true
  | .xfer _ _ _ _ _ _ | .cfg _ | .resetLine _ | .enableLine _ _ | .delay _ _ | .fault _ => false

/-- The data phase of a read transaction (42_dac_bus.md R167). -/
def Event.isReadPhase2 : Event → Bool
  | .xfer _ .hdIn _ _ _ _ => true
  | .xfer _ .out _ _ _ _ | .cfg _ | .resetLine _ | .enableLine _ _ | .delay _ _ | .fault _ => false

/-- An assertion of a board-level enable line. -/
def Event.isEnableLine : Event → Bool
  | .enableLine _ _ => true
  | .xfer _ _ _ _ _ _ | .cfg _ | .resetLine _ | .delay _ _ | .fault _ => false

/-- A command word changed channel `ch` (number `c`) into `ch'`: slot `a` holds `v`, every other slot what it held,
the flag is `e`, and the read pointer and the output are what they were (41_sample_store_playback.md R131). -/
structure Channel.Stored (c : Nat) (ch ch' : Channel) (a : SlotAddr) (v : Sample) (e : Bool) : Prop where
  slot    : ch'.slot c a = v
  others  : ∀ a', a' ≠ a → ch'.slot c a' = ch.slot c a'
  flag    : ch'.en = e
  pointer : ch'.rp = ch.rp
  output  : ch'.out = ch.out
  point   : ch'.tpDraws = ch.tpDraws

end Sys2Proof.Machine
end

