-- ==== Sys2Proof/Certificates/Slice0/Obligations.lean ====
section
/-!
DEFINITION. Certificates/Slice0/Obligations: the statements for the provers, each a named proposition about the
machine. A docstring names the rule of spec/ it formalises; where the spec marks that rule as its own decision or
inference, or where the model chose, the docstring says so.
-/

open Sys2Proof Sys2Proof.Machine

/-! ### Wire formats (30_encoding.md, 40_link_codec.md) -/

/-- R108: the eight entries of `CS_TABLE`, verbatim; with them `CS_TABLE[i] = 15 - i` (the replacement property of
90_conflicts.md C1). -/
def Obligations.ChipSelectTableIsVerbatim : Prop :=
  List.ofFn csMask = [0b1111, 0b1110, 0b1101, 0b1100, 0b1011, 0b1010, 0b1001, 0b1000] ∧
  ∀ i : DacIndex, (csMask i).toNat = 15 - i.val

/-- The word `ENCODE` returns, field by field, for an address of any size and a value of any size and sign (R121); no
state is touched but the model's own record of the value handed to the caller (log 11). -/
def Obligations.EncodePacksTheWord : Prop :=
  ∀ (a : Nat) (v : Int) (e : Bool) (s : State), ∃ w : CommandWord,
    exec (.encode a v e) s = .next { s with returned := .commandWord w } ∧
    w.linkAddress.toNat = a % 1024 % 256 ∧
    (w.payload.toNat : Int) = (a % 1024 / 256 : Nat) * 2 ^ 15 + (if e then 2 ^ 14 else 0) + v % 2 ^ 14

/-- The address, value and enable `DECODE` returns, from containers of any width (R123, R97); no state is touched but
the model's own record of the value handed to the caller (log 11). -/
def Obligations.DecodeUnpacksTheWord : Prop :=
  ∀ (la p : Nat) (s : State), ∃ (a : SlotAddr) (v : Sample) (e : Bool),
    exec (.decode la p) s = .next { s with returned := .decoded a v e } ∧
    a.toNat = p / 2 ^ 15 % 4 * 256 + la % 256 ∧ v.toNat = p % 2 ^ 14 ∧ e = p.testBit 14

/-- The two functions of the codec undo each other: decoding the word `ENCODE` returned gives the truncated address, the
truncated value and the enable; encoding what `DECODE` returned gives back the word, so the address is reconstructed
losslessly (R124 and R125, which the spec derives from R121 and R123). -/
def Obligations.CodecFunctionsAreInverse : Prop :=
  (∀ (a : Nat) (v : Int) (e : Bool) (w : CommandWord) (s t : State),
    exec (.encode a v e) s = .next t → t.returned = .commandWord w →
    exec (.decode w.linkAddress.toNat w.payload.toNat) t =
      .next { t with returned := .decoded (BitVec.ofNat 10 a) (BitVec.ofInt 14 v) e }) ∧
  (∀ (w : CommandWord) (a : SlotAddr) (v : Sample) (e : Bool) (s t : State),
    exec (.decode w.linkAddress.toNat w.payload.toNat) s = .next t → t.returned = .decoded a v e →
    exec (.encode a.toNat v.toNat e) t = .next { t with returned := .commandWord w })

/-- Changing only the enable changes only `payload[14]`; changing only the value changes only `payload[13:0]`; changing
only the address changes only `link_address` and `payload[16:15]` (R126, which the spec derives). -/
def Obligations.WordFieldsAreIndependent : Prop :=
  ∀ (a a' : Nat) (v v' : Int) (e : Bool),
    ((codecEncode a v e).linkAddress = (codecEncode a v (!e)).linkAddress ∧
      (codecEncode a v e).payload ^^^ (codecEncode a v (!e)).payload = 0x04000) ∧
    ((codecEncode a v e).linkAddress = (codecEncode a v' e).linkAddress ∧
      (codecEncode a v e).payload.extractLsb' 14 3 = (codecEncode a v' e).payload.extractLsb' 14 3) ∧
    (codecEncode a v e).payload.extractLsb' 0 15 = (codecEncode a' v e).payload.extractLsb' 0 15

/-- The signed reading of a truncated value is the value exactly in the 14-bit signed range (R261, which the spec
derives from R14 and R122). -/
def Obligations.SignedReadingIsExactInRange : Prop :=
  ∀ v : Int, sext14 (BitVec.ofInt 14 v) = v ↔ -8192 ≤ v ∧ v ≤ 8191

/-- Words written out bit by bit from the tables of R92, R100, R101 and R107, and what they decode to: every encoded row,
with the four fixed frames of the block. -/
def Obligations.WrittenOutWordsDecode : Prop :=
  decode ⟨.wr, 3, 0b0000001100101111111111111⟩ = .ok (.wr 3 0x03 0x05FFF) ∧
  decode ⟨.encode, 0, 0b1010101101100000100100011⟩ = .ok (.encode 427 0x0123 true) ∧
  decode ⟨.decode, 0, 0b0001000011011111111111111⟩ = .ok (.decode 0x10 0x1BFFF) ∧
  decode ⟨.writeRegister, 2, 0b000101000001001000110100⟩ = .ok (.writeRegister 2 0x14 0x1234) ∧
  decode ⟨.rdP1, 5, 0b10000101⟩ = .ok (.rdP1 5 0x05) ∧
  decode ⟨.rdP2, 5, 0b100101001011111011101111⟩ = .ok (.rdP2 5 0x14) ∧
  decode ⟨.readRegister, 6, 0b10001000⟩ = .ok (.readRegister 6 0x08) ∧
  decode ⟨.timingStatus, 7, 0x94⟩ = .ok (.timingStatus 7) ∧
  decode ⟨.initIdRead, 1, 0x9F⟩ = .ok (.initIdRead 1) ∧
  decode ⟨.initCalWriteA, 4, 0x050080⟩ = .ok (.initCalWriteA 4) ∧
  decode ⟨.initCalWriteB, 4, 0x080080⟩ = .ok (.initCalWriteB 4)

/-- For every operation that has a wire encoding, with every operand at every value its field admits, decoding the
encoded word gives the operation back (the reserved bits, log 22, among them). -/
def Obligations.EncodedWordsDecodeBack : Prop :=
  ∀ (i : Instr) (q : Request), i.inField = true → encode i = some q → decode q = .ok i

/-- Every word that decodes encodes back to itself, but for the 16 response bits of an `RD_P2` word, which are the chip's
(log 24), and the port of the two codec functions, which have none. -/
def Obligations.DecodedWordsEncodeBack : Prop :=
  ∀ (q : Request) (i : Instr), decode q = .ok i → ∃ q', encode i = some q' ∧ q'.op = q.op ∧
    (if q.op = .rdP2 then q'.word / 2 ^ 16 = q.word / 2 ^ 16 else q'.word = q.word) ∧
    (q.op ≠ .encode → q.op ≠ .decode → q'.port = q.port)

/-- A frame whose reserved bits are not `FRAME_RESERVED` (log 22: the value is the spec's decision D14) is rejected by
name, whatever its other bits: on every row of a write frame, of a read command and of phase 2, and on the rows of one
fixed frame as not that frame. -/
def Obligations.ReservedBitsAreRejected : Prop :=
  ∀ (port w : Nat),
    (w < 2 ^ 24 → w / 2 ^ 21 % 4 ≠ 0 →
      (w.testBit 23 = false → decode ⟨.writeRegister, port, w⟩ = .error .reservedBits) ∧
      (w.testBit 23 = true → decode ⟨.rdP2, port, w⟩ = .error .reservedBits) ∧
      decode ⟨.initCalWriteA, port, w⟩ = .error .notTheFixedFrame ∧
      decode ⟨.initCalWriteB, port, w⟩ = .error .notTheFixedFrame) ∧
    (w < 2 ^ 8 → w / 2 ^ 5 % 4 ≠ 0 →
      (w.testBit 7 = true → decode ⟨.rdP1, port, w⟩ = .error .reservedBits ∧
        decode ⟨.readRegister, port, w⟩ = .error .reservedBits) ∧
      decode ⟨.timingStatus, port, w⟩ = .error .notTheFixedFrame ∧
      decode ⟨.initIdRead, port, w⟩ = .error .notTheFixedFrame)

/-! ### The sample path (41_sample_store_playback.md) -/

/-- R131: a command word stores its value in the slot it addresses and its enable bit in the flag, in one step, and
changes nothing else: no other slot, not the pointer or the output, no other channel, no bus-driver state. -/
def Obligations.WrStoresSlotAndFlag : Prop :=
  ∀ (s : State) (c la p : Nat) (ch : Channel), s.channels[c]? = some ch →
    ∃ ch', exec (.wr c la p) s = .next { s with channels := s.channels.set c ch' } ∧
      Channel.Stored c ch ch' (BitVec.ofNat 10 (p / 2 ^ 15 % 4 * 256 + la % 256)) (BitVec.ofNat 14 p) (p.testBit 14)

/-- What one tick does to its channel, running or idle, the pointer wrapping at 1024 (R135); that the test point's draw
advances a counter is the model's choice (log 7); nothing else changes. -/
def Obligations.TickPlaysOrIdles : Prop :=
  ∀ (s : State) (c : Nat) (ch : Channel), s.channels[c]? = some ch →
    ∃ ch', exec (.tick c) s = .next { s with channels := s.channels.set c ch' } ∧
      ch'.sb = ch.sb ∧ ch'.en = ch.en ∧ ch'.tpDraws = ch.tpDraws + 1 ∧
      (ch.en = false → ch'.out = 0 ∧ ch'.rp.toNat = 0) ∧
      (ch.en = true → ch'.out = ch.slot c ch.rp ∧ ch'.rp.toNat = (ch.rp.toNat + 1) % 1024)

/-- A word with enable 0 stops playback from the next tick on: that tick outputs 0 and zeroes the pointer, whatever the
pointer was (R133 (c) and R140, which the spec derives from R131 and R135). -/
def Obligations.StopWordSilencesNextTick : Prop :=
  ∀ (s : State) (c la p : Nat), c < s.channels.length → p.testBit 14 = false →
    ∃ t u ch, exec (.wr c la p) s = .next t ∧ exec (.tick c) t = .next u ∧
      u.channels[c]? = some ch ∧ ch.out = 0 ∧ ch.rp = 0

/-- A disable resets the pointer exactly when a tick observes it (R137 and R138, the spec's decision D8): disable, tick,
enable, tick makes the second tick emit slot 0 as it then stands and leave the pointer at 1, with no extra idle tick;
without the tick between, playback goes on from where it was, with no idle sample. -/
def Obligations.OnlyAnObservedDisableResetsThePointer : Prop :=
  (∀ (s : State) (c la p la' p' : Nat), c < s.channels.length → p.testBit 14 = false → p'.testBit 14 = true →
    ∃ t₁ t₂ t₃ t₄ ch₃ ch₄, exec (.wr c la p) s = .next t₁ ∧ exec (.tick c) t₁ = .next t₂ ∧
      exec (.wr c la' p') t₂ = .next t₃ ∧ exec (.tick c) t₃ = .next t₄ ∧
      t₃.channels[c]? = some ch₃ ∧ t₄.channels[c]? = some ch₄ ∧ ch₄.out = ch₃.slot c 0 ∧ ch₄.rp = 1) ∧
  (∀ (s : State) (c la p la' p' : Nat) (ch : Channel), s.channels[c]? = some ch → p'.testBit 14 = true →
    ∃ t₁ t₂ t₃ ch₂ ch₃, exec (.wr c la p) s = .next t₁ ∧ exec (.wr c la' p') t₁ = .next t₂ ∧
      exec (.tick c) t₂ = .next t₃ ∧ t₂.channels[c]? = some ch₂ ∧ t₃.channels[c]? = some ch₃ ∧
      ch₃.out = ch₂.slot c ch.rp ∧ ch₃.rp = ch.rp + 1)

/-- Periodicity: running from pointer 0 with no write, tick number `k` outputs slot `k mod 1024` (R139, which the spec
derives from R135 by induction). -/
def Obligations.PlaybackIsPeriodic : Prop :=
  ∀ (s : State) (c : Nat) (ch : Channel), s.channels[c]? = some ch → ch.en = true → ch.rp = 0 →
    ∀ k : Nat, ∃ t ch', ticks c (k + 1) s = .next t ∧ t.channels[c]? = some ch' ∧
      ch'.out = ch.slot c (BitVec.ofNat 10 (k % 1024))

/-- After `n` running ticks the pointer is `(p + n) mod 1024`, and only this channel's pointer, output and test point
have changed (R262, which the spec derives). -/
def Obligations.PointerAfterTicks : Prop :=
  ∀ (s : State) (c n : Nat) (ch : Channel), s.channels[c]? = some ch → ch.en = true →
    ∃ ch', ticks c n s = .next { s with channels := s.channels.set c ch' } ∧
      ch'.rp.toNat = (ch.rp.toNat + n) % 1024 ∧ ch'.sb = ch.sb ∧ ch'.en = true

/-- Of two words to one slot the later is all that remains of both, slot and flag (20_memory.md section 7); so applying
the same word twice leaves the same state as once (R69, which the spec derives). -/
def Obligations.LastWordWins : Prop :=
  (∀ (s t : State) (c la p la' p' : Nat), p / 2 ^ 15 % 4 = p' / 2 ^ 15 % 4 → la % 256 = la' % 256 →
    exec (.wr c la p) s = .next t → exec (.wr c la' p') t = exec (.wr c la' p') s) ∧
  (∀ (s t : State) (c la p : Nat), exec (.wr c la p) s = .next t → exec (.wr c la p) t = .next t)

/-- The race of a word and a tick on one slot: in each order the tick outputs one whole value, the new or the old, and
both orders end with the same slot and pointer (20_memory.md sections 4 and 7, 95_test_vectors.md P6). -/
def Obligations.RaceHasTwoWholeOutcomes : Prop :=
  ∀ (s : State) (c la p : Nat) (ch : Channel), s.channels[c]? = some ch → ch.en = true → p.testBit 14 = true →
    ch.rp.toNat = p / 2 ^ 15 % 4 * 256 + la % 256 →
    ∃ t u t' u' chU chU', exec (.wr c la p) s = .next t ∧ exec (.tick c) t = .next u ∧
      exec (.tick c) s = .next t' ∧ exec (.wr c la p) t' = .next u' ∧
      u.channels[c]? = some chU ∧ u'.channels[c]? = some chU' ∧
      chU.out = BitVec.ofNat 14 p ∧ chU'.out = ch.slot c ch.rp ∧
      chU.sb = chU'.sb ∧ chU.rp = chU'.rp ∧ chU.en = true ∧ chU'.en = true

/-- Words and ticks of different channels commute, and leave the other channel alone (10_state.md section 1). -/
def Obligations.ChannelsAreIndependent : Prop :=
  ∀ (c d la p la' p' : Nat) (i j : Instr) (s t u : State), c ≠ d →
    (i = .wr c la p ∨ i = .tick c) → (j = .wr d la' p' ∨ j = .tick d) →
    exec i s = .next t → exec j t = .next u →
    t.channels[d]? = s.channels[d]? ∧ ∃ t', exec j s = .next t' ∧ exec i t' = .next u

/-- Two sample buffers in canonical form that hold the same slots are the same data (log 6). -/
def Obligations.EqualBuffersAreEqualData : Prop :=
  ∀ m m' : Memory, m.wf = true → m'.wf = true → (∀ a, m.read? a = m'.read? a) → m = m'

/-- Under the fairness premise of R76, that in an infinite run every output clock ticks infinitely often, playback is
live (R141): a channel that stays enabled plays every slot again and again, each as it then stands, and a channel that
stays disabled comes to output 0 from pointer 0 for good. -/
def Obligations.FairRunsPlayEverySlot : Prop :=
  ∀ (env : Nat → List Stimulus) (σ : Nat → State) (c n₀ : Nat), InfiniteRun env σ → Fair σ →
    c < (σ 0).channels.length →
    ((∀ n ch, n₀ ≤ n → (σ n).channels[c]? = some ch → ch.en = true) →
      ∀ (a : SlotAddr) (n : Nat), n₀ ≤ n → ∃ m ch ch', n ≤ m ∧ (σ m).channels[c]? = some ch ∧ ch.rp = a ∧
        (σ (m + 1)).channels[c]? = some ch' ∧ ch'.out = ch.slot c a) ∧
    ((∀ n ch, n₀ ≤ n → (σ n).channels[c]? = some ch → ch.en = false) →
      ∃ m, ∀ n ch, m ≤ n → (σ n).channels[c]? = some ch → ch.out = 0 ∧ ch.rp = 0)

/-! ### The facade (44_control_facade.md) -/

/-- `write_sample` and `set_enable` are one word each: the first with the enable bit `FACADE_LOAD_ENABLE`, the second to
the slot and with the value of the open parameters (R191, R193; the spec's decision D26; log 9). -/
def Obligations.FacadeCallsSendOneWord : Prop :=
  ∀ (s : State) (c a : Nat) (v : Int) (e : Bool) (ch : Channel), s.channels[c]? = some ch →
    (∃ ch', exec (.writeSample c a v) s = .next { s with channels := s.channels.set c ch' } ∧
      Channel.Stored c ch ch' (BitVec.ofNat 10 a) (BitVec.ofInt 14 v) s.params.facadeLoadEnable) ∧
    (∃ ch', exec (.setEnable c e) s = .next { s with channels := s.channels.set c ch' } ∧
      Channel.Stored c ch ch' (BitVec.ofNat 10 s.params.setEnableAddr) (BitVec.ofInt 14 s.params.setEnableValue) e)

/-- `write_samples` of any number of values, run with nothing between its words: every slot holds the last of the values
whose index is its address modulo 1024, a slot that no index reaches holds what it held, one gap event stands between
each write and the next, and nothing else changes (R192; the spec's decision D26). A batch with a gap under an open read
is BatchTurnIsOneStep. -/
def Obligations.BatchFillsSlotsInOrder : Prop :=
  ∀ (s : State) (c : Nat) (vs : List Int) (ch : Channel), s.channels[c]? = some ch → s.batch = [] →
    (s.bus.phase = .idle ∨ vs.length ≤ 1) →
    ∃ ch', exec (.writeSamples c vs) s = .next { s with
        channels := s.channels.set c ch',
        bus := { s.bus with trace := s.bus.trace ++ List.replicate (vs.length - 1) (.delay .writeGap 100) } } ∧
      (∀ (k : Nat) (v : Int), vs[k]? = some v → (∀ j, k < j → j < vs.length → j % 1024 ≠ k % 1024) →
        ch'.slot c (BitVec.ofNat 10 k) = BitVec.ofInt 14 v) ∧
      (∀ a : SlotAddr, (∀ k < vs.length, k % 1024 ≠ a.toNat) → ch'.slot c a = ch.slot c a) ∧
      ch'.en = (if vs = [] then ch.en else s.params.facadeLoadEnable) ∧
      ch'.rp = ch.rp ∧ ch'.out = ch.out ∧ ch'.tpDraws = ch.tpDraws

/-- A batch in progress takes one step at each of its turns, between which any agent may move: a word is a `WR` of its
channel, a gap is its event (R192, 00_scope.md R16). While a read is open a gap waits, so that nothing comes between the
read's transfers in the trace (20_memory.md R80; that the gap waits is log 4): the turn changes neither the batch nor the
driver, and a batch run under an open read stops at its first gap and stays in progress. -/
def Obligations.BatchTurnIsOneStep : Prop :=
  (∀ (s : State) (m : BatchStep) (ms : List BatchStep) (rest : List Stimulus),
    s.agenda = .batch :: rest → s.batch = m :: ms →
    let s' := { s with agenda := rest, batch := ms }
    (∀ c w, m = .word c w → step s = exec (.wr c w.linkAddress.toNat w.payload.toNat) s') ∧
    (m = .gap → s.bus.phase = .idle → step s = .next { s' with
      bus := { s.bus with trace := s.bus.trace ++ [.delay .writeGap 100] } }) ∧
    (m = .gap → s.bus.phase ≠ .idle → 0 < s.channels.length →
      ∃ t, step s = .next t ∧ t.batch = s.batch ∧ t.bus = s.bus)) ∧
  (∀ (s : State) (c : Nat) (v w : Int) (vs : List Int), c < s.channels.length → s.batch = [] →
    s.bus.phase ≠ .idle → ∃ t, exec (.writeSample c 0 v) s = .next t ∧
      exec (.writeSamples c (v :: w :: vs)) s =
        .next { t with batch := .gap :: batchSteps c s.params.facadeLoadEnable 1 (w :: vs) })

/-- The document's batch test: after `write_samples(channel, [100, -50, 0, 8191])` slots 0 to 3 hold `0x0064`, `0x3FCE`,
`0x0000`, `0x1FFF`, which read as signed are the four values, whatever `FACADE_LOAD_ENABLE` is; three gap events are
appended (R196, which the spec derives). -/
def Obligations.DocumentBatchTest : Prop :=
  ∀ (s : State) (c : Nat), c < s.channels.length → s.batch = [] → s.bus.phase = .idle →
    ∃ t ch, exec (.writeSamples c [100, -50, 0, 8191]) s = .next t ∧ t.channels[c]? = some ch ∧
      ch.slot c 0 = 0x0064 ∧ ch.slot c 1 = 0x3FCE ∧ ch.slot c 2 = 0x0000 ∧ ch.slot c 3 = 0x1FFF ∧
      sext14 (ch.slot c 0) = 100 ∧ sext14 (ch.slot c 1) = -50 ∧ sext14 (ch.slot c 2) = 0 ∧
      sext14 (ch.slot c 3) = 8191 ∧
      t.bus.trace = s.bus.trace ++
        [.delay .writeGap 100, .delay .writeGap 100, .delay .writeGap 100]

/-! ### The bus driver (42_dac_bus.md) -/

/-- A turn of the bus driver is one step of its operation in progress (R10, the spec's decision D1): a reconfiguration, a
line change, a delay or a transfer, each with its one event; only the identity check adds the fault event to its
transfer's. The sample path and a batch in progress stay as they are. -/
def Obligations.DriverTurnIsOneStep : Prop :=
  ∀ (s : State) (m : BusStep) (ms : List BusStep) (rest : List Stimulus),
    s.agenda = .driver :: rest → s.bus.todo = m :: ms → s.bus.halted = false →
    let moved (b : Bus) (e : Event) : State :=
      { s with agenda := rest, bus := { b with todo := ms, trace := s.bus.trace ++ [e] } }
    (∀ c, m = .config c → step s = .next (moved { s.bus with cfg := c } (.cfg c))) ∧
    (∀ l, m = .resetLine l → step s = .next (moved { s.bus with dacReset := l } (.resetLine l))) ∧
    (m = .enableLine .oscEn false → step s = .next (moved { s.bus with oscEn := true } (.enableLine .oscEn true))) ∧
    (m = .enableLine .mmcxSel false →
      step s = .next (moved { s.bus with mmcxSel := true } (.enableLine .mmcxSel true))) ∧
    (m = .enableLine .refclkSel true → step s = .next
      (moved { s.bus with refclkSel := true, initStatus := .initialized } (.enableLine .refclkSel true))) ∧
    (∀ k n, m = .delay k n → step s = .next (moved s.bus (.delay k n))) ∧
    (∀ f, m = .xfer f .done → s.bus.cfg.mode = .out →
      s.bus.csLine = .released ∨ s.bus.csLine = .asserted s.bus.cfg.cs → step s = .next (moved
        { s.bus with csLine := if s.bus.cfg.ends then .released else .asserted s.bus.cfg.cs }
        (.xfer s.bus.cfg.cs .out s.bus.cfg.len f none s.bus.cfg.ends))) ∧
    (∀ t, step s = .next t → t.channels = s.channels ∧ t.batch = s.batch ∧
      ∃ e es, t.bus.trace = s.bus.trace ++ e :: es ∧
        (es = [] ∨ ∃ i v, es = [.fault (.bringUpIdentityMismatch i v)] ∧ t.bus.initStatus = .failed i v))

/-- An operation begun and then taken one step at a time, at the turns of its agent, ends where the same operation run
with nothing between its steps ends (R16, R165 and R166 of 42_dac_bus.md; log 3): every operation of the bus driver, and
a batch. -/
def Obligations.StartedOperationEndsAsExec : Prop :=
  ∀ (i : Instr) (s t : State) (rest : List Stimulus) (turn : Stimulus), i.wellFormed = true →
    (onBusDriver i = true ∧ turn = .driver) ∨ ((∃ c vs, i = .writeSamples c vs) ∧ turn = .batch) →
    exec i s = .next t →
    ∃ n, Host.Core.run core (n + 1) { s with agenda := .start i :: (List.replicate n turn ++ rest) } =
      .next { t with agenda := rest }

/-- R158: `WRITE_REGISTER` on a ready driver is one configuration and one transfer of the frame of opcode 0,
`FRAME_RESERVED`, `trunc_5(r)` and `trunc_16(d)`; chip-select is released after it and nothing else changes. -/
def Obligations.WriteRegisterSendsOneFrame : Prop :=
  ∀ (s : State) (k : DacIndex) (r d : Nat), s.bus.Ready (csMask k) →
    exec (.writeRegister k.val r d) s =
      .next (s.wrote (csMask k) (0#1 ++ literals.frameReserved ++ BitVec.ofNat 5 r ++ BitVec.ofNat 16 d))

/-- The two calibration writes of bring-up are the frames `0x050080` and `0x080080` (R107, R181; the data word is the
spec's decision D20; that they stand as operations of their own is log 14). -/
def Obligations.CalibrationWritesSendFixedFrames : Prop :=
  ∀ (s : State) (k : DacIndex), s.bus.Ready (csMask k) →
    exec (.initCalWriteA k.val) s = .next (s.wrote (csMask k) 0x050080) ∧
    exec (.initCalWriteB k.val) s = .next (s.wrote (csMask k) 0x080080)

/-- `READ_REGISTER` on a ready driver is two configurations and two transfers with the same mask and the same command byte
`0x80 | trunc_5(r)` (its reserved bits `00` are the spec's decision D14); it returns the 16 bits captured (to where log 11
says) and leaves chip-select released and the bus idle (R160). -/
def Obligations.ReadRegisterRunsTwoPhases : Prop :=
  ∀ (s : State) (k : DacIndex) (r : Nat), s.bus.Ready (csMask k) →
    ∃ b : BitVec 8, b.toNat = 128 + r % 32 ∧ exec (.readRegister k.val r) s = .next (s.didRead (csMask k) b)

/-- `TIMING_STATUS(i)` is `READ_REGISTER(i, 0x14)`, with command byte `0x94`; the facade's `get_dac_timing_status` is the
same operation (R164, R195; where the value returned goes is log 11). -/
def Obligations.TimingStatusReadsStatusRegister : Prop :=
  ∀ (s : State) (k : DacIndex),
    (∀ i : Nat, exec (.timingStatus i) s = exec (.readRegister i 0x14) s ∧
      exec (.getDacTimingStatus i) s = exec (.timingStatus i) s) ∧
    (s.bus.Ready (csMask k) →
      exec (.timingStatus k.val) s = .next (s.didRead (csMask k) 0x94) ∧
      exec (.getDacTimingStatus k.val) s = .next (s.didRead (csMask k) 0x94))

/-- R161: phase 1 sends the command byte of opcode 1, `FRAME_RESERVED` and `trunc_5(r)` without ending the transfer;
chip-select stays asserted and the read is open. -/
def Obligations.ReadPhase1HoldsChipSelect : Prop :=
  ∀ (s : State) (k : DacIndex) (r : Nat), s.bus.Ready (csMask k) →
    exec (.rdP1 k.val r) s = .next { s with bus := { s.bus with
      cfg := ⟨csMask k, .b8, false, .out⟩, csLine := .asserted (csMask k),
      phase := .readOpen k (BitVec.ofNat 5 r),
      trace := s.bus.trace ++
        [.cfg ⟨csMask k, .b8, false, .out⟩,
         .xfer (csMask k) .out .b8 (.rc (1#1 ++ literals.frameReserved ++ BitVec.ofNat 5 r)) none false] } }

/-- Phase 2 of the open read re-presents the same byte in half-duplex input mode, captures 16 bits, ends the transfer and
returns what it captured (R162; the content of phase 2 is the spec's decision D18). -/
def Obligations.ReadPhase2CapturesAndReleases : Prop :=
  ∀ (s : State) (k : DacIndex) (r : Nat), s.bus.halted = false → s.bus.todo = [] →
    s.bus.phase = .readOpen k (BitVec.ofNat 5 r) → s.bus.csLine = .asserted (csMask k) →
    ∃ b : BitVec 8, b.toNat = 128 + r % 32 ∧
      exec (.rdP2 k.val r) s = .next { s with returned := .data16 (s.bus.reads 0), bus := { s.bus.afterDraws 1 with
        cfg := ⟨csMask k, .b16, true, .hdIn⟩, csLine := .released, phase := .idle,
        trace := s.bus.trace ++
          [.cfg ⟨csMask k, .b16, true, .hdIn⟩,
           .xfer (csMask k) .hdIn .b16 (.rc b) (some (.c16 (s.bus.reads 0))) true] } }

/-- The two phases run one after the other do exactly what `READ_REGISTER` does, and a word or a tick of the sample path
between them changes nothing of that (R160, R163; 95_test_vectors.md P5). -/
def Obligations.PhasesComposeToARead : Prop :=
  ∀ (s : State) (k : DacIndex) (r : Nat), s.bus.Ready (csMask k) →
    ∃ t, exec (.rdP1 k.val r) s = .next t ∧ exec (.rdP2 k.val r) t = exec (.readRegister k.val r) s ∧
      ∀ (c la p : Nat) (i : Instr) (u : State), (i = .wr c la p ∨ i = .tick c) → exec i t = .next u →
        ∃ v v', exec (.rdP2 k.val r) u = .next v ∧ exec (.readRegister k.val r) s = .next v' ∧
          exec i v' = .next v

/-- `DAC_RESET` pulses the reset line with a hold of 100 after each change and touches nothing else (R156; the second
hold is the spec's decision D21). -/
def Obligations.DacResetPulsesTheLine : Prop :=
  ∀ s : State, s.bus.MayStart →
    exec .dacReset s = .next { s with bus := { s.bus with
      dacReset := false, trace := s.bus.trace ++ resetEvents } }

/-- `BUS_CONFIG` sets the four fields and does not touch chip-select (R152, the spec's decision D17). -/
def Obligations.BusConfigSetsTheConfiguration : Prop :=
  ∀ (s : State) (cs : CsMask) (len : XferLen) (ends : Bool) (mode : BusMode), s.bus.MayStart →
    exec (.busConfig cs len ends mode) s = .next { s with bus := { s.bus with
      cfg := ⟨cs, len, ends, mode⟩, trace := s.bus.trace ++ [.cfg ⟨cs, len, ends, mode⟩] } }

/-- `BUS_XFER` under the current configuration: nothing captured in `OUT` mode, `len` bits of the chip's answer in
`HD_IN` mode; chip-select released after it exactly when the configuration ends the transfer (R153, the spec's
decisions D17 and D18; the captured length on a raw transfer is log 20). -/
def Obligations.BusXferMovesOneFrame : Prop :=
  ∀ (s : State) (f : Frame), s.bus.Ready s.bus.cfg.cs →
    let c := s.bus.cfg
    let after (x : Option Captured) (b : Bus) : Bus := { b with
      csLine := if c.ends then .released else .asserted c.cs,
      trace := s.bus.trace ++ [.xfer c.cs c.mode c.len f x c.ends] }
    (c.mode = .out →
      exec (.busXfer f) s = .next { s with returned := .inBits none, bus := after none s.bus }) ∧
    (c.mode = .hdIn → ∃ x : Captured,
      (match c.len with
        | .b8  => x = .c8 ((s.bus.answer 0).setWidth 8)
        | .b16 => x = .c16 ((s.bus.answer 0).setWidth 16)
        | .b24 => x = .c24 (s.bus.answer 0)) ∧
      exec (.busXfer f) s =
        .next { s with returned := .inBits (some x), bus := after (some x) (s.bus.afterDraws 1) })

/-- The results of the driver's operations do not depend on the configuration the previous operation left (R168, which
the spec derives). -/
def Obligations.TransactionsAreIndependent : Prop :=
  ∀ (i : Instr) (s t : State) (c : BusCfg), onBusDriver i = true → i ≠ .dacReset → (∀ f, i ≠ .busXfer f) →
    exec i s = .next t → exec i { s with bus := { s.bus with cfg := c } } = .next t

/-! ### Bring-up (43_dac_bringup.md) and its exception (60_exceptions.md) -/

/-- The identity read of one chip: on `0x000A` it is just the read; on any other value it takes the fatal condition, which
records the chip and the value and appends the fault event (R181, R201, R204; the 16-bit comparison is the spec's
decision D19; that the row stands as an operation of its own is log 14). -/
def Obligations.IdentityReadChecksTheChip : Prop :=
  ∀ (s : State) (k : DacIndex), s.bus.Ready (csMask k) →
    let b := s.bus.didRead (csMask k) 0x9F
    let v := s.bus.reads 0
    exec (.initIdRead k.val) s = .next { s with bus :=
      if v = 0x000A then b
      else { b with initStatus := .failed k v, trace := b.trace ++ [.fault (.bringUpIdentityMismatch k v)] } }

/-- The success law: when all eight chips answer `0x000A`, the events are those of the reset, the nine of each chip in
index order and the three enable lines, with 16 write transactions and 8 read transactions; the facade's
`initialize_dac_bank` is the same operation (R184, which the spec derives from R181 and R167; R194). The events rest on
the spec's decisions D19 (the 16-bit comparison), D20 (the data word) and D21 (the second hold). -/
def Obligations.BringUpSucceedsOnGoodChips : Prop :=
  ∀ s : State, s.bus.Ready 0b1111 → (∀ n < 8, s.bus.reads n = 0x000A) →
    let events := resetEvents ++ chipGroups s.params.tSettle 8 ++ lineEvents
    exec .bringUp s = .next { s with bus := { s.bus.afterDraws 8 with
        cfg := ⟨0b1000, .b24, true, .out⟩, csLine := .released, dacReset := false,
        oscEn := true, mmcxSel := true, refclkSel := true, initStatus := .initialized,
        trace := s.bus.trace ++ events } } ∧
      exec .initDacBank s = exec .bringUp s ∧
      events.countP Event.isWrite = 16 ∧ events.countP Event.isReadPhase2 = 8

/-- The failure law: when chip `k` is the first whose identity is not `0x000A`, the trace gains the reset, the groups of
chips `0 .. k-1`, the read of chip `k` and the fault event, and nothing after; no calibration write goes to chip `k` or
any later chip and no enable line changes (R185, which is the spec's decision D23). -/
def Obligations.BringUpStopsAtFirstBadChip : Prop :=
  ∀ (s : State) (k : DacIndex), s.bus.Ready 0b1111 → (∀ n < k.val, s.bus.reads n = 0x000A) →
    s.bus.reads k.val ≠ 0x000A →
    let v := s.bus.reads k.val
    let events := resetEvents ++ chipGroups s.params.tSettle k.val ++ readEvents (csMask k) 0x9F v ++
      [.fault (.bringUpIdentityMismatch k v)]
    exec .bringUp s = .next { s with bus := { s.bus.afterDraws (k.val + 1) with
        cfg := ⟨csMask k, .b16, true, .hdIn⟩, csLine := .released, dacReset := false,
        initStatus := .failed k v, trace := s.bus.trace ++ events } } ∧
      exec .initDacBank s = exec .bringUp s ∧
      events.countP Event.isWrite = 2 * k.val ∧ events.countP Event.isReadPhase2 = k.val + 1

/-- The reference simulated chip takes a register write: the frame of `WRITE_REGISTER(k, r, d)` leaves `trunc_16(d)` in
register `trunc_5(r)` of chip `k` (unless that is the identity register, which answers its identity), and every other
register of every chip as it was (R71, the spec's test fixture; its decision D30). -/
def Obligations.SimulatedChipTakesTheWrite : Prop :=
  ∀ (s : State) (bank : SimBank) (k : DacIndex) (r d : Nat), s.bus.Ready (csMask k) →
    ∃ t es, exec (.writeRegister k.val r d) s = .next t ∧ t.bus.trace = s.bus.trace ++ es ∧
      (∀ (i : DacIndex) (r' : RegAddr), ((bank.after es)[i]).read r' =
        if i = k ∧ r' = BitVec.ofNat 5 r ∧ r' ≠ 0x1F then BitVec.ofNat 16 d else (bank[i]).read r')

/-- Bring-up on eight reference simulated chips of which the first `k` have identity `0x000A` and chip `k`, if there is
one, has not: the first `k` chips end with `0x0080` in registers `0x05` and `0x08` and all their other registers as they
were, every other chip is untouched, and bring-up is recorded as successful exactly when `k` is 8 (R71, the spec's test
fixture; 95_test_vectors.md P3 and P4; the spec's decisions D19, D20, D23). -/
def Obligations.BringUpProgramsSimulatedChips : Prop :=
  ∀ (s : State) (bank : SimBank) (k : Nat), s.bus.Ready 0b1111 → k ≤ 8 →
    (∀ i : DacIndex, s.bus.reads i.val = (bank[i]).read 0x1F) →
    (∀ i : DacIndex, i.val < k → (bank[i]).identity = 0x000A) →
    (∀ i : DacIndex, i.val = k → (bank[i]).identity ≠ 0x000A) →
    ∃ t es, exec .bringUp s = .next t ∧ t.bus.trace = s.bus.trace ++ es ∧
      (t.bus.initStatus = .initialized ↔ k = 8) ∧
      ∀ (i : DacIndex) (r : RegAddr), ((bank.after es)[i]).read r =
        if i.val < k ∧ (r = 0x05 ∨ r = 0x08) then 0x0080 else (bank[i]).read r

/-- R183: in a run of bring-up with no mismatch the three enable lines are asserted in the order oscillator, MMCX select,
reference-clock select, after everything else and at no other point; with a mismatch none is; and no operation and no step
ever drives a line inactive. -/
def Obligations.EnableLinesComeLastAndStay : Prop :=
  (∀ s t : State, exec .bringUp s = .next t →
    (t.bus.initStatus = .initialized ∧
      (∃ es, t.bus.trace = s.bus.trace ++ es ++
          [.enableLine .oscEn true, .enableLine .mmcxSel true, .enableLine .refclkSel true] ∧
        es.any Event.isEnableLine = false) ∧
      t.bus.oscEn = true ∧ t.bus.mmcxSel = true ∧ t.bus.refclkSel = true) ∨
    ((∃ k v, t.bus.initStatus = .failed k v) ∧
      (∃ es, t.bus.trace = s.bus.trace ++ es ∧ es.any Event.isEnableLine = false) ∧
      t.bus.oscEn = s.bus.oscEn ∧ t.bus.mmcxSel = s.bus.mmcxSel ∧ t.bus.refclkSel = s.bus.refclkSel)) ∧
  (∀ (i : Instr) (s t : State), exec i s = .next t ∨ step s = .next t →
    (s.bus.oscEn = true → t.bus.oscEn = true) ∧ (s.bus.mmcxSel = true → t.bus.mmcxSel = true) ∧
    (s.bus.refclkSel = true → t.bus.refclkSel = true))

/-! ### Stops (60_exceptions.md) -/

/-- Once bring-up has failed every bus-driver operation is refused, whatever its operands and the phase
(R204 item 5, R214; the spec's decision D23). -/
def Obligations.HaltedDriverRefusesEverything : Prop :=
  ∀ (i : Instr) (s : State), onBusDriver i = true → s.bus.halted = true →
    exec i s = .refused .driverHalted

/-- While a read is open every bus operation but its own phase 2 is a protocol violation (R212, the spec's decision D24);
phase 2 of a chip with no read open at all is one too (log 13). -/
def Obligations.OpenReadExcludesOtherOperations : Prop :=
  (∀ (i : Instr) (s : State) (k : DacIndex) (r : RegAddr), onBusDriver i = true → s.bus.halted = false →
    s.bus.todo = [] → s.bus.phase = .readOpen k r → (∀ n, BitVec.ofNat 5 n = r → i ≠ .rdP2 k.val n) →
    exec i s = .fault .busProtocolViolation) ∧
  (∀ (k : DacIndex) (r : Nat) (s : State), s.bus.MayStart → exec (.rdP2 k.val r) s = .fault .busProtocolViolation)

/-- A transfer under another mask than the asserted one is a protocol violation, for the raw transfer and for every
operation that begins with a transfer (R153, R212; the spec's decision D24); `initialize_dac_bank` is `INITIALIZE` in
every state (R194), so in this one too. -/
def Obligations.TransferUnderAnotherMaskFaults : Prop :=
  (∀ s : State, exec .initDacBank s = exec .bringUp s) ∧
  (∀ (s : State) (m : CsMask), s.bus.MayStart → s.bus.csLine = .asserted m →
    (∀ f, s.bus.cfg.cs ≠ m → exec (.busXfer f) s = .fault .busProtocolViolation) ∧
    (m ≠ 0b1111 → exec .bringUp s = .fault .busProtocolViolation ∧
      exec .initDacBank s = .fault .busProtocolViolation) ∧
    (∀ (i : Instr) (k : DacIndex), dacOperand i = some k.val → csMask k ≠ m →
      exec i s = .fault .busProtocolViolation))

/-- A DAC index outside `[0, 8)` is refused, with no effect, by every operation that takes one, once the earlier checks
pass (R151, R208, R214; the spec's decision D16). -/
def Obligations.BadDacIndexIsRefused : Prop :=
  ∀ (i : Instr) (s : State) (n : Nat), dacOperand i = some n → 8 ≤ n → s.bus.MayStart →
    exec i s = .refused .badDacIndex

/-- The model's choice (log 8): a sample-path operation on a channel number that is not below `N_CHANNELS` is refused,
and on every other channel it is not; a batch of no values is no operation on a channel and completes on any number. -/
def Obligations.ChannelNumbersAreBounded : Prop :=
  (∀ (s : State) (c la p a : Nat) (v : Int) (e : Bool) (i : Instr),
    (i = .wr c la p ∨ i = .tick c ∨ i = .writeSample c a v ∨ i = .setEnable c e) →
    (s.channels.length ≤ c → exec i s = .refused .noSuchChannel) ∧
    (c < s.channels.length → ∃ t, exec i s = .next t)) ∧
  (∀ (s : State) (c : Nat) (v : Int) (vs : List Int), s.channels.length ≤ c →
    exec (.writeSamples c (v :: vs)) s = .refused .noSuchChannel) ∧
  (∀ (s : State) (c : Nat) (vs : List Int), (∀ d w, BatchStep.word d w ∈ s.batch → d < s.channels.length) →
    (vs = [] ∨ c < s.channels.length) → ∃ t, exec (.writeSamples c vs) s = .next t)

/-! ### The whole machine -/

/-- The sample path and the codec neither read nor write the bus driver: run from two states that differ only in the
driver, they make the same change. All that reaches the driver's state is its trace: a batch appends its gap events,
every other operation nothing (R3, R205, which the spec derives from the disjoint state lists). All that a batch takes
from the driver is whether a read is open, under which its gaps wait (20_memory.md R80; log 4). -/
def Obligations.SamplePathIgnoresBusDriver : Prop :=
  ∀ (i : Instr) (s t : State) (b : Bus), onBusDriver i = false → exec i s = .next t →
    ((∃ c vs, i = .writeSamples c vs) → (s.bus.phase = .idle ↔ b.phase = .idle)) →
    ∃ n, t.bus = { s.bus with trace := s.bus.trace ++ List.replicate n (.delay .writeGap 100) } ∧
      exec i { s with bus := b } =
        .next { t with bus := { b with trace := b.trace ++ List.replicate n (.delay .writeGap 100) } } ∧
      ((∀ c vs, i ≠ .writeSamples c vs) → n = 0)

/-- The bus driver neither reads nor writes the sample path: run from two states that differ only in the channels, it
makes the same change; and it leaves the agenda, a batch in progress, the marks and the launch parameters alone (R3, which
the spec derives). -/
def Obligations.BusDriverIgnoresSamplePath : Prop :=
  ∀ (i : Instr) (s t : State) (chs : List Channel), onBusDriver i = true → exec i s = .next t →
    t.channels = s.channels ∧ t.params = s.params ∧ t.batch = s.batch ∧ t.marks = s.marks ∧ t.agenda = s.agenda ∧
    t.unasked = s.unasked ∧ exec i { s with channels := chs } = .next { t with channels := chs }

/-- A word or a tick may be moved over any bus-driver operation and over any single step of one in progress: both orders
end in the same state (R81, R163). -/
def Obligations.PathsCommute : Prop :=
  ∀ (i j : Instr) (c la p : Nat) (s t u : State), (j = .wr c la p ∨ j = .tick c) → exec j t = .next u →
    (onBusDriver i = true → exec i s = .next t → ∃ t', exec j s = .next t' ∧ exec i t' = .next u) ∧
    (s.bus.busy = true → driverTurn s = .next t → ∃ t', exec j s = .next t' ∧ driverTurn t' = .next u)

/-- Only command words change a slot or an enable flag, and only ticks change a pointer or an output (10_state.md
section 2: the writers of `SB`, `en`, `rp` and `out`). -/
def Obligations.SamplePathWriters : Prop :=
  ∀ (i : Instr) (s t : State) (d : Nat), exec i s = .next t →
    ((∀ c la p, i ≠ .wr c la p) → (∀ c a v, i ≠ .writeSample c a v) → (∀ c vs, i ≠ .writeSamples c vs) →
      (∀ c e, i ≠ .setEnable c e) →
      (t.channels[d]?).map (fun ch => (ch.sb, ch.en)) = (s.channels[d]?).map (fun ch => (ch.sb, ch.en))) ∧
    ((∀ c, i ≠ .tick c) →
      (t.channels[d]?).map (fun ch => (ch.rp, ch.out)) = (s.channels[d]?).map (fun ch => (ch.rp, ch.out)))

/-- The failure is sticky: no step leaves it, and after it the bus driver takes no step: all a step can still do to it is
append the gap events of `write_samples` (R204 item 5, the spec's decision D23). -/
def Obligations.FailureIsSticky : Prop :=
  ∀ (s t : State) (i : DacIndex) (v : RegData), s.bus.initStatus = .failed i v → step s = .next t →
    ∃ n, t.bus = { s.bus with trace := s.bus.trace ++ List.replicate n (.delay .writeGap 100) }

/-- The trace only grows, and no step changes the launch parameters or the number of channels (10_state.md R48,
00_scope.md R12). -/
def Obligations.TraceOnlyGrows : Prop :=
  ∀ s t : State, step s = .next t →
    (∃ es, t.bus.trace = s.bus.trace ++ es) ∧ t.params = s.params ∧ t.channels.length = s.channels.length

/-- Every step keeps the invariant of the machine, from every state that has it: in the middle of an operation too, where
the reset line may be asserted and the enable lines may differ, what `Bus.Always` says holds, and when the operation in
progress has taken its last step `Bus.Settled` does (10_state.md R43, R44, R45). -/
def Obligations.StepKeepsInvariant : Prop := ∀ s t : State, s.Inv → step s = .next t → t.Inv

/-- The reset state has the invariant. -/
def Obligations.ResetHasInvariant : Prop := State.reset.Inv

/-- What block reset leaves: every channel idle with no slot written, pointer and output 0; the bus driver idle, released
and not initialized, its lines inactive, its trace empty (R231, the spec's decision D12); nothing in progress and no
mark on the run (log 10). -/
def Obligations.ResetStateIsTheLaunchState : Prop :=
  0 < State.reset.channels.length ∧
  (∀ ch ∈ State.reset.channels, ch.en = false ∧ ch.rp = 0 ∧ ch.out = 0 ∧ ∀ a, ch.sb.read? a = none) ∧
  State.reset.bus.cfg = ⟨0b1111, .b8, true, .out⟩ ∧ State.reset.bus.csLine = .released ∧
  State.reset.bus.phase = .idle ∧ State.reset.bus.dacReset = false ∧ State.reset.bus.oscEn = false ∧
  State.reset.bus.mmcxSel = false ∧ State.reset.bus.refclkSel = false ∧
  State.reset.bus.initStatus = .notInitialized ∧ State.reset.bus.trace = [] ∧
  State.reset.bus.todo = [] ∧ State.reset.batch = [] ∧ State.reset.marks = []

/-- A step runs the operation that the agenda's head asks for, a wire word through the decoder, with that entry taken off
the agenda, or begins it if the head says so; a refusal of R214 then changes nothing but leaves its mark on the run
(log 12). While an operation of the bus driver is in progress, a request for another waits, and the driver takes its turn
(R165; log 26). A word that does not decode and an operation that is not well formed are refused by name; and a table word
presented to the machine is what the very next step runs (log 1, log 15, log 16). -/
def Obligations.StepRunsTheAgenda : Prop :=
  (∀ (s : State) (q : Request) (rest : List Stimulus) (i : Instr), s.agenda = .wire q :: rest → decode q = .ok i →
    i.wellFormed = true → (onBusDriver i = true → s.bus.busy = false) →
    step s = keepMark { s with agenda := rest } (exec i { s with agenda := rest })) ∧
  (∀ (s : State) (rest : List Stimulus) (i : Instr), i.wellFormed = true →
    (onBusDriver i = true → s.bus.busy = false) →
    (s.agenda = .call i :: rest → step s = keepMark { s with agenda := rest } (exec i { s with agenda := rest })) ∧
    (s.agenda = .start i :: rest →
      step s = keepMark { s with agenda := rest } (start i { s with agenda := rest }))) ∧
  (∀ (s : State) (q : Stimulus) (rest : List Stimulus) (i : Instr), s.agenda = q :: rest → i.wellFormed = true →
    (q = .call i ∨ q = .start i ∨ ∃ w, q = .wire w ∧ decode w = .ok i) → onBusDriver i = true → s.bus.busy = true →
    step s = step { s with agenda := .driver :: s.agenda }) ∧
  (∀ (s t : State) (f : Fault), keepMark s (.next t) = .next t ∧ keepMark s (.fault f) = .fault f) ∧
  (∀ (s : State) (r : Refusal), keepMark s (.refused r) =
    if r = .badDacIndex ∨ r = .driverHalted then .next { s with marks := s.marks ++ [r] } else .refused r) ∧
  (∀ (s : State) (q : Request) (rest : List Stimulus) (e : Reject), s.agenda = .wire q :: rest →
    decode q = .error e → step s = .refused (.undecodable e)) ∧
  (∀ (s : State) (rest : List Stimulus) (i : Instr), s.agenda = .call i :: rest ∨ s.agenda = .start i :: rest →
    i.wellFormed = false → step s = .refused .illFormedRequest) ∧
  (∀ (s : State) (nbits w : Nat) (i : Instr), decodeTableWord nbits w = some i → s.bus.busy = false →
    step (s.withFetchWord nbits w) = keepMark s (exec i s))

/-- With nothing asked of the machine its agents go on: a step is a tick of one channel and nothing else, or, where an
operation or a batch is in progress, its agent's turn (00_scope.md R16, 41_sample_store_playback.md R141, R142; whose turn
it is and which channel ticks is free, log 2). -/
def Obligations.UnaskedStepIsATurn : Prop :=
  ∀ s : State, s.agenda = [] → 0 < s.channels.length →
    (∃ c t n, c < s.channels.length ∧ exec (.tick c) s = .next t ∧ step s = .next { t with unasked := n }) ∨
    (s.bus.busy = true ∧ step s = step { s with unasked := s.unasked + 1, agenda := [.driver] }) ∨
    (s.batch ≠ [] ∧ step s = step { s with unasked := s.unasked + 1, agenda := [.batch] })
end

