-- ==== Sys2Proof/Laws/State.lean ====
section
/-!
SUPPORT. Laws/State: what each named update of a record leaves in each field, true by definition, so that no later
proof unfolds an update.
-/

namespace Sys2Proof.Machine

/-! ### Channels -/

@[simp] theorem Channel.store_sb (ch : Channel) (a : SlotAddr) (v : Sample) (e : Bool) :
    (ch.store a v e).sb = ch.sb.write a.toNat v := rfl
@[simp] theorem Channel.store_en (ch : Channel) (a : SlotAddr) (v : Sample) (e : Bool) : (ch.store a v e).en = e := rfl
@[simp] theorem Channel.store_rp (ch : Channel) (a : SlotAddr) (v : Sample) (e : Bool) :
    (ch.store a v e).rp = ch.rp := rfl
@[simp] theorem Channel.store_out (ch : Channel) (a : SlotAddr) (v : Sample) (e : Bool) :
    (ch.store a v e).out = ch.out := rfl
@[simp] theorem Channel.store_tpDraws (ch : Channel) (a : SlotAddr) (v : Sample) (e : Bool) :
    (ch.store a v e).tpDraws = ch.tpDraws := rfl

theorem Channel.applyWord_eq (w : CommandWord) (ch : Channel) :
    ch.applyWord w = ch.store (addressOf w) (valueOf w) (enableOf w.payload) := rfl

@[simp] theorem Channel.tick_sb (c : Nat) (ch : Channel) : (ch.tick c).sb = ch.sb := by
  unfold Channel.tick; split <;> rfl
@[simp] theorem Channel.tick_en (c : Nat) (ch : Channel) : (ch.tick c).en = ch.en := by
  unfold Channel.tick; split <;> rfl
@[simp] theorem Channel.tick_tpDraws (c : Nat) (ch : Channel) : (ch.tick c).tpDraws = ch.tpDraws + 1 := by
  unfold Channel.tick; split <;> rfl
theorem Channel.tick_running {c : Nat} {ch : Channel} (h : ch.en = true) :
    ch.tick c = { ch with out := ch.slot c ch.rp, rp := ch.rp + 1, tpDraws := ch.tpDraws + 1 } := by
  simp [Channel.tick, h]
theorem Channel.tick_idle {c : Nat} {ch : Channel} (h : ch.en = false) :
    ch.tick c = { ch with out := 0, rp := 0, tpDraws := ch.tpDraws + 1 } := by
  simp [Channel.tick, h, literals]

/-! ### The bus driver: emit, config, finish -/

@[simp] theorem Bus.emit_cfg (b : Bus) (e : Event) : (b.emit e).cfg = b.cfg := rfl
@[simp] theorem Bus.emit_csLine (b : Bus) (e : Event) : (b.emit e).csLine = b.csLine := rfl
@[simp] theorem Bus.emit_phase (b : Bus) (e : Event) : (b.emit e).phase = b.phase := rfl
@[simp] theorem Bus.emit_dacReset (b : Bus) (e : Event) : (b.emit e).dacReset = b.dacReset := rfl
@[simp] theorem Bus.emit_oscEn (b : Bus) (e : Event) : (b.emit e).oscEn = b.oscEn := rfl
@[simp] theorem Bus.emit_mmcxSel (b : Bus) (e : Event) : (b.emit e).mmcxSel = b.mmcxSel := rfl
@[simp] theorem Bus.emit_refclkSel (b : Bus) (e : Event) : (b.emit e).refclkSel = b.refclkSel := rfl
@[simp] theorem Bus.emit_initStatus (b : Bus) (e : Event) : (b.emit e).initStatus = b.initStatus := rfl
@[simp] theorem Bus.emit_trace (b : Bus) (e : Event) : (b.emit e).trace = b.trace ++ [e] := rfl
@[simp] theorem Bus.emit_todo (b : Bus) (e : Event) : (b.emit e).todo = b.todo := rfl
@[simp] theorem Bus.emit_answers (b : Bus) (e : Event) : (b.emit e).answers = b.answers := rfl
@[simp] theorem Bus.emit_drawn (b : Bus) (e : Event) : (b.emit e).drawn = b.drawn := rfl
@[simp] theorem Bus.emit_halted (b : Bus) (e : Event) : (b.emit e).halted = b.halted := rfl

@[simp] theorem Bus.config_cfg (c : BusCfg) (b : Bus) : (b.config c).cfg = c := rfl
@[simp] theorem Bus.config_csLine (c : BusCfg) (b : Bus) : (b.config c).csLine = b.csLine := rfl
@[simp] theorem Bus.config_phase (c : BusCfg) (b : Bus) : (b.config c).phase = b.phase := rfl
@[simp] theorem Bus.config_dacReset (c : BusCfg) (b : Bus) : (b.config c).dacReset = b.dacReset := rfl
@[simp] theorem Bus.config_oscEn (c : BusCfg) (b : Bus) : (b.config c).oscEn = b.oscEn := rfl
@[simp] theorem Bus.config_mmcxSel (c : BusCfg) (b : Bus) : (b.config c).mmcxSel = b.mmcxSel := rfl
@[simp] theorem Bus.config_refclkSel (c : BusCfg) (b : Bus) : (b.config c).refclkSel = b.refclkSel := rfl
@[simp] theorem Bus.config_initStatus (c : BusCfg) (b : Bus) : (b.config c).initStatus = b.initStatus := rfl
@[simp] theorem Bus.config_trace (c : BusCfg) (b : Bus) : (b.config c).trace = b.trace ++ [.cfg c] := rfl
@[simp] theorem Bus.config_todo (c : BusCfg) (b : Bus) : (b.config c).todo = b.todo := rfl
@[simp] theorem Bus.config_halted (c : BusCfg) (b : Bus) : (b.config c).halted = b.halted := rfl
@[simp] theorem Bus.config_answers (c : BusCfg) (b : Bus) : (b.config c).answers = b.answers := rfl
@[simp] theorem Bus.config_drawn (c : BusCfg) (b : Bus) : (b.config c).drawn = b.drawn := rfl

@[simp] theorem Bus.finish_cfg (f : Frame) (x : Option Captured) (b : Bus) : (b.finish f x).cfg = b.cfg := rfl
@[simp] theorem Bus.finish_csLine (f : Frame) (x : Option Captured) (b : Bus) :
    (b.finish f x).csLine = if b.cfg.ends then .released else .asserted b.cfg.cs := rfl
@[simp] theorem Bus.finish_phase (f : Frame) (x : Option Captured) (b : Bus) : (b.finish f x).phase = b.phase := rfl
@[simp] theorem Bus.finish_dacReset (f : Frame) (x : Option Captured) (b : Bus) :
    (b.finish f x).dacReset = b.dacReset := rfl
@[simp] theorem Bus.finish_oscEn (f : Frame) (x : Option Captured) (b : Bus) : (b.finish f x).oscEn = b.oscEn := rfl
@[simp] theorem Bus.finish_mmcxSel (f : Frame) (x : Option Captured) (b : Bus) :
    (b.finish f x).mmcxSel = b.mmcxSel := rfl
@[simp] theorem Bus.finish_refclkSel (f : Frame) (x : Option Captured) (b : Bus) :
    (b.finish f x).refclkSel = b.refclkSel := rfl
@[simp] theorem Bus.finish_initStatus (f : Frame) (x : Option Captured) (b : Bus) :
    (b.finish f x).initStatus = b.initStatus := rfl
@[simp] theorem Bus.finish_trace (f : Frame) (x : Option Captured) (b : Bus) :
    (b.finish f x).trace = b.trace ++ [.xfer b.cfg.cs b.cfg.mode b.cfg.len f x b.cfg.ends] := rfl
@[simp] theorem Bus.finish_todo (f : Frame) (x : Option Captured) (b : Bus) :
    (b.finish f x).todo = b.todo := rfl
@[simp] theorem Bus.finish_halted (f : Frame) (x : Option Captured) (b : Bus) : (b.finish f x).halted = b.halted := rfl
@[simp] theorem Bus.finish_answers (f : Frame) (x : Option Captured) (b : Bus) :
    (b.finish f x).answers = b.answers := rfl
@[simp] theorem Bus.finish_drawn (f : Frame) (x : Option Captured) (b : Bus) : (b.finish f x).drawn = b.drawn := rfl

/-! ### The bus driver: the line changes and the exception -/

theorem Bus.setReset_eq (level : Bool) (b : Bus) :
    b.setReset level = { b with dacReset := level, trace := b.trace ++ [.resetLine level] } := rfl
@[simp] theorem Bus.setReset_halted (level : Bool) (b : Bus) : (b.setReset level).halted = b.halted := rfl

theorem Bus.assertLine_eq (l : BoardLine) (last : Bool) (b : Bus) :
    b.assertLine l last = { b with
      oscEn := b.oscEn || decide (l = .oscEn), mmcxSel := b.mmcxSel || decide (l = .mmcxSel),
      refclkSel := b.refclkSel || decide (l = .refclkSel),
      initStatus := if last then .initialized else b.initStatus, trace := b.trace ++ [.enableLine l true] } := rfl

theorem Bus.raiseIdentityMismatch_eq (i : DacIndex) (v : RegData) (b : Bus) :
    b.raiseIdentityMismatch i v = { b with
      initStatus := .failed i v, todo := [], trace := b.trace ++ [.fault (.bringUpIdentityMismatch i v)] } := rfl

theorem Bus.halted_eq_true {b : Bus} : b.halted = true ↔ ∃ i v, b.initStatus = .failed i v := by
  unfold Bus.halted; split <;> simp_all

theorem Bus.halted_congr {b b' : Bus} (h : b.initStatus = b'.initStatus) : b.halted = b'.halted := by
  simp [Bus.halted, h]

theorem Bus.busy_eq_true {b : Bus} : b.busy = true ↔ b.halted = false ∧ b.todo ≠ [] := by
  simp [Bus.busy]

theorem Bus.busy_eq_false_of_free {b : Bus} (h : b.todo = []) : b.busy = false := by simp [Bus.busy, h]

end Sys2Proof.Machine
end

