-- ==== Sys2Proof/Laws/Bus.lean ====
section
/-!
SUPPORT. Laws/Bus: everything a transfer, one step of the driver and the steps of an operation can do, each said once; and
what driver each operation leaves where its mask is free.
-/

namespace Sys2Proof.Machine

/-- The transfer's precondition (42_dac_bus.md R153): chip-select free for mask `m`. -/
def Bus.Free (b : Bus) (m : CsMask) : Prop := b.csLine = .released ∨ b.csLine = .asserted m

@[simp] theorem Bus.config_free (c : BusCfg) (b : Bus) (m : CsMask) : (b.config c).Free m ↔ b.Free m := Iff.rfl

/-- A draw changes the answers and their counter, nothing else. -/
theorem Bus.draw_eq (b : Bus) :
    b.draw.2 = { b with answers := b.answers.tail, drawn := b.drawn + (1 - b.answers.length) } := by
  unfold Bus.draw
  cases h : b.answers with
  | nil => cases b; simp_all
  | cons a as => cases b; simp_all

/-- A transfer in `OUT` mode. -/
theorem Bus.xfer_out {b : Bus} (h : b.Free b.cfg.cs) (hm : b.cfg.mode = .out) (f : Frame) :
    b.xfer f = some (none, b.finish f none) := by
  unfold Bus.xfer
  rw [if_pos (show _ ∨ _ from h)]
  simp [hm]

/-- A transfer in `HD_IN` mode. -/
theorem Bus.xfer_hdIn {b : Bus} (h : b.Free b.cfg.cs) (hm : b.cfg.mode = .hdIn) (f : Frame) :
    b.xfer f = some (some (capture b.cfg.len b.draw.1),
      b.draw.2.finish f (some (capture b.cfg.len b.draw.1))) := by
  unfold Bus.xfer
  rw [if_pos (show _ ∨ _ from h)]
  simp [hm]

/-- Everything a transfer can do. -/
theorem Bus.xfer_cases {b b' : Bus} {f : Frame} {x : Option Captured} (h : b.xfer f = some (x, b')) :
    b.Free b.cfg.cs ∧
      ((b.cfg.mode = .out ∧ x = none ∧ b' = b.finish f none) ∨
       (b.cfg.mode = .hdIn ∧ x = some (capture b.cfg.len b.draw.1) ∧ b' = b.draw.2.finish f x)) := by
  by_cases hf : b.Free b.cfg.cs
  · refine ⟨hf, ?_⟩
    cases hm : b.cfg.mode with
    | out => rw [Bus.xfer_out hf hm] at h; cases h; simp
    | hdIn => rw [Bus.xfer_hdIn hf hm] at h; cases h; simp
  · unfold Bus.xfer at h
    rw [if_neg (show ¬ (_ ∨ _) from hf)] at h
    cases h

theorem Bus.xfer_none {b : Bus} (h : ¬ b.Free b.cfg.cs) (f : Frame) : b.xfer f = none := by
  unfold Bus.xfer
  rw [if_neg (show ¬ (_ ∨ _) from h)]

theorem Bus.draw_halted (b : Bus) : b.draw.2.halted = b.halted := by
  rw [Bus.draw_eq]; rfl

/-! ### One step, and the steps of an operation -/

/-- Everything one step of the driver can do: a reconfiguration, a line change or a delay with its event; or a transfer
under its precondition, followed by what its operation does after it. -/
theorem BusStep.perform_cases {m : BusStep} {o o' : Returned} {b b' : Bus} (h : m.perform o b = some (o', b')) :
    (∃ c, m = .config c ∧ o' = o ∧ b' = b.config c) ∨
    (∃ l, m = .resetLine l ∧ o' = o ∧ b' = b.setReset l) ∨
    (∃ l last, m = .enableLine l last ∧ o' = o ∧ b' = b.assertLine l last) ∨
    (∃ k n, m = .delay k n ∧ o' = o ∧ b' = b.emit (.delay k n)) ∨
    (∃ f a x b₁, m = .xfer f a ∧ b.xfer f = some (x, b₁) ∧ a.apply x o b₁ = some (o', b')) := by
  cases m with
  | config c => cases h; exact .inl ⟨c, rfl, rfl, rfl⟩
  | resetLine l => cases h; exact .inr (.inl ⟨l, rfl, rfl, rfl⟩)
  | enableLine l last => cases h; exact .inr (.inr (.inl ⟨l, last, rfl, rfl, rfl⟩))
  | delay k n => cases h; exact .inr (.inr (.inr (.inl ⟨k, n, rfl, rfl, rfl⟩)))
  | xfer f a =>
    simp only [BusStep.perform] at h
    split at h
    · exact .inr (.inr (.inr (.inr ⟨f, a, _, _, rfl, ‹_›, h⟩)))
    · cases h

/-- Everything an operation can do after its transfer. -/
theorem AfterXfer.apply_cases {a : AfterXfer} {x : Option Captured} {o o' : Returned} {b b' : Bus}
    (h : a.apply x o b = some (o', b')) :
    (a = .done ∧ o' = o ∧ b' = b) ∨ (a = .giveBits ∧ o' = .inBits x ∧ b' = b) ∨
    (∃ i r, a = .openRead i r ∧ o' = o ∧ b' = { b with phase := .readOpen i r }) ∨
    (∃ v, a = .closeRead ∧ x = some (.c16 v) ∧ o' = .data16 v ∧ b' = { b with phase := .idle }) ∨
    (∃ i v, a = .checkIdentity i ∧ x = some (.c16 v) ∧ o' = o ∧ b' = b.checkIdentity i v) := by
  have hr : ∀ {v}, response x = some v → x = some (.c16 v) := by
    intro v hv
    match x with
    | some (.c16 w) => cases hv; rfl
    | some (.c8 _) | some (.c24 _) | none => cases hv
  cases a <;> simp only [AfterXfer.apply] at h
  case done => cases h; simp
  case giveBits => cases h; simp
  case openRead => cases h; simp
  case closeRead =>
    obtain ⟨v, hv, h⟩ := Option.map_eq_some_iff.1 h
    cases h
    simp [hr hv]
  case checkIdentity =>
    obtain ⟨v, hv, h⟩ := Option.map_eq_some_iff.1 h
    cases h
    simp [hr hv]

/-- The check of an identity: it passes exactly on a matching value, and else takes the exception. -/
theorem Bus.checkIdentity_cases (i : DacIndex) (v : RegData) (b : Bus) :
    (identityMatches v = true ∧ b.checkIdentity i v = { b with phase := .idle }) ∨
    (identityMatches v = false ∧
      b.checkIdentity i v = ({ b with phase := .idle } : Bus).raiseIdentityMismatch i v) := by
  cases h : identityMatches v <;> simp [Bus.checkIdentity, h]

@[simp] theorem Bus.run_nil (o : Returned) (b : Bus) : Bus.run [] o b = some (o, b) := rfl

/-- The head of an operation's steps, where it does not halt the driver. -/
theorem Bus.run_cons {m : BusStep} {o o' : Returned} {b b' : Bus} (ms : List BusStep)
    (h : m.perform o b = some (o', b')) (hh : b'.halted = false) : Bus.run (m :: ms) o b = Bus.run ms o' b' := by
  simp [Bus.run, h, hh]

/-- The head of an operation's steps, where it halts the driver: the rest is not taken. -/
theorem Bus.run_cons_halted {m : BusStep} {o o' : Returned} {b b' : Bus} (ms : List BusStep)
    (h : m.perform o b = some (o', b')) (hh : b'.halted = true) : Bus.run (m :: ms) o b = some (o', b') := by
  simp [Bus.run, h, hh]

theorem Bus.run_cons_none {m : BusStep} {o : Returned} {b : Bus} (ms : List BusStep) (h : m.perform o b = none) :
    Bus.run (m :: ms) o b = none := by
  simp [Bus.run, h]

/-- Everything the steps of an operation can do, by its first. -/
theorem Bus.run_cons_cases {m : BusStep} {ms : List BusStep} {o o' : Returned} {b b' : Bus}
    (h : Bus.run (m :: ms) o b = some (o', b')) :
    ∃ o₁ b₁, m.perform o b = some (o₁, b₁) ∧
      ((b₁.halted = true ∧ o' = o₁ ∧ b' = b₁) ∨ (b₁.halted = false ∧ Bus.run ms o₁ b₁ = some (o', b'))) := by
  simp only [Bus.run] at h
  split at h
  · rename_i o₁ b₁ hm
    refine ⟨o₁, b₁, hm, ?_⟩
    split at h
    · cases h; exact .inl ⟨‹_›, rfl, rfl⟩
    · exact .inr ⟨by simp_all, h⟩
  · cases h

/-- Steps and then more steps, where the first do not halt the driver. -/
theorem Bus.run_append {xs : List BusStep} : ∀ {o o' : Returned} {b b' : Bus} (ys : List BusStep),
    Bus.run xs o b = some (o', b') → b'.halted = false → Bus.run (xs ++ ys) o b = Bus.run ys o' b' := by
  induction xs with
  | nil => intro o o' b b' ys h _; cases h; rfl
  | cons m ms ih =>
    intro o o' b b' ys h hh
    obtain ⟨o₁, b₁, hm, (⟨h1, _, rfl⟩ | ⟨h1, h2⟩)⟩ := Bus.run_cons_cases h
    · rw [hh] at h1; cases h1
    · rw [List.cons_append, Bus.run_cons _ hm h1, ih ys h2 hh]

/-- Steps of which one halts the driver: what comes after is not taken. -/
theorem Bus.run_append_halted {xs : List BusStep} : ∀ {o o' : Returned} {b b' : Bus} (ys : List BusStep),
    b.halted = false → Bus.run xs o b = some (o', b') → b'.halted = true →
    Bus.run (xs ++ ys) o b = some (o', b') := by
  induction xs with
  | nil => intro o o' b b' ys hb h hh; cases h; rw [hb] at hh; cases hh
  | cons m ms ih =>
    intro o o' b b' ys hb h hh
    obtain ⟨o₁, b₁, hm, (⟨h1, rfl, rfl⟩ | ⟨h1, h2⟩)⟩ := Bus.run_cons_cases h
    · rw [List.cons_append, Bus.run_cons_halted _ hm h1]
    · rw [List.cons_append, Bus.run_cons _ hm h1, ih ys h1 h2 hh]

/-- A transfer appends its event, and leaves the phase, the lines, the status and the steps still to take. -/
theorem Bus.xfer_frame {b b' : Bus} {f : Frame} {x : Option Captured} (h : b.xfer f = some (x, b')) :
    (∃ e, b'.trace = b.trace ++ [e]) ∧ b'.cfg = b.cfg ∧ b'.phase = b.phase ∧ b'.dacReset = b.dacReset ∧
      b'.oscEn = b.oscEn ∧ b'.mmcxSel = b.mmcxSel ∧ b'.refclkSel = b.refclkSel ∧ b'.initStatus = b.initStatus ∧
      b'.todo = b.todo := by
  rcases (Bus.xfer_cases h).2 with ⟨_, _, rfl⟩ | ⟨_, _, rfl⟩
  · exact ⟨⟨_, rfl⟩, rfl, rfl, rfl, rfl, rfl, rfl, rfl, rfl⟩
  · rw [Bus.draw_eq]
    exact ⟨⟨_, rfl⟩, rfl, rfl, rfl, rfl, rfl, rfl, rfl, rfl⟩

/-- Every step of the driver appends one event, and the fault event besides where it takes the exception. -/
theorem BusStep.perform_trace {m : BusStep} {o o' : Returned} {b b' : Bus} (h : m.perform o b = some (o', b')) :
    ∃ e es, b'.trace = b.trace ++ e :: es ∧
      (es = [] ∨ ∃ i v, es = [.fault (.bringUpIdentityMismatch i v)] ∧ b'.initStatus = .failed i v) := by
  rcases BusStep.perform_cases h with ⟨c, _, _, rfl⟩ | ⟨l, _, _, rfl⟩ | ⟨l, last, _, _, rfl⟩ | ⟨k, n, _, _, rfl⟩ |
    ⟨f, a, x, b₁, _, hx, ha⟩
  · exact ⟨_, [], rfl, .inl rfl⟩
  · exact ⟨_, [], rfl, .inl rfl⟩
  · exact ⟨_, [], rfl, .inl rfl⟩
  · exact ⟨_, [], rfl, .inl rfl⟩
  · obtain ⟨e, he⟩ := (Bus.xfer_frame hx).1
    rcases AfterXfer.apply_cases ha with ⟨_, _, rfl⟩ | ⟨_, _, rfl⟩ | ⟨_, _, _, _, rfl⟩ | ⟨_, _, _, _, rfl⟩ |
      ⟨i, v, _, _, _, rfl⟩
    · exact ⟨e, [], he, .inl rfl⟩
    · exact ⟨e, [], he, .inl rfl⟩
    · exact ⟨e, [], he, .inl rfl⟩
    · exact ⟨e, [], he, .inl rfl⟩
    · rcases Bus.checkIdentity_cases i v b₁ with ⟨_, h'⟩ | ⟨_, h'⟩ <;> rw [h']
      · exact ⟨e, [], he, .inl rfl⟩
      · exact ⟨e, _, by rw [Bus.raiseIdentityMismatch_eq]; simp [he], .inr ⟨i, v, rfl, rfl⟩⟩

/-- Where a step halts the driver, the rest of the operation is dropped. -/
theorem BusStep.perform_halts {m : BusStep} {o o' : Returned} {b b' : Bus} (h : m.perform o b = some (o', b'))
    (hb : b.halted = false) (hh : b'.halted = true) : b'.todo = [] := by
  rcases BusStep.perform_cases h with ⟨c, rfl, _, rfl⟩ | ⟨l, rfl, _, rfl⟩ | ⟨l, last, rfl, _, rfl⟩ |
    ⟨k, n, rfl, _, rfl⟩ | ⟨f, a, x, b₁, rfl, hx, ha⟩
  · exact absurd (hb.symm.trans hh) (by simp)
  · exact absurd (hb.symm.trans hh) (by simp)
  · cases last
    · exact absurd (hb.symm.trans hh) (by simp)
    · cases hh
  · exact absurd (hb.symm.trans hh) (by simp)
  · have h₁ : b₁.halted = false := (Bus.halted_congr (Bus.xfer_frame hx).2.2.2.2.2.2.2.1).trans hb
    rcases AfterXfer.apply_cases ha with ⟨_, _, rfl⟩ | ⟨_, _, rfl⟩ | ⟨_, _, _, _, rfl⟩ | ⟨_, _, _, _, rfl⟩ |
      ⟨i, v, _, _, _, rfl⟩
    · exact absurd (h₁.symm.trans hh) (by simp)
    · exact absurd (h₁.symm.trans hh) (by simp)
    · exact absurd (h₁.symm.trans hh) (by simp)
    · exact absurd (h₁.symm.trans hh) (by simp)
    · rcases Bus.checkIdentity_cases i v b₁ with ⟨_, e⟩ | ⟨_, e⟩ <;> rw [e] at hh ⊢
      · exact absurd (h₁.symm.trans hh) (by simp)
      · rfl

/-- No step reads the steps still to take: with others in their place it does the same, and leaves those, unless it halts
the driver. -/
theorem BusStep.perform_todo {m : BusStep} {o o' : Returned} {b b' : Bus} (ms : List BusStep)
    (h : m.perform o b = some (o', b')) :
    ∃ ms', m.perform o { b with todo := ms } = some (o', { b' with todo := ms' }) ∧
      (ms' = ms ∨ (b'.halted = true ∧ ms' = [] ∧ b'.todo = [])) := by
  rcases BusStep.perform_cases h with ⟨c, rfl, rfl, rfl⟩ | ⟨l, rfl, rfl, rfl⟩ | ⟨l, last, rfl, rfl, rfl⟩ |
    ⟨k, n, rfl, rfl, rfl⟩ | ⟨f, a, x, b₁, rfl, hx, ha⟩
  · exact ⟨ms, rfl, .inl rfl⟩
  · exact ⟨ms, rfl, .inl rfl⟩
  · exact ⟨ms, rfl, .inl rfl⟩
  · exact ⟨ms, rfl, .inl rfl⟩
  · have hx' : ({ b with todo := ms } : Bus).xfer f = some (x, { b₁ with todo := ms }) := by
      obtain ⟨hf, (⟨hm, rfl, rfl⟩ | ⟨hm, rfl, rfl⟩)⟩ := Bus.xfer_cases hx
      · rw [Bus.xfer_out (by exact hf) (by exact hm)]; rfl
      · rw [Bus.xfer_hdIn (by exact hf) (by exact hm)]
        unfold Bus.draw
        cases b.answers <;> simp [Bus.finish, Bus.emit]
    simp only [BusStep.perform, hx']
    rcases AfterXfer.apply_cases ha with ⟨rfl, rfl, rfl⟩ | ⟨rfl, rfl, rfl⟩ | ⟨_, _, rfl, rfl, rfl⟩ |
      ⟨_, rfl, rfl, rfl, rfl⟩ | ⟨i, v, rfl, rfl, rfl, rfl⟩
    · exact ⟨ms, rfl, .inl rfl⟩
    · exact ⟨ms, rfl, .inl rfl⟩
    · exact ⟨ms, rfl, .inl rfl⟩
    · exact ⟨ms, rfl, .inl rfl⟩
    · simp only [AfterXfer.apply, response, Option.map_some, Bus.checkIdentity]
      split
      · exact ⟨ms, rfl, .inl rfl⟩
      · exact ⟨[], rfl, .inr ⟨rfl, rfl, rfl⟩⟩

/-- No step reads the trace: with another in its place it does the same, and appends the same events. -/
theorem BusStep.perform_of_trace {m : BusStep} {o o' : Returned} {b b' : Bus} (tr : List Event)
    (h : m.perform o b = some (o', b')) : ∃ es, b'.trace = b.trace ++ es ∧
      m.perform o { b with trace := tr } = some (o', { b' with trace := tr ++ es }) := by
  rcases BusStep.perform_cases h with ⟨c, rfl, rfl, rfl⟩ | ⟨l, rfl, rfl, rfl⟩ | ⟨l, last, rfl, rfl, rfl⟩ |
    ⟨k, n, rfl, rfl, rfl⟩ | ⟨f, a, x, b₁, rfl, hx, ha⟩
  · exact ⟨_, rfl, rfl⟩
  · exact ⟨_, rfl, rfl⟩
  · exact ⟨_, rfl, rfl⟩
  · exact ⟨_, rfl, rfl⟩
  · have hx' : ∃ e, b₁.trace = b.trace ++ [e] ∧
        ({ b with trace := tr } : Bus).xfer f = some (x, { b₁ with trace := tr ++ [e] }) := by
      obtain ⟨hf, (⟨hm, rfl, rfl⟩ | ⟨hm, rfl, rfl⟩)⟩ := Bus.xfer_cases hx
      · rw [Bus.xfer_out (by exact hf) (by exact hm)]; exact ⟨_, rfl, rfl⟩
      · rw [Bus.xfer_hdIn (by exact hf) (by exact hm)]
        unfold Bus.draw
        cases b.answers <;> exact ⟨_, rfl, rfl⟩
    obtain ⟨e, he, hx'⟩ := hx'
    simp only [BusStep.perform, hx']
    rcases AfterXfer.apply_cases ha with ⟨rfl, rfl, rfl⟩ | ⟨rfl, rfl, rfl⟩ | ⟨_, _, rfl, rfl, rfl⟩ |
      ⟨_, rfl, rfl, rfl, rfl⟩ | ⟨i, v, rfl, rfl, rfl, rfl⟩
    · exact ⟨_, he, rfl⟩
    · exact ⟨_, he, rfl⟩
    · exact ⟨_, he, rfl⟩
    · exact ⟨_, he, rfl⟩
    · simp only [AfterXfer.apply, response, Option.map_some, Bus.checkIdentity]
      split
      · exact ⟨_, he, rfl⟩
      · exact ⟨[e, _], by rw [Bus.raiseIdentityMismatch_eq]; simp [he]; rfl,
          by simp [Bus.raiseIdentityMismatch_eq]⟩

/-- The steps of an operation leave no steps to take where there were none. -/
theorem Bus.run_todo : ∀ {ms : List BusStep} {o o' : Returned} {b b' : Bus}, Bus.run ms o b = some (o', b') →
    b.todo = [] → b'.todo = [] := by
  intro ms
  induction ms with
  | nil => intro o o' b b' h hb; cases h; exact hb
  | cons m ms ih =>
    intro o o' b b' h hb
    obtain ⟨o₁, b₁, hm, hr⟩ := Bus.run_cons_cases h
    have h₁ : b₁.todo = [] := by
      obtain ⟨ms', hm', hx⟩ := BusStep.perform_todo [] hm
      rw [show ({ b with todo := [] } : Bus) = b by cases b; simp_all, hm] at hm'
      have e : b₁.todo = ms' := congrArg (fun x => x.2.todo) (Option.some.inj hm')
      rcases hx with rfl | ⟨_, rfl, _⟩ <;> exact e
    rcases hr with ⟨_, _, rfl⟩ | ⟨_, hr⟩
    · exact h₁
    · exact ih hr h₁

/-- The steps of an operation only append to the trace. -/
theorem Bus.run_trace : ∀ {ms : List BusStep} {o o' : Returned} {b b' : Bus}, Bus.run ms o b = some (o', b') →
    ∃ es, b'.trace = b.trace ++ es := by
  intro ms
  induction ms with
  | nil => intro o o' b b' h; cases h; exact ⟨[], by simp⟩
  | cons m ms ih =>
    intro o o' b b' h
    obtain ⟨o₁, b₁, hm, hr⟩ := Bus.run_cons_cases h
    obtain ⟨e, es, he, _⟩ := BusStep.perform_trace hm
    rcases hr with ⟨_, _, rfl⟩ | ⟨_, hr⟩
    · exact ⟨_, he⟩
    · obtain ⟨es', he'⟩ := ih hr
      exact ⟨_, by rw [he', he, List.append_assoc]⟩

/-- A transfer whose mask is not the one chip-select is held under. -/
theorem Bus.run_config_blocked {b : Bus} {c : BusCfg} (h : ¬ b.Free c.cs) (hh : b.halted = false) (f : Frame)
    (a : AfterXfer) (ms : List BusStep) (o : Returned) : Bus.run (.config c :: .xfer f a :: ms) o b = none := by
  rw [Bus.run_cons _ rfl (by simpa using hh)]
  exact Bus.run_cons_none _ (by simp [BusStep.perform, Bus.xfer_none (b := b.config c) (by simpa using h)])

section
variable {b : Bus} {i : DacIndex}

/-- `WRITE_REGISTER` (42_dac_bus.md R158). -/
theorem Bus.run_writeRegister (h : b.Free (csMask i)) (hh : b.halted = false) (r : RegAddr) (d : RegData)
    (o : Returned) : Bus.run (writeRegisterSteps i r d) o b = some (o, { b with
      cfg := ⟨csMask i, .b24, true, .out⟩, csLine := .released,
      trace := b.trace ++ [.cfg ⟨csMask i, .b24, true, .out⟩,
        .xfer (csMask i) .out .b24 (.wf (writeFrame r d)) none true] }) := by
  rw [writeRegisterSteps, Bus.run_cons _ rfl (by simpa using hh), Bus.run_cons (b' := (b.config _).finish _ none) _
    (by rw [BusStep.perform, Bus.xfer_out (by simpa using h) rfl]; rfl) (by simpa using hh)]
  simp [Bus.finish, Bus.config, Bus.emit]

/-- Phase 1 of a read (42_dac_bus.md R161). -/
theorem Bus.run_readPhase1 (h : b.Free (csMask i)) (hh : b.halted = false) (r : RegAddr) (o : Returned) :
    Bus.run (readPhase1Steps i r) o b = some (o, { b with
      cfg := ⟨csMask i, .b8, false, .out⟩, csLine := .asserted (csMask i), phase := .readOpen i r,
      trace := b.trace ++ [.cfg ⟨csMask i, .b8, false, .out⟩,
        .xfer (csMask i) .out .b8 (.rc (readCommand r)) none false] }) := by
  rw [readPhase1Steps, Bus.run_cons _ rfl (by simpa using hh),
    Bus.run_cons (o' := o) (b' := { (b.config _).finish _ none with phase := .readOpen i r }) _
      (by rw [BusStep.perform, Bus.xfer_out (by simpa using h) rfl]; rfl) (by exact hh)]
  simp [Bus.finish, Bus.config, Bus.emit]

/-- What the two transfers of phase 2 leave before the read is closed (42_dac_bus.md R162). -/
def Bus.captured (i : DacIndex) (r : RegAddr) (b : Bus) : Bus :=
  { b.draw.2 with
    cfg := ⟨csMask i, .b16, true, .hdIn⟩, csLine := .released,
    trace := b.trace ++ [.cfg ⟨csMask i, .b16, true, .hdIn⟩,
      .xfer (csMask i) .hdIn .b16 (.rc (readCommand r)) (some (.c16 (b.draw.1.setWidth 16))) true] }

/-- Phase 2 of a read (42_dac_bus.md R162), whatever is done with its 16 bits. -/
theorem Bus.run_readPhase2 (h : b.Free (csMask i)) (hh : b.halted = false) (r : RegAddr) (a : AfterXfer)
    (o : Returned) : Bus.run (readPhase2Steps i r a) o b =
      a.apply (some (.c16 (b.draw.1.setWidth 16))) o (b.captured i r) := by
  have hx : ((b.config ⟨csMask i, .b16, true, .hdIn⟩).xfer (.rc (readCommand r))) =
      some (some (.c16 (b.draw.1.setWidth 16)), b.captured i r) := by
    rw [Bus.xfer_hdIn (by simpa using h) rfl]
    simp only [Bus.config_cfg, capture, Bus.captured]
    unfold Bus.draw
    cases h : b.answers <;> simp [Bus.config, Bus.emit, Bus.finish, h]
  rw [readPhase2Steps, Bus.run_cons _ rfl (by simpa using hh), Bus.run, BusStep.perform, hx]
  simp only
  cases a.apply _ o (b.captured i r) with
  | none => rfl
  | some p => simp

/-- `READ_REGISTER` (42_dac_bus.md R160), whatever is done with its 16 bits. -/
theorem Bus.run_readRegister (h : b.Free (csMask i)) (hh : b.halted = false) (r : RegAddr) (a : AfterXfer)
    (o : Returned) : Bus.run (readRegisterSteps i r a) o b =
      a.apply (some (.c16 (b.draw.1.setWidth 16))) o { b.draw.2 with
        cfg := ⟨csMask i, .b16, true, .hdIn⟩, csLine := .released, phase := .readOpen i r,
        trace := b.trace ++
          [.cfg ⟨csMask i, .b8, false, .out⟩, .xfer (csMask i) .out .b8 (.rc (readCommand r)) none false,
           .cfg ⟨csMask i, .b16, true, .hdIn⟩,
           .xfer (csMask i) .hdIn .b16 (.rc (readCommand r)) (some (.c16 (b.draw.1.setWidth 16))) true] } := by
  rw [readRegisterSteps, Bus.run_append _ (Bus.run_readPhase1 h hh r o) hh, Bus.run_readPhase2 (.inr rfl) (by exact hh)]
  simp only [Bus.captured, Bus.draw]
  cases b.answers <;> simp

end

/-- The identity check passes exactly on `0x000A` (43_dac_bringup.md R181, 92_eei_decisions.md D19). -/
theorem identityMatches_iff (v : RegData) : identityMatches v = true ↔ v = 0x000A := by
  have h : v &&& 65535#16 = v := by
    rw [show (65535#16) = BitVec.allOnes 16 by decide, BitVec.and_allOnes]
  simp [identityMatches, literals, h]

end Sys2Proof.Machine
end

