-- ==== Sys2Proof/Laws/Checks.lean ====
section
/-!
SUPPORT. Laws/Checks: what the shared checks on entry and the shared outcomes can do, each said once: when they answer
a next state, and which.
-/

namespace Sys2Proof.Machine

variable {s t : State}

/-! ### Inversion: an answer of `next` and what it came from -/

theorem unlessHalted_next {k : Host.Outcome State Fault Refusal} (h : unlessHalted s k = .next t) :
    s.bus.halted = false ∧ k = .next t := by
  unfold unlessHalted at h
  split at h
  · cases h
  · exact ⟨by simp_all, h⟩

theorem whenDriverFree_next {k : Host.Outcome State Fault Refusal} (h : whenDriverFree s k = .next t) :
    s.bus.halted = false ∧ s.bus.todo = [] ∧ k = .next t := by
  obtain ⟨hh, h⟩ := unlessHalted_next h
  split at h
  · exact ⟨hh, by simp_all, h⟩
  · cases h

theorem whenBusIdle_next {k : Host.Outcome State Fault Refusal} (h : whenBusIdle s k = .next t) :
    s.bus.halted = false ∧ s.bus.todo = [] ∧ s.bus.phase = .idle ∧ k = .next t := by
  obtain ⟨hh, hf, h⟩ := whenDriverFree_next h
  split at h
  · exact ⟨hh, hf, ‹_›, h⟩
  · cases h

theorem withDac_next {i : Nat} {k : DacIndex → Host.Outcome State Fault Refusal} (h : withDac i k = .next t) :
    ∃ d, dacIndex? i = some d ∧ k d = .next t := by
  unfold withDac at h
  split at h
  · exact ⟨_, ‹_›, h⟩
  · cases h

theorem runOperation_next {ms : List BusStep} (h : runOperation s ms = .next t) :
    ∃ o b, Bus.run ms s.returned s.bus = some (o, b) ∧ t = { s with bus := b, returned := o } := by
  unfold runOperation at h
  split at h
  · exact ⟨_, _, ‹_›, by cases h; rfl⟩
  · cases h

theorem driverStep_next {m : BusStep} {ms : List BusStep} (h : driverStep m ms s = .next t) :
    ∃ o b, m.perform s.returned { s.bus with todo := ms } = some (o, b) ∧ t = { s with bus := b, returned := o } := by
  unfold driverStep at h
  split at h
  · exact ⟨_, _, ‹_›, by cases h; rfl⟩
  · cases h

theorem onChannel_next {c : Nat} {f : Channel → Channel} (h : onChannel c f s = .next t) :
    ∃ ch, s.channels[c]? = some ch ∧ t = { s with channels := s.channels.set c (f ch) } := by
  unfold onChannel at h
  split at h
  · exact ⟨_, ‹_›, by cases h; rfl⟩
  · cases h

/-! ### Completion: the checks pass -/

theorem unlessHalted_of (h : s.bus.halted = false) (k : Host.Outcome State Fault Refusal) :
    unlessHalted s k = k := by
  simp [unlessHalted, h]

theorem whenDriverFree_of (h : s.bus.halted = false) (hf : s.bus.todo = [])
    (k : Host.Outcome State Fault Refusal) : whenDriverFree s k = k := by
  simp [whenDriverFree, unlessHalted, h, hf]

theorem whenBusIdle_of (h : s.bus.halted = false) (hf : s.bus.todo = []) (hp : s.bus.phase = .idle)
    (k : Host.Outcome State Fault Refusal) : whenBusIdle s k = k := by
  simp [whenBusIdle, whenDriverFree, unlessHalted, h, hf, hp]

theorem runOperation_of {ms : List BusStep} {o : Returned} {b : Bus} (h : Bus.run ms s.returned s.bus = some (o, b)) :
    runOperation s ms = .next { s with bus := b, returned := o } := by
  simp [runOperation, h]

theorem runOperation_none {ms : List BusStep} (h : Bus.run ms s.returned s.bus = none) :
    runOperation s ms = .fault .busProtocolViolation := by
  simp [runOperation, h]

theorem withDac_of {i : Nat} {d : DacIndex} (h : dacIndex? i = some d)
    (k : DacIndex → Host.Outcome State Fault Refusal) : withDac i k = k d := by
  simp [withDac, h]

theorem onChannel_of {c : Nat} {ch : Channel} (h : s.channels[c]? = some ch) (f : Channel → Channel) :
    onChannel c f s = .next { s with channels := s.channels.set c (f ch) } := by
  simp [onChannel, h]

theorem dacIndex?_eq_some {i : Nat} {d : DacIndex} : dacIndex? i = some d ↔ i = d.val := by
  unfold dacIndex?
  split
  · constructor
    · intro h; cases h; rfl
    · rintro rfl; rfl
  · rename_i h
    constructor
    · intro h'; cases h'
    · rintro rfl; exact absurd d.isLt h

theorem dacIndex?_eq_none {i : Nat} : dacIndex? i = none ↔ 8 ≤ i := by
  unfold dacIndex?
  split <;> simp <;> omega

/-! ### Stops -/

theorem unlessHalted_halted (h : s.bus.halted = true) (k : Host.Outcome State Fault Refusal) :
    unlessHalted s k = .refused .driverHalted := by
  simp [unlessHalted, h]

theorem whenBusIdle_halted (h : s.bus.halted = true) (k : Host.Outcome State Fault Refusal) :
    whenBusIdle s k = .refused .driverHalted := unlessHalted_halted h _

theorem whenDriverFree_busy (h : s.bus.halted = false) (hf : s.bus.todo ≠ [])
    (k : Host.Outcome State Fault Refusal) : whenDriverFree s k = .refused .driverBusy := by
  simp [whenDriverFree, unlessHalted, h, hf]

theorem whenBusIdle_open (h : s.bus.halted = false) (hf : s.bus.todo = []) (hp : s.bus.phase ≠ .idle)
    (k : Host.Outcome State Fault Refusal) : whenBusIdle s k = .fault .busProtocolViolation := by
  simp [whenBusIdle, whenDriverFree, unlessHalted, h, hf, hp]

theorem withDac_none {i : Nat} (h : dacIndex? i = none) (k : DacIndex → Host.Outcome State Fault Refusal) :
    withDac i k = .refused .badDacIndex := by
  simp [withDac, h]

end Sys2Proof.Machine
end

