-- ==== Sys2Proof/Laws/BringUp.lean ====
section
/-!
SUPPORT. Laws/BringUp: the answers of the chips, in the terms of Safety.lean; reads and bring-up's parts on a driver that is
free for the chip; and that every step but the assertion of a line evolves the driver quietly: the trace grows by events
of which none is an enable line, and the lines stay.
-/

namespace Sys2Proof.Machine

/-! ### Answers -/

theorem Bus.draw_fst (b : Bus) : b.draw.1 = b.answer 0 := by
  unfold Bus.draw Bus.answer
  cases h : b.answers <;> simp

theorem Bus.draw_snd (b : Bus) : b.draw.2 = b.afterDraws 1 := by
  rw [Bus.draw_eq]
  simp [Bus.afterDraws]

theorem Bus.answer_afterDraws (b : Bus) (n m : Nat) : (b.afterDraws n).answer m = b.answer (n + m) := by
  simp only [Bus.answer, Bus.afterDraws, List.getElem?_drop, List.length_drop]
  cases b.answers[n + m]? with
  | some => rfl
  | none => simp only; congr 1; omega

theorem Bus.afterDraws_afterDraws (b : Bus) (n m : Nat) :
    (b.afterDraws n).afterDraws m = b.afterDraws (n + m) := by
  simp only [Bus.afterDraws, List.drop_drop, List.length_drop, Bus.mk.injEq, true_and]
  omega

/-! ### Operations on a driver that is free for the chip -/

/-- A register read for the caller (42_dac_bus.md R160). -/
theorem Bus.run_readRegister_didRead {b : Bus} {k : DacIndex} (h : b.Free (csMask k)) (hh : b.halted = false)
    (r : RegAddr) (o : Returned) : Bus.run (readRegisterSteps k r .closeRead) o b =
      some (.data16 (b.reads 0), b.didRead (csMask k) (readCommand r)) := by
  rw [Bus.run_readRegister h hh, Bus.draw_fst, Bus.draw_snd]
  rfl

/-- The identity read and its check (43_dac_bringup.md R181). -/
theorem Bus.run_identity {b : Bus} {k : DacIndex} (h : b.Free (csMask k)) (hh : b.halted = false) (o : Returned) :
    Bus.run (identitySteps k) o b = some (o, if b.reads 0 = 0x000A then b.didRead (csMask k) 0x9F
      else (b.didRead (csMask k) 0x9F).raiseIdentityMismatch k (b.reads 0)) := by
  rw [identitySteps, Bus.run_readRegister h hh, Bus.draw_fst, Bus.draw_snd,
    show readCommand literals.idReg = 0x9F by decide]
  simp only [AfterXfer.apply, response, Option.map_some, Bus.checkIdentity]
  change some (o, if identityMatches (b.reads 0) = true then _ else _) = _
  by_cases hv : b.reads 0 = 0x000A
  · rw [if_pos ((identityMatches_iff _).2 hv), if_pos hv]
    rfl
  · rw [if_neg (fun h => hv ((identityMatches_iff _).1 h)), if_neg hv]
    rfl

/-- The settling delay and the two calibration writes (43_dac_bringup.md R181). -/
theorem Bus.run_calibrate {b : Bus} {k : DacIndex} (h : b.Free (csMask k)) (hh : b.halted = false) (tSettle : Nat)
    (o : Returned) : Bus.run (.delay .settle tSettle :: (calStepsA k ++ calStepsB k)) o b = some (o, { b with
      cfg := ⟨csMask k, .b24, true, .out⟩, csLine := .released,
      trace := b.trace ++ [.delay .settle tSettle] ++ writeEvents (csMask k) 0x050080 ++
        writeEvents (csMask k) 0x080080 }) := by
  have e1 : writeFrame literals.calRegA literals.calData = 0x050080 := by decide
  have e2 : writeFrame literals.calRegB literals.calData = 0x080080 := by decide
  rw [Bus.run_cons _ rfl (by exact hh), calStepsA, calStepsB,
    Bus.run_append _ (Bus.run_writeRegister (by exact h) (by exact hh) _ _ _) (by exact hh),
    Bus.run_writeRegister (.inl rfl) (by exact hh), e1, e2]
  simp [writeEvents, Bus.emit]

/-- `DAC_RESET` (42_dac_bus.md R156). -/
theorem Bus.run_reset {b : Bus} (hh : b.halted = false) (o : Returned) :
    Bus.run resetSteps o b = some (o, { b with dacReset := false, trace := b.trace ++ resetEvents }) := by
  rw [resetSteps, Bus.run_cons _ rfl (by exact hh), Bus.run_cons _ rfl (by exact hh),
    Bus.run_cons _ rfl (by exact hh), Bus.run_cons _ rfl (by exact hh), Bus.run_nil]
  simp [Bus.setReset, Bus.emit, resetEvents, literals]

/-- The board-level enable sequence (43_dac_bringup.md R183). -/
theorem Bus.run_lines {b : Bus} (hh : b.halted = false) (o : Returned) :
    Bus.run lineSteps o b = some (o, { b with
      oscEn := true, mmcxSel := true, refclkSel := true, initStatus := .initialized,
      trace := b.trace ++ lineEvents }) := by
  rw [lineSteps, Bus.run_cons _ rfl (by exact hh), Bus.run_cons _ rfl (by exact hh), Bus.run_cons _ rfl rfl,
    Bus.run_nil]
  simp [Bus.assertLine, Bus.emit, lineEvents]

/-! ### Quiet evolution -/

/-- From `b` to `b'` the trace grew by events of which none is an enable line, and the three lines stayed. -/
structure Bus.Quiet (b b' : Bus) : Prop where
  trace  : ∃ es, b'.trace = b.trace ++ es ∧ es.any Event.isEnableLine = false
  oscEn  : b'.oscEn = b.oscEn
  mmcx   : b'.mmcxSel = b.mmcxSel
  refclk : b'.refclkSel = b.refclkSel

theorem Bus.Quiet.refl (b : Bus) : b.Quiet b := ⟨⟨[], by simp⟩, rfl, rfl, rfl⟩

theorem Bus.Quiet.trans {a b c : Bus} (h : a.Quiet b) (h' : b.Quiet c) : a.Quiet c := by
  obtain ⟨es, h1, h2⟩ := h.trace
  obtain ⟨es', h1', h2'⟩ := h'.trace
  exact ⟨⟨es ++ es', by rw [h1', h1, List.append_assoc], by simp [h2, h2']⟩,
    h'.oscEn.trans h.oscEn, h'.mmcx.trans h.mmcx, h'.refclk.trans h.refclk⟩

variable {b b' : Bus} {o o' : Returned}

/-- A transfer is quiet, and leaves the status and the phase. -/
theorem Bus.quiet_xfer {f : Frame} {x : Option Captured} (h : b.xfer f = some (x, b')) :
    b.Quiet b' ∧ b'.initStatus = b.initStatus ∧ b'.phase = b.phase := by
  rcases (Bus.xfer_cases h).2 with ⟨_, _, rfl⟩ | ⟨_, _, rfl⟩
  · exact ⟨⟨⟨_, rfl, rfl⟩, rfl, rfl, rfl⟩, rfl, rfl⟩
  · rw [Bus.draw_snd]
    exact ⟨⟨⟨_, rfl, rfl⟩, rfl, rfl, rfl⟩, rfl, rfl⟩

/-- Every step but the assertion of an enable line is quiet, and leaves the status or records a failure. -/
theorem BusStep.quiet {m : BusStep} (hm : ∀ l last, m ≠ .enableLine l last) (h : m.perform o b = some (o', b')) :
    b.Quiet b' ∧ (b'.initStatus = b.initStatus ∨ b'.halted = true) := by
  rcases BusStep.perform_cases h with ⟨c, _, _, rfl⟩ | ⟨l, _, _, rfl⟩ | ⟨l, last, hl, _⟩ | ⟨k, n, _, _, rfl⟩ |
    ⟨f, a, x, b₁, _, hx, ha⟩
  · exact ⟨⟨⟨_, rfl, rfl⟩, rfl, rfl, rfl⟩, .inl rfl⟩
  · exact ⟨⟨⟨_, rfl, rfl⟩, rfl, rfl, rfl⟩, .inl rfl⟩
  · exact absurd hl (hm l last)
  · exact ⟨⟨⟨_, rfl, rfl⟩, rfl, rfl, rfl⟩, .inl rfl⟩
  · obtain ⟨hq, hs, _⟩ := Bus.quiet_xfer hx
    rcases AfterXfer.apply_cases ha with ⟨_, _, rfl⟩ | ⟨_, _, rfl⟩ | ⟨_, _, _, _, rfl⟩ | ⟨_, _, _, _, rfl⟩ |
      ⟨i, v, _, _, _, rfl⟩
    · exact ⟨hq, .inl hs⟩
    · exact ⟨hq, .inl hs⟩
    · exact ⟨hq.trans ⟨⟨[], by simp⟩, rfl, rfl, rfl⟩, .inl hs⟩
    · exact ⟨hq.trans ⟨⟨[], by simp⟩, rfl, rfl, rfl⟩, .inl hs⟩
    · rcases Bus.checkIdentity_cases i v b₁ with ⟨_, e⟩ | ⟨_, e⟩ <;> rw [e]
      · exact ⟨hq.trans ⟨⟨[], by simp⟩, rfl, rfl, rfl⟩, .inl hs⟩
      · exact ⟨hq.trans ⟨⟨_, rfl, rfl⟩, rfl, rfl, rfl⟩, .inr rfl⟩

/-- The steps of an operation that asserts no enable line are quiet, and leave the status or record a failure. -/
theorem Bus.quiet_run : ∀ {ms : List BusStep} {o o' : Returned} {b b' : Bus},
    (∀ l last, BusStep.enableLine l last ∉ ms) → Bus.run ms o b = some (o', b') →
    b.Quiet b' ∧ (b'.initStatus = b.initStatus ∨ b'.halted = true) := by
  intro ms
  induction ms with
  | nil => intro o o' b b' _ h; cases h; exact ⟨Bus.Quiet.refl _, .inl rfl⟩
  | cons m ms ih =>
    intro o o' b b' hn h
    obtain ⟨o₁, b₁, hm, hr⟩ := Bus.run_cons_cases h
    obtain ⟨q, hs⟩ := BusStep.quiet (fun l last e => hn l last (by simp [e])) hm
    rcases hr with ⟨_, _, rfl⟩ | ⟨hh, hr⟩
    · exact ⟨q, hs⟩
    · obtain ⟨q', hs'⟩ := ih (fun l last e => hn l last (List.mem_cons_of_mem _ e)) hr
      refine ⟨q.trans q', hs'.imp_left fun e => e.trans (hs.resolve_right ?_)⟩
      simp [hh]

/-- Everything the steps of one list followed by another can do: the first halt the driver, or the second go on. -/
theorem Bus.run_append_cases {xs ys : List BusStep} : ∀ {o o' : Returned} {b b' : Bus},
    Bus.run (xs ++ ys) o b = some (o', b') → b.halted = false →
    (Bus.run xs o b = some (o', b') ∧ b'.halted = true) ∨
      ∃ o₁ b₁, Bus.run xs o b = some (o₁, b₁) ∧ b₁.halted = false ∧ Bus.run ys o₁ b₁ = some (o', b') := by
  induction xs with
  | nil => intro o o' b b' h hh; exact .inr ⟨o, b, rfl, hh, h⟩
  | cons m ms ih =>
    intro o o' b b' h hh
    obtain ⟨o₁, b₁, hm, (⟨h1, rfl, rfl⟩ | ⟨h1, h2⟩)⟩ := Bus.run_cons_cases h
    · exact .inl ⟨Bus.run_cons_halted _ hm h1, h1⟩
    · rw [Bus.run_cons _ hm h1]
      exact ih h2 h1

/-- Bring-up asserts no line before the last three steps (43_dac_bringup.md R183). -/
theorem noLine_before (tSettle : Nat) (l : BoardLine) (last : Bool) :
    BusStep.enableLine l last ∉ resetSteps ++ chipOrder.flatMap (chipSteps tSettle) := by
  simp [resetSteps, chipSteps, identitySteps, readRegisterSteps, readPhase1Steps, readPhase2Steps, calStepsA, calStepsB,
    writeRegisterSteps]

/-- Everything bring-up can do where it answers a next state: a quiet evolution to the failure of a chip, or a quiet
evolution and then the three enable lines. -/
theorem execBringUp_cases {s t : State} (h : execBringUp s = .next t) :
    s.bus.halted = false ∧ s.bus.todo = [] ∧ s.bus.phase = .idle ∧ ∃ o b, s.bus.Quiet b ∧
      ((b.halted = true ∧ t = { s with bus := b, returned := o }) ∨
       (b.halted = false ∧ t = { s with returned := o, bus := { b with
          oscEn := true, mmcxSel := true, refclkSel := true, initStatus := .initialized,
          trace := b.trace ++ lineEvents } })) := by
  obtain ⟨h1, h2, h3, h4⟩ := whenBusIdle_next h
  obtain ⟨o, b, hb, rfl⟩ := runOperation_next h4
  refine ⟨h1, h2, h3, ?_⟩
  rw [bringUpSteps] at hb
  rcases Bus.run_append_cases hb h1 with ⟨hr, hh⟩ | ⟨o₁, b₁, hr, hh, hl⟩
  · exact ⟨o, b, (Bus.quiet_run (noLine_before _) hr).1, .inl ⟨hh, rfl⟩⟩
  · rw [Bus.run_lines hh] at hl
    cases hl
    exact ⟨_, b₁, (Bus.quiet_run (noLine_before _) hr).1, .inr ⟨hh, rfl⟩⟩

end Sys2Proof.Machine
end

