-- ==== Sys2Proof/Laws/Codec.lean ====
section
/-!
SUPPORT. Laws/Codec: the fields of command words and bus frames as numbers: for each packing and each field
extraction, its value in arithmetic.
-/

namespace Sys2Proof.Machine

@[simp] theorem trunc10_toNat (a : Nat) : (trunc10 a).toNat = a % 1024 := by simp [trunc10]

@[simp] theorem trunc14_toNat (v : Int) : ((trunc14 v).toNat : Int) = v % 16384 := by
  simp only [trunc14, BitVec.toNat_ofInt]; omega

@[simp] theorem trunc5_toNat (r : Nat) : (trunc5 r).toNat = r % 32 := by simp [trunc5]

@[simp] theorem trunc16_toNat (d : Nat) : (trunc16 d).toNat = d % 65536 := by simp [trunc16]

@[simp] theorem enableBit_toNat (e : Bool) : (enableBit e).toNat = if e then 1 else 0 := by
  cases e <;> rfl

@[simp] theorem packWord_linkAddress (a : SlotAddr) (v : Sample) (e : Bool) :
    (packWord a v e).linkAddress.toNat = a.toNat % 256 := by
  simp [packWord]

@[simp] theorem packWord_payload (a : SlotAddr) (v : Sample) (e : Bool) :
    (packWord a v e).payload.toNat = a.toNat / 256 * 32768 + (if e then 16384 else 0) + v.toNat := by
  have ha := a.isLt
  simp only [packWord]
  rw [BitVec.toNat_append, ← Nat.shiftLeft_add_eq_or_of_lt v.isLt, BitVec.toNat_append,
    ← Nat.shiftLeft_add_eq_or_of_lt (enableBit e).isLt]
  cases e <;> simp [Nat.shiftLeft_eq, Nat.shiftRight_eq_div_pow] <;> omega

/-- The enable bit of a payload is its bit 14 (30_encoding.md R92). -/
theorem enableOf_eq (p : Payload) : enableOf p = decide (p.toNat / 16384 % 2 = 1) := by
  rw [Bool.eq_iff_iff]
  simp [enableOf, ← BitVec.toNat_inj, Nat.shiftRight_eq_div_pow]

/-- The logical address of a word (30_encoding.md R93). -/
theorem addressOf_toNat (w : CommandWord) :
    (addressOf w).toNat = w.payload.toNat / 32768 * 256 + w.linkAddress.toNat := by
  have hp := w.payload.isLt
  unfold addressOf
  rw [BitVec.toNat_append, ← Nat.shiftLeft_add_eq_or_of_lt w.linkAddress.isLt]
  simp [Nat.shiftLeft_eq, Nat.shiftRight_eq_div_pow]
  omega

/-- The value of a word (30_encoding.md R93). -/
theorem valueOf_toNat (w : CommandWord) : (valueOf w).toNat = w.payload.toNat % 16384 := by
  simp [valueOf]

@[simp] theorem containers_linkAddress (la p : Nat) : (containers la p).linkAddress.toNat = la % 256 := by
  simp [containers]

@[simp] theorem containers_payload (la p : Nat) : (containers la p).payload.toNat = p % 131072 := by
  simp [containers]

/-- A command word is its two fields as numbers. -/
theorem CommandWord.eq_of_toNat {w w' : CommandWord} (h : w.linkAddress.toNat = w'.linkAddress.toNat)
    (h' : w.payload.toNat = w'.payload.toNat) : w = w' := by
  obtain ⟨la, p⟩ := w
  obtain ⟨la', p'⟩ := w'
  cases BitVec.eq_of_toNat_eq h
  cases BitVec.eq_of_toNat_eq h'
  rfl

theorem commandByte_toNat (o : BitVec 1) (r : RegAddr) : (commandByte o r).toNat = o.toNat * 128 + r.toNat := by
  simp only [commandByte, literals]
  rw [BitVec.toNat_append, ← Nat.shiftLeft_add_eq_or_of_lt r.isLt, BitVec.toNat_append,
    ← Nat.shiftLeft_add_eq_or_of_lt (BitVec.isLt _)]
  simp [Nat.shiftLeft_eq]
  omega

/-- `RC = 0x80 | reg_addr` (30_encoding.md R101). -/
theorem readCommand_toNat (r : RegAddr) : (readCommand r).toNat = 128 + r.toNat := by
  simp [readCommand, commandByte_toNat]

/-- `WF = (reg_addr << 16) | data` (30_encoding.md R100). -/
theorem writeFrame_toNat (r : RegAddr) (d : RegData) : (writeFrame r d).toNat = r.toNat * 65536 + d.toNat := by
  simp only [writeFrame]
  rw [BitVec.toNat_append, ← Nat.shiftLeft_add_eq_or_of_lt d.isLt, commandByte_toNat]
  simp [Nat.shiftLeft_eq]

theorem joinCw_toNat (w : CommandWord) : (joinCw w).toNat = w.linkAddress.toNat * 131072 + w.payload.toNat := by
  simp only [joinCw]
  rw [BitVec.toNat_append, ← Nat.shiftLeft_add_eq_or_of_lt w.payload.isLt]
  simp [Nat.shiftLeft_eq]

theorem splitCw_linkAddress (w : BitVec 25) : (splitCw w).linkAddress.toNat = w.toNat / 131072 := by
  have := w.isLt
  simp [splitCw, Nat.shiftRight_eq_div_pow]
  omega

theorem splitCw_payload (w : BitVec 25) : (splitCw w).payload.toNat = w.toNat % 131072 := by
  simp [splitCw]

end Sys2Proof.Machine
end

