-- ==== Sys2Proof/Laws/Memory.lean ====
section
/-!
SUPPORT. Laws/Memory: the laws of the sample buffer. Read after write, the canonical form kept by every write and
held at reset, and equal contents being equal data.
-/

namespace Sys2Proof.Machine

@[simp] theorem Memory.read?_write_same (m : Memory) (a : Nat) (v : Sample) : (m.write a v).read? a = some v := by
  induction m with
  | nil => simp [Memory.write, Memory.read?]
  | cons e m ih =>
    obtain ⟨k, w⟩ := e
    unfold Memory.write
    split
    · simp [Memory.read?]
    · split
      · simp [Memory.read?]
      · rename_i h
        simp [Memory.read?, Ne.symm h, ih]

@[simp] theorem Memory.read?_write_other (m : Memory) {a b : Nat} (v : Sample) (h : b ≠ a) :
    (m.write a v).read? b = m.read? b := by
  induction m with
  | nil => simp [Memory.write, Memory.read?, h.symm]
  | cons e m ih =>
    obtain ⟨k, w⟩ := e
    unfold Memory.write
    split
    · simp [Memory.read?, h.symm]
    · split
      · rename_i hk; subst hk
        simp [Memory.read?, h.symm]
      · by_cases hb : k = b <;> simp [Memory.read?, hb, ih]

/-- The later of two writes to one slot is all that remains. -/
theorem Memory.write_write_same (m : Memory) (a : Nat) (v w : Sample) :
    (m.write a v).write a w = m.write a w := by
  induction m with
  | nil => simp [Memory.write]
  | cons e m ih =>
    obtain ⟨k, u⟩ := e
    by_cases h : a < k
    · simp [Memory.write, h]
    · by_cases hk : a = k
      · simp [Memory.write, hk]
      · simp [Memory.write, h, hk, ih]

theorem Memory.wf_cons {k : Nat} {v : Sample} {m : Memory} :
    Memory.wf ((k, v) :: m) = true ↔ k < 1024 ∧ (∀ e ∈ m, k < e.1) ∧ Memory.wf m = true := by
  simp [Memory.wf, and_assoc]

/-- A write lists the written slot and the slots that were listed, no others. -/
theorem Memory.mem_write_fst {m : Memory} {a : Nat} {v : Sample} {e : Nat × Sample} (h : e ∈ m.write a v) :
    e.1 = a ∨ ∃ e' ∈ m, e'.1 = e.1 := by
  induction m with
  | nil => simp [Memory.write] at h; simp [h]
  | cons x m ih =>
    obtain ⟨k, w⟩ := x
    unfold Memory.write at h
    split at h
    · rcases List.mem_cons.1 h with rfl | h
      · exact .inl rfl
      · exact .inr ⟨e, h, rfl⟩
    · split at h
      · rcases List.mem_cons.1 h with rfl | h
        · exact .inl rfl
        · exact .inr ⟨e, List.mem_cons_of_mem _ h, rfl⟩
      · rcases List.mem_cons.1 h with rfl | h
        · exact .inr ⟨(k, w), List.mem_cons_self, rfl⟩
        · rcases ih h with h | ⟨e', he', h⟩
          · exact .inl h
          · exact .inr ⟨e', List.mem_cons_of_mem _ he', h⟩

/-- Every write of a slot keeps the canonical form. -/
theorem Memory.write_wf {m : Memory} {a : Nat} {v : Sample} (hm : m.wf = true) (ha : a < 1024) :
    (m.write a v).wf = true := by
  induction m with
  | nil => simp [Memory.write, Memory.wf, ha]
  | cons e m ih =>
    obtain ⟨k, w⟩ := e
    obtain ⟨hk, hlt, hrest⟩ := Memory.wf_cons.1 hm
    unfold Memory.write
    split
    · rename_i hak
      refine Memory.wf_cons.2 ⟨ha, fun e he => ?_, hm⟩
      rcases List.mem_cons.1 he with rfl | he
      · exact hak
      · exact hak.trans (hlt e he)
    · split
      · rename_i hak; subst hak
        exact Memory.wf_cons.2 ⟨ha, hlt, hrest⟩
      · refine Memory.wf_cons.2 ⟨hk, fun e he => ?_, ih hrest⟩
        rcases Memory.mem_write_fst he with h | ⟨e', he', h⟩
        · omega
        · have := hlt e' he'; omega

/-- In canonical form an address below every listed one is not listed. -/
theorem Memory.read?_eq_none {m : Memory} {a : Nat} (h : ∀ e ∈ m, a < e.1) : m.read? a = none := by
  induction m with
  | nil => rfl
  | cons e m ih =>
    obtain ⟨k, w⟩ := e
    have hk : a < k := h _ List.mem_cons_self
    simp [Memory.read?, Nat.ne_of_gt hk, ih fun e he => h e (List.mem_cons_of_mem _ he)]

@[simp] theorem Channel.slot_store_same (c : Nat) (ch : Channel) (a : SlotAddr) (v : Sample) (e : Bool) :
    (ch.store a v e).slot c a = v := by
  simp [Channel.slot]

@[simp] theorem Channel.slot_store_other (c : Nat) (ch : Channel) {a a' : SlotAddr} (v : Sample) (e : Bool)
    (h : a' ≠ a) : (ch.store a v e).slot c a' = ch.slot c a' := by
  have : a'.toNat ≠ a.toNat := fun h' => h (BitVec.eq_of_toNat_eq h')
  simp [Channel.slot, this]

@[simp] theorem Channel.slot_tick (c d : Nat) (ch : Channel) (a : SlotAddr) :
    (ch.tick d).slot c a = ch.slot c a := by
  simp [Channel.slot]

theorem Channel.store_wf {ch : Channel} (h : ch.sb.wf = true) (a : SlotAddr) (v : Sample) (e : Bool) :
    (ch.store a v e).sb.wf = true := Memory.write_wf h a.isLt

theorem Channel.applyWord_wf {ch : Channel} (h : ch.sb.wf = true) (w : CommandWord) :
    (ch.applyWord w).sb.wf = true := Channel.store_wf h _ _ _

theorem Channel.tick_wf {ch : Channel} (h : ch.sb.wf = true) (c : Nat) : (ch.tick c).sb.wf = true := by
  simpa using h

/-- The sample buffers at reset are in canonical form. -/
theorem State.reset_buffers_wf : ∀ ch ∈ State.reset.channels, ch.sb.wf = true := by
  intro ch h
  rw [List.eq_of_mem_replicate h]
  rfl

end Sys2Proof.Machine
end

