-- ==== Sys2Proof/Laws/Step.lean ====
section
/-!
SUPPORT. Laws/Step: what beginning an operation, a batch, an operation and a step can be, each said once.
-/

namespace Sys2Proof.Machine

variable {s t : State}

/-! ### Beginning an operation -/

/-- The outcome is no next state. -/
def Stopped (o : Host.Outcome State Fault Refusal) : Prop := ∀ t, o ≠ .next t

theorem stopped_fault (f : Fault) : Stopped (.fault f) := fun _ h => by cases h
theorem stopped_refused (r : Refusal) : Stopped (.refused r) := fun _ h => by cases h

/-- An entry either hands its steps on or stops, whatever is done with the steps; it hands them on only where the driver
is free and not halted. -/
def EntersOrStops (s : State)
    (enter : (List BusStep → Host.Outcome State Fault Refusal) → Host.Outcome State Fault Refusal) : Prop :=
  (s.bus.halted = false ∧ s.bus.todo = [] ∧ ∃ ms, ∀ k, enter k = k ms) ∨
  (∃ o, Stopped o ∧ ∀ k, enter k = o)

theorem whenDriverFree_enters
    {enter : (List BusStep → Host.Outcome State Fault Refusal) → Host.Outcome State Fault Refusal}
    (h : (∃ ms, ∀ k, enter k = k ms) ∨ ∃ o, Stopped o ∧ ∀ k, enter k = o) :
    EntersOrStops s fun k => whenDriverFree s (enter k) := by
  by_cases hh : s.bus.halted
  · exact .inr ⟨_, stopped_refused _, fun k => unlessHalted_halted hh _⟩
  · have hh : s.bus.halted = false := by simpa using hh
    by_cases hf : s.bus.todo = []
    · rcases h with ⟨ms, h⟩ | ⟨o, ho, h⟩
      · exact .inl ⟨hh, hf, ms, fun k => (whenDriverFree_of hh hf _).trans (h k)⟩
      · exact .inr ⟨o, ho, fun k => (whenDriverFree_of hh hf _).trans (h k)⟩
    · exact .inr ⟨_, stopped_refused _, fun k => whenDriverFree_busy hh hf _⟩

theorem whenBusIdle_enters
    {enter : (List BusStep → Host.Outcome State Fault Refusal) → Host.Outcome State Fault Refusal}
    (h : (∃ ms, ∀ k, enter k = k ms) ∨ ∃ o, Stopped o ∧ ∀ k, enter k = o) :
    EntersOrStops s fun k => whenBusIdle s (enter k) := by
  refine whenDriverFree_enters ?_
  by_cases hp : s.bus.phase = .idle
  · simpa [hp] using h
  · exact .inr ⟨_, stopped_fault _, fun k => if_neg hp⟩

theorem withDac_enters (i : Nat) (steps : DacIndex → List BusStep) :
    (∃ ms, ∀ k : List BusStep → Host.Outcome State Fault Refusal, withDac i (fun j => k (steps j)) = k ms) ∨
    ∃ o, Stopped o ∧
      ∀ k : List BusStep → Host.Outcome State Fault Refusal, withDac i (fun j => k (steps j)) = o := by
  cases h : dacIndex? i with
  | some d => exact .inl ⟨steps d, fun k => withDac_of h _⟩
  | none => exact .inr ⟨_, stopped_refused _, fun k => withDac_none h _⟩

/-- A bus-driver operation begun and the same operation run have one entry: both take the same steps, or both stop in
the same way. -/
theorem start_exec (i : Instr) (s : State) (h : onBusDriver i = true) :
    (s.bus.halted = false ∧ s.bus.todo = [] ∧ ∃ ms, start i s = beginOperation s ms ∧ exec i s = runOperation s ms) ∨
    (∃ o, Stopped o ∧ start i s = o ∧ exec i s = o) := by
  have key : ∀ {enter}, EntersOrStops s enter → start i s = enter (beginOperation s) →
      exec i s = enter (runOperation s) →
      (s.bus.halted = false ∧ s.bus.todo = [] ∧
        ∃ ms, start i s = beginOperation s ms ∧ exec i s = runOperation s ms) ∨
      (∃ o, Stopped o ∧ start i s = o ∧ exec i s = o) := by
    intro enter he h1 h2
    rcases he with ⟨hh, hf, ms, hk⟩ | ⟨o, ho, hk⟩
    · exact .inl ⟨hh, hf, ms, h1.trans (hk _), h2.trans (hk _)⟩
    · exact .inr ⟨o, ho, h1.trans (hk _), h2.trans (hk _)⟩
  cases i with
  | writeRegister j r d => exact key (whenBusIdle_enters (withDac_enters j _)) rfl rfl
  | rdP1 j r => exact key (whenBusIdle_enters (withDac_enters j _)) rfl rfl
  | readRegister j r => exact key (whenBusIdle_enters (withDac_enters j _)) rfl rfl
  | timingStatus j => exact key (whenBusIdle_enters (withDac_enters j _)) rfl rfl
  | initIdRead j => exact key (whenBusIdle_enters (withDac_enters j _)) rfl rfl
  | initCalWriteA j => exact key (whenBusIdle_enters (withDac_enters j _)) rfl rfl
  | initCalWriteB j => exact key (whenBusIdle_enters (withDac_enters j _)) rfl rfl
  | getDacTimingStatus j => exact key (whenBusIdle_enters (withDac_enters j _)) rfl rfl
  | bringUp => exact key (whenBusIdle_enters (.inl ⟨_, fun _ => rfl⟩)) rfl rfl
  | dacReset => exact key (whenBusIdle_enters (.inl ⟨_, fun _ => rfl⟩)) rfl rfl
  | busConfig _ _ _ _ => exact key (whenBusIdle_enters (.inl ⟨_, fun _ => rfl⟩)) rfl rfl
  | busXfer _ => exact key (whenBusIdle_enters (.inl ⟨_, fun _ => rfl⟩)) rfl rfl
  | initDacBank => exact key (whenBusIdle_enters (.inl ⟨_, fun _ => rfl⟩)) rfl rfl
  | rdP2 j r =>
    refine key (enter := fun k => enterRdP2 j r s k) (whenDriverFree_enters ?_) rfl rfl
    cases hp : s.bus.phase with
    | idle =>
      cases hd : dacIndex? j with
      | some d => exact .inr ⟨_, stopped_fault _, fun k => withDac_of hd _⟩
      | none => exact .inr ⟨_, stopped_refused _, fun k => withDac_none hd _⟩
    | readOpen j' q =>
      by_cases hc : j = j'.val ∧ trunc5 r = q
      · exact .inl ⟨_, fun k => if_pos hc⟩
      · exact .inr ⟨_, stopped_fault _, fun k => if_neg hc⟩
  | wr _ _ _ | encode _ _ _ | decode _ _ | tick _ | writeSample _ _ _ | writeSamples _ _ | setEnable _ _ => cases h

/-- The entry of a bus-driver operation reads the driver's status, its steps still to take, its phase and the launch
parameters, and nothing else: from states that agree on these the same steps are begun, and the same steps are run. -/
theorem start_congr {i : Instr} {s s' : State} {ms : List BusStep} (hi : onBusDriver i = true)
    (hh : s'.bus.halted = s.bus.halted) (hf : s'.bus.todo = s.bus.todo) (hp : s'.bus.phase = s.bus.phase)
    (hq : s'.params = s.params) (h : start i s = beginOperation s ms) :
    start i s' = beginOperation s' ms ∧ exec i s' = runOperation s' ms := by
  have inj : ∀ {ms'}, beginOperation s ms' = beginOperation s ms → ms' = ms := fun h => by
    simpa [beginOperation] using h
  have idle : ∀ {ms'}, whenBusIdle s (beginOperation s ms') = beginOperation s ms →
      ∀ k : List BusStep → Host.Outcome State Fault Refusal, whenBusIdle s' (k ms') = k ms := by
    intro ms' h k
    obtain ⟨h1, h2, h3, h4⟩ := whenBusIdle_next h
    rw [whenBusIdle_of (by rw [hh, h1]) (by rw [hf, h2]) (by rw [hp, h3]), inj h4]
  have dac : ∀ {n} {f : DacIndex → List BusStep},
      whenBusIdle s (withDac n fun j => beginOperation s (f j)) = beginOperation s ms →
      ∀ k : List BusStep → Host.Outcome State Fault Refusal, whenBusIdle s' (withDac n fun j => k (f j)) = k ms := by
    intro n f h k
    obtain ⟨h1, h2, h3, h4⟩ := whenBusIdle_next h
    obtain ⟨d, hd, h5⟩ := withDac_next h4
    rw [whenBusIdle_of (by rw [hh, h1]) (by rw [hf, h2]) (by rw [hp, h3]), withDac_of hd, inj h5]
  have bring : ∀ k, enterBringUp s' k = whenBusIdle s' (k (bringUpSteps s.params.tSettle)) := fun k => by
    rw [enterBringUp, hq]
  cases i with
  | writeRegister | rdP1 | readRegister | timingStatus | initIdRead | initCalWriteA | initCalWriteB
  | getDacTimingStatus => exact ⟨dac h (beginOperation s'), dac h (runOperation s')⟩
  | dacReset | busConfig | busXfer => exact ⟨idle h (beginOperation s'), idle h (runOperation s')⟩
  | bringUp | initDacBank =>
    exact ⟨(bring _).trans (idle h (beginOperation s')), (bring _).trans (idle h (runOperation s'))⟩
  | rdP2 j r =>
    simp only [start, enterRdP2] at h
    obtain ⟨h1, h2, _⟩ := whenDriverFree_next h
    rw [whenDriverFree_of h1 h2] at h
    simp only [start, exec, execRdP2, enterRdP2]
    rw [whenDriverFree_of (by rw [hh, h1]) (by rw [hf, h2]), whenDriverFree_of (by rw [hh, h1]) (by rw [hf, h2]), hp]
    split at h
    · split at h
      · rename_i hc
        rw [if_pos hc, if_pos hc, inj h]
        exact ⟨rfl, rfl⟩
      · cases h
    · obtain ⟨_, _, h⟩ := withDac_next h
      cases h
  | wr _ _ _ | encode _ _ _ | decode _ _ | tick _ | writeSample _ _ _ | writeSamples _ _ | setEnable _ _ => cases hi

/-- Everything beginning an operation can do: its steps become the driver's to take, or the batch's, or the operation
is one step and is done. -/
theorem start_cases {i : Instr} (h : start i s = .next t) :
    (∃ ms, onBusDriver i = true ∧ s.bus.halted = false ∧ s.bus.todo = [] ∧ exec i s = runOperation s ms ∧
      t = { s with bus := { s.bus with todo := ms } }) ∨
    (∃ c vs, i = .writeSamples c vs ∧ beginBatch c vs s = .next t) ∨
    (onBusDriver i = false ∧ (∀ c vs, i ≠ .writeSamples c vs) ∧ exec i s = .next t) := by
  by_cases hb : onBusDriver i = true
  · rcases start_exec i s hb with ⟨hh, hf, ms, h1, h2⟩ | ⟨o, ho, h1, _⟩
    · rw [h1] at h
      cases h
      exact .inl ⟨ms, hb, hh, hf, h2, rfl⟩
    · exact absurd (h1.symm.trans h) (ho t)
  · cases i with
    | writeSamples c vs => exact .inr (.inl ⟨c, vs, rfl, h⟩)
    | wr _ _ _ | encode _ _ _ | decode _ _ | tick _ | writeSample _ _ _ | setEnable _ _ =>
      exact .inr (.inr ⟨rfl, nofun, h⟩)
    | _ => simp [onBusDriver] at hb

/-! ### A batch -/

theorem beginBatch_next {c : Nat} {vs : List Int} (h : beginBatch c vs s = .next t) :
    (vs = [] ∨ c < s.channels.length) ∧
      t = { s with batch := s.batch ++ batchSteps c s.params.facadeLoadEnable 0 vs } := by
  unfold beginBatch at h
  split at h
  · cases h
  · cases h
    rename_i hc
    refine ⟨?_, rfl⟩
    cases vs with
    | nil => exact .inl rfl
    | cons v vs => exact .inr (by simpa using hc)

/-- The words of a batch are for its channel. -/
theorem batchSteps_word {c : Nat} {e : Bool} : ∀ {vs : List Int} {k d : Nat} {w : CommandWord},
    BatchStep.word d w ∈ batchSteps c e k vs → d = c := by
  intro vs
  induction vs with
  | nil => intro k d w h; cases h
  | cons v vs ih =>
    intro k d w h
    cases vs with
    | nil => simp [batchSteps] at h; exact h.1
    | cons x xs =>
      rw [batchSteps] at h
      simp at h
      exact h.elim (·.1) ih

/-- What words and gaps leave of a channel: its pointer, output and test point, and the canonical form of its buffer. -/
structure WordsKeep (chs chs' : List Channel) : Prop where
  length : chs'.length = chs.length
  play   : ∀ d : Nat, (chs'[d]?).map (fun ch => (ch.rp, ch.out, ch.tpDraws)) =
    (chs[d]?).map (fun ch => (ch.rp, ch.out, ch.tpDraws))
  wf     : (∀ ch ∈ chs, ch.sb.wf = true) → ∀ ch ∈ chs', ch.sb.wf = true

theorem WordsKeep.refl (chs : List Channel) : WordsKeep chs chs := ⟨rfl, fun _ => rfl, id⟩

theorem WordsKeep.trans {a b c : List Channel} (h : WordsKeep a b) (h' : WordsKeep b c) : WordsKeep a c :=
  ⟨h'.length.trans h.length, fun d => (h'.play d).trans (h.play d), fun w => h'.wf (h.wf w)⟩

/-- A channel's pointer and output stay. -/
theorem WordsKeep.kept {chs chs' : List Channel} (h : WordsKeep chs chs') {c : Nat} {ch : Channel}
    (hc : chs[c]? = some ch) : ∃ ch', chs'[c]? = some ch' ∧ ch'.rp = ch.rp ∧ ch'.out = ch.out := by
  have hp := h.play c
  rw [hc] at hp
  cases h' : chs'[c]? with
  | none => rw [h'] at hp; cases hp
  | some ch' =>
    rw [h'] at hp
    simp at hp
    exact ⟨ch', rfl, hp.1, hp.2.1⟩

/-- A command word for one channel. -/
theorem WordsKeep.word {chs : List Channel} {c : Nat} {ch : Channel} (h : chs[c]? = some ch) (w : CommandWord) :
    WordsKeep chs (chs.set c (ch.applyWord w)) := by
  refine ⟨by simp, fun d => ?_, fun hw ch' hc => ?_⟩
  · by_cases hd : c = d
    · subst hd
      have := (List.getElem?_eq_some_iff.1 h).1
      rw [h, List.getElem?_set_self this]
      rfl
    · rw [List.getElem?_set_ne hd]
  · rcases List.mem_or_eq_of_mem_set hc with hc | rfl
    · exact hw ch' hc
    · exact Channel.applyWord_wf (hw ch (List.mem_of_getElem? h)) w

/-- Everything one step of a batch can do. -/
theorem BatchStep.perform_next {m : BatchStep} (h : m.perform s = .next t) :
    (∃ c w ch, m = .word c w ∧ s.channels[c]? = some ch ∧
      t = { s with channels := s.channels.set c (ch.applyWord w) }) ∨
    (m = .gap ∧ t = { s with bus := s.bus.emit (.delay .writeGap 100) }) := by
  cases m with
  | word c w =>
    obtain ⟨ch, hc, rfl⟩ := onChannel_next h
    exact .inl ⟨c, w, ch, rfl, hc, rfl⟩
  | gap => cases h; exact .inr ⟨rfl, rfl⟩

/-- Everything the steps of a batch can do: words for channels, some gap events, and what is left of the batch. -/
theorem runBatch_next : ∀ {ms : List BatchStep} {s t : State}, runBatch ms s = .next t →
    ∃ (chs : List Channel) (n : Nat) (done : List BatchStep), ms = done ++ t.batch ∧ WordsKeep s.channels chs ∧
      (s.bus.phase ≠ .idle → n = 0) ∧ (t.batch = [] ∨ s.bus.phase ≠ .idle) ∧
      t = { s with
        channels := chs
        bus := { s.bus with trace := s.bus.trace ++ List.replicate n (.delay .writeGap 100) }
        batch := t.batch } := by
  intro ms
  induction ms with
  | nil =>
    intro s t h
    cases h
    exact ⟨s.channels, 0, [], rfl, WordsKeep.refl _, fun _ => rfl, .inl rfl, by simp⟩
  | cons m ms ih =>
    intro s t h
    rw [runBatch] at h
    split at h
    · rename_i hw
      cases h
      refine ⟨s.channels, 0, [], rfl, WordsKeep.refl _, fun _ => rfl, .inr ?_, by simp⟩
      cases m <;> simp [BatchStep.waits] at hw
      exact hw
    · rename_i hw
      cases hp : m.perform s with
      | next s' =>
        rw [hp] at h
        obtain ⟨chs, n, done, hd, hk, hn, hl, ht⟩ := ih h
        rcases BatchStep.perform_next hp with ⟨c, w, ch, _, hc, rfl⟩ | ⟨rfl, rfl⟩
        · exact ⟨chs, n, m :: done, by rw [hd]; rfl, (WordsKeep.word hc w).trans hk, hn, hl, ht⟩
        · have hi : s.bus.phase = .idle := by simpa [BatchStep.waits] using hw
          refine ⟨chs, n + 1, .gap :: done, by rw [hd]; rfl, hk, fun h => absurd hi h, hl, ?_⟩
          rw [ht]
          simp [Bus.emit, List.replicate_succ]
      | fault f => rw [hp] at h; cases h
      | refused r => rw [hp] at h; cases h

theorem execWriteSamples_next {c : Nat} {vs : List Int} (h : execWriteSamples c vs s = .next t) :
    (vs = [] ∨ c < s.channels.length) ∧
      ∃ ms, ms = s.batch ++ batchSteps c s.params.facadeLoadEnable 0 vs ∧ runBatch ms { s with batch := ms } = .next t := by
  unfold execWriteSamples at h
  split at h
  · rename_i s' hb
    obtain ⟨hc, rfl⟩ := beginBatch_next hb
    exact ⟨hc, _, rfl, h⟩
  · cases h
  · cases h

/-! ### Everything an operation can be -/

/-- Everything an operation that answers a next state is: the steps of a bus-driver operation, a step of one channel, a
value for the caller, or the steps of a batch. -/
theorem exec_cases {i : Instr} (h : exec i s = .next t) :
    (onBusDriver i = true ∧ s.bus.halted = false ∧ s.bus.todo = [] ∧ ∃ ms o b, exec i s = runOperation s ms ∧
      Bus.run ms s.returned s.bus = some (o, b) ∧ t = { s with bus := b, returned := o }) ∨
    (∃ c f ch, onBusDriver i = false ∧ (∀ c vs, i ≠ .writeSamples c vs) ∧
      ((i = .tick c ∧ f = Channel.tick c) ∨ ((∀ c, i ≠ .tick c) ∧ ∃ w, f = Channel.applyWord w)) ∧
      s.channels[c]? = some ch ∧ t = { s with channels := s.channels.set c (f ch) }) ∨
    (∃ r, onBusDriver i = false ∧ ((∃ a v e, i = .encode a v e) ∨ ∃ la p, i = .decode la p) ∧
      t = { s with returned := r }) ∨
    (∃ c vs, i = .writeSamples c vs ∧ execWriteSamples c vs s = .next t) := by
  by_cases hb : onBusDriver i = true
  · rcases start_exec i s hb with ⟨hh, hf, ms, _, h2⟩ | ⟨o, ho, _, h2⟩
    · obtain ⟨o, b, hr, ht⟩ := runOperation_next (h2.symm.trans h)
      exact .inl ⟨hb, hh, hf, ms, o, b, h2, hr, ht⟩
    · exact absurd (h2.symm.trans h) (ho t)
  · have word : ∀ {c w}, onChannel c (Channel.applyWord w) s = .next t → (∀ c, i ≠ .tick c) →
        (∀ c vs, i ≠ .writeSamples c vs) →
        ∃ c f ch, onBusDriver i = false ∧ (∀ c vs, i ≠ .writeSamples c vs) ∧
          ((i = .tick c ∧ f = Channel.tick c) ∨ ((∀ c, i ≠ .tick c) ∧ ∃ w, f = Channel.applyWord w)) ∧
          s.channels[c]? = some ch ∧ t = { s with channels := s.channels.set c (f ch) } := by
      intro c w hw hi hi'
      obtain ⟨ch, hc, ht⟩ := onChannel_next hw
      exact ⟨c, _, ch, by simpa using hb, hi', .inr ⟨hi, w, rfl⟩, hc, ht⟩
    cases i with
    | wr c la p => exact .inr (.inl (word h nofun nofun))
    | writeSample c a v => exact .inr (.inl (word h nofun nofun))
    | setEnable c e => exact .inr (.inl (word h nofun nofun))
    | tick c =>
      obtain ⟨ch, hc, ht⟩ := onChannel_next h
      exact .inr (.inl ⟨c, _, ch, rfl, nofun, .inl ⟨rfl, rfl⟩, hc, ht⟩)
    | encode a v e => cases h; exact .inr (.inr (.inl ⟨_, rfl, .inl ⟨a, v, e, rfl⟩, rfl⟩))
    | decode la p => cases h; exact .inr (.inr (.inl ⟨_, rfl, .inr ⟨la, p, rfl⟩, rfl⟩))
    | writeSamples c vs => exact .inr (.inr (.inr ⟨c, vs, rfl, h⟩))
    | _ => simp [onBusDriver] at hb

/-! ### One step of the machine -/

theorem keepMark_next {o : Host.Outcome State Fault Refusal} (h : keepMark s o = .next t) :
    o = .next t ∨ ∃ r, (r = .badDacIndex ∨ r = .driverHalted) ∧ o = .refused r ∧
      t = { s with marks := s.marks ++ [r] } := by
  unfold keepMark at h
  split at h <;> cases h
  · exact .inr ⟨_, .inl rfl, rfl, rfl⟩
  · exact .inr ⟨_, .inr rfl, rfl, rfl⟩
  · exact .inl rfl

/-- What a step of the machine does. -/
inductive StepKind (s t : State) : Prop where
  /-- An operation runs. -/
  | run (i : Instr) (wf : i.wellFormed = true) (h : exec i s = .next t)
  /-- An operation begins. -/
  | begun (i : Instr) (wf : i.wellFormed = true) (h : start i s = .next t)
  /-- A refusal leaves its mark. -/
  | mark (r : Refusal) (hr : r = .badDacIndex ∨ r = .driverHalted) (h : t = { s with marks := s.marks ++ [r] })
  /-- The bus driver takes the next step of its operation in progress. -/
  | driver (m : BusStep) (ms : List BusStep) (hd : s.bus.todo = m :: ms) (hh : s.bus.halted = false)
      (h : driverStep m ms s = .next t)
  /-- The next step of the batch in progress. -/
  | batch (m : BatchStep) (ms : List BatchStep) (hb : s.batch = m :: ms) (hw : m.waits s = false)
      (h : m.perform { s with batch := ms } = .next t)

theorem clockTurn_kind (h : clockTurn s = .next t) : ∃ n, StepKind { s with unasked := n } t := ⟨_, .run _ rfl h⟩

theorem driverTurn_kind (h : driverTurn s = .next t) : ∃ n, StepKind { s with unasked := n } t := by
  unfold driverTurn at h
  split at h
  · exact clockTurn_kind h
  · split at h
    · exact clockTurn_kind h
    · exact ⟨s.unasked, .driver _ _ ‹_› (by simp_all) h⟩

theorem batchTurn_kind (h : batchTurn s = .next t) : ∃ n, StepKind { s with unasked := n } t := by
  unfold batchTurn at h
  split at h
  · exact clockTurn_kind h
  · split at h
    · exact clockTurn_kind h
    · rename_i hw
      exact ⟨s.unasked, .batch _ _ ‹_› (Bool.eq_false_iff.2 hw) h⟩

theorem checked_ok {i j : Instr} (h : checked i = .ok j) : j = i ∧ i.wellFormed = true := by
  unfold checked at h
  split at h <;> cases h
  exact ⟨rfl, ‹_›⟩

/-- What a stimulus runs or begins is well formed. -/
theorem readStimulus_wellFormed {q : Stimulus} {m : Move} (h : readStimulus q = .ok m) :
    ∀ i, m = .run i ∨ m = .invoke i → i.wellFormed = true := by
  have key : ∀ {j : Instr} {f : Instr → Move}, (f = .run ∨ f = .invoke) → (checked j).map f = .ok m →
      ∀ i, m = .run i ∨ m = .invoke i → i.wellFormed = true := by
    intro j f hf h i hi
    cases hc : checked j with
    | error e => rw [hc] at h; cases h
    | ok j' =>
      rw [hc] at h
      cases h
      obtain ⟨rfl, hw⟩ := checked_ok hc
      rcases hf with rfl | rfl <;> rcases hi with hi | hi <;> cases hi <;> exact hw
  cases q with
  | wire q =>
    simp only [readStimulus] at h
    cases hw : readWire q with
    | error e => rw [hw] at h; cases h
    | ok j => rw [hw] at h; exact key (.inl rfl) h
  | call j => exact key (.inl rfl) h
  | start j => exact key (.inr rfl) h
  | driver => cases h; rintro i (h | h) <;> cases h
  | batch => cases h; rintro i (h | h) <;> cases h

/-- Everything a step can be, in a state that differs from the given one only in the agenda and the counter of free
choices. -/
theorem step_cases (h : step s = .next t) : ∃ ag n, StepKind { s with agenda := ag, unasked := n } t := by
  unfold step at h
  split at h
  · unfold freeTurn at h
    split at h
    · exact ⟨s.agenda, clockTurn_kind h⟩
    · exact ⟨s.agenda, driverTurn_kind (s := { s with unasked := s.unasked + 1 }) h⟩
    · exact ⟨s.agenda, batchTurn_kind (s := { s with unasked := s.unasked + 1 }) h⟩
  · rename_i q rest hq
    split at h
    · rename_i m hm
      have hwf := readStimulus_wellFormed hm
      split at h
      · exact ⟨s.agenda, driverTurn_kind h⟩
      · cases m with
        | run i =>
          rcases keepMark_next h with h | ⟨r, hr, _, h⟩
          · exact ⟨rest, s.unasked, .run i (hwf i (.inl rfl)) h⟩
          · exact ⟨rest, s.unasked, .mark r hr h⟩
        | invoke i =>
          rcases keepMark_next h with h | ⟨r, hr, _, h⟩
          · exact ⟨rest, s.unasked, .begun i (hwf i (.inr rfl)) h⟩
          · exact ⟨rest, s.unasked, .mark r hr h⟩
        | driver => exact ⟨rest, driverTurn_kind h⟩
        | batch => exact ⟨rest, batchTurn_kind h⟩
    · cases h

/-! ### Runs of steps -/

theorem run_succ (M : Host.Core) (n : Nat) (s : M.State) : M.run (n + 1) s =
    match M.step s with
    | .next t => M.run n t
    | .fault r => .fault r
    | .refused r => .refused r := rfl

/-- A run whose first step answers a next state. -/
theorem core_run_next (n : Nat) (h : step s = .next t) : Host.Core.run core (n + 1) s = Host.Core.run core n t := by
  have e := run_succ core n s
  rw [show core.step s = .next t from h] at e
  exact e

end Sys2Proof.Machine
end

