-- ==== Sys2Proof/Laws/Invariant.lean ====
section
/-!
SUPPORT. Laws/Invariant: the driver's invariant through the steps of an operation. What each list of steps leaves of a
driver that may start, said once per list and put together where one list follows another; and that the invariant reads
neither the steps still to take nor the order of the trace.
-/

namespace Sys2Proof.Machine

/-! ### Steps that end in a condition -/

/-- The driver is sound through the steps `ms`, settled after the exception, and meets `P` after the last. -/
def Bus.SoundTo (P : Bus → Prop) : List BusStep → Bus → Prop
  | [], b => P b
  | m :: ms, b => b.Always ∧ ∀ o o' b', m.perform o b = some (o', b') →
      if b'.halted then b'.Settled else Bus.SoundTo P ms b'

variable {b b' : Bus} {P Q : Bus → Prop}

theorem Bus.soundTo_append {ys : List BusStep} (h : ∀ b, P b → Bus.SoundTo Q ys b) :
    ∀ {xs : List BusStep} {b : Bus}, Bus.SoundTo P xs b → Bus.SoundTo Q (xs ++ ys) b := by
  intro xs
  induction xs with
  | nil => intro b hb; exact h b hb
  | cons m ms ih =>
    intro b hb
    refine ⟨hb.1, fun o o' b' hp => ?_⟩
    have h' := hb.2 o o' b' hp
    split
    · rwa [if_pos ‹_›] at h'
    · rw [if_neg ‹_›] at h'
      exact ih h'

theorem Bus.SoundTo.sound (h : ∀ b, P b → b.Settled) :
    ∀ {ms : List BusStep} {b : Bus}, Bus.SoundTo P ms b → Bus.Sound ms b := by
  intro ms
  induction ms with
  | nil => intro b hb; exact h b hb
  | cons m ms ih =>
    intro b hb
    refine ⟨hb.1, fun o o' b' hp => ?_⟩
    have h' := hb.2 o o' b' hp
    split
    · rwa [if_pos ‹_›] at h'
    · rw [if_neg ‹_›] at h'
      exact ih h'

/-! ### What a settled driver is between operations -/

/-- A settled driver that may start an operation. -/
structure Bus.AtRest (b : Bus) : Prop extends Bus.Settled b where
  idle : b.phase = .idle
  live : b.halted = false

/-- A settled driver with a read open. -/
structure Bus.Reading (i : DacIndex) (r : RegAddr) (b : Bus) : Prop extends Bus.Settled b where
  phase : b.phase = .readOpen i r
  live  : b.halted = false

theorem Bus.not_failed (h : b.halted = false) {i : DacIndex} {v : RegData} : b.initStatus ≠ .failed i v := fun e => by
  rw [Bus.halted_eq_true.2 ⟨i, v, e⟩] at h
  cases h

/-- A change of the configuration, of the reset line and of the trace keeps what always holds of a running driver. -/
theorem Bus.Always.update (h : b.Always) (hl : b.halted = false) {c : BusCfg} (hc : csLegal c.cs = true) (l : Bool)
    (tr : List Event) : ({ b with cfg := c, dacReset := l, trace := tr } : Bus).Always :=
  ⟨hc, h.lineLegal, h.openHolds, h.linesOrder, h.linesAfter, fun _ _ e => absurd e (Bus.not_failed hl)⟩

theorem Bus.Settled.update (h : b.Settled) (hl : b.halted = false) {c : BusCfg} (hc : csLegal c.cs = true)
    (tr : List Event) : ({ b with cfg := c, trace := tr } : Bus).Settled :=
  ⟨h.toAlways.update hl hc b.dacReset tr, h.resetLow, h.linesAgree, h.linesBefore⟩

theorem csLegal_csMask (i : DacIndex) : csLegal (csMask i) = true := by revert i; decide

theorem Bus.xfer_csLine {f : Frame} {x : Option Captured} (h : b.xfer f = some (x, b')) :
    b'.csLine = if b.cfg.ends then .released else .asserted b.cfg.cs := by
  rcases (Bus.xfer_cases h).2 with ⟨_, _, rfl⟩ | ⟨_, _, rfl⟩
  · rfl
  · rw [Bus.draw_eq]; rfl

/-- A transfer of a settled driver, with the phase then idle. -/
theorem Bus.xfer_atRest {f : Frame} {x : Option Captured} (h : b.xfer f = some (x, b')) (hs : b.Settled)
    (hl : b.halted = false) : ({ b' with phase := .idle } : Bus).AtRest := by
  obtain ⟨_, c1, c2, c3, c4, c5, c6, c7, c8⟩ := Bus.xfer_frame h
  have hc := Bus.xfer_csLine h
  refine ⟨⟨⟨by rw [c1]; exact hs.cfgLegal, fun m hm => ?_, nofun, by simp only [c4, c5, c6]; exact hs.linesOrder,
    by simp only [c6, c7]; exact hs.linesAfter, by simp only [c7]; exact fun _ _ e => absurd e (Bus.not_failed hl)⟩,
    c3.trans hs.resetLow, by simp only [c4, c5, c6]; exact hs.linesAgree,
    by simp only [c4, c7]; exact hs.linesBefore⟩, rfl, (Bus.halted_congr c7).trans hl⟩
  simp only [hc] at hm
  split at hm <;> cases hm
  exact hs.cfgLegal

/-! ### Each list of steps -/

theorem Bus.AtRest.config (h : b.AtRest) {c : BusCfg} (hc : csLegal c.cs = true) : (b.config c).AtRest :=
  ⟨h.toSettled.update h.live hc _, h.idle, h.live⟩

theorem Bus.SoundTo.config {c : BusCfg} {ms : List BusStep} (ha : b.Always) (hl : b.halted = false)
    (h : Bus.SoundTo P ms (b.config c)) : Bus.SoundTo P (.config c :: ms) b := by
  refine ⟨ha, fun o o' b' hp => ?_⟩
  cases hp
  rwa [if_neg (by simp [hl])]

theorem Bus.AtRest.xfer {f : Frame} {x : Option Captured} (h : b.AtRest) (hx : b.xfer f = some (x, b')) :
    b'.AtRest := by
  have h' := Bus.xfer_atRest hx h.toSettled h.live
  have hp := (Bus.xfer_frame hx).2.2.1
  rwa [show ({ b' with phase := .idle } : Bus) = b' by cases b'; simp_all [h.idle]] at h'

/-- A transfer whose operation leaves the phase. -/
theorem Bus.AtRest.soundTo_xfer (h : b.AtRest) (f : Frame) {a : AfterXfer} (ha : a = .done ∨ a = .giveBits) :
    Bus.SoundTo Bus.AtRest [.xfer f a] b := by
  refine ⟨h.toAlways, fun o o' b' hp => ?_⟩
  simp only [BusStep.perform] at hp
  split at hp
  · have h' := h.xfer ‹_›
    rcases ha with rfl | rfl <;> cases hp <;> (rw [if_neg (by simp [h'.live])]; exact h')
  · cases hp

theorem Bus.AtRest.soundTo_config (h : b.AtRest) {c : BusCfg} (hc : csLegal c.cs = true) :
    Bus.SoundTo Bus.AtRest [.config c] b := Bus.SoundTo.config h.toAlways h.live (h.config hc)

theorem Bus.AtRest.soundTo_delay (h : b.AtRest) (k : DelayKind) (n : Nat) :
    Bus.SoundTo Bus.AtRest [.delay k n] b := by
  refine ⟨h.toAlways, fun o o' b' hp => ?_⟩
  cases hp
  rw [if_neg (by simp [h.live])]
  exact ⟨h.toSettled.update h.live h.cfgLegal _, h.idle, h.live⟩

/-- `WRITE_REGISTER` (42_dac_bus.md R158). -/
theorem Bus.AtRest.soundTo_writeRegister (h : b.AtRest) (i : DacIndex) (r : RegAddr) (d : RegData) :
    Bus.SoundTo Bus.AtRest (writeRegisterSteps i r d) b :=
  Bus.soundTo_append (fun _ h => h.soundTo_xfer _ (.inl rfl)) (h.soundTo_config (csLegal_csMask i))

/-- Phase 1 of a read (42_dac_bus.md R161). -/
theorem Bus.AtRest.soundTo_readPhase1 (h : b.AtRest) (i : DacIndex) (r : RegAddr) :
    Bus.SoundTo (Bus.Reading i r) (readPhase1Steps i r) b := by
  have h' := h.config (c := ⟨csMask i, .b8, false, .out⟩) (csLegal_csMask i)
  refine Bus.SoundTo.config h.toAlways h.live ⟨h'.toAlways, fun o o' b' hp => ?_⟩
  simp only [BusStep.perform] at hp
  split at hp
  · rename_i x b₁ hx
    have h₁ := h'.xfer hx
    have hc := Bus.xfer_csLine hx
    cases hp
    rw [if_neg (show ¬({ b₁ with phase := .readOpen i r } : Bus).halted = true from Bool.eq_false_iff.1 h₁.live)]
    exact ⟨⟨⟨h₁.cfgLegal, h₁.lineLegal, by rintro j q ⟨⟩; exact hc, h₁.linesOrder, h₁.linesAfter,
      fun _ _ e => absurd e (Bus.not_failed h₁.live)⟩, h₁.resetLow, h₁.linesAgree, h₁.linesBefore⟩, rfl, h₁.live⟩
  · cases hp

/-- Phase 2 of a read, for the caller or for the identity check (42_dac_bus.md R162, 43_dac_bringup.md R181). -/
theorem Bus.Reading.soundTo_readPhase2 {i : DacIndex} {r : RegAddr} (h : b.Reading i r) {a : AfterXfer}
    (ha : a = .closeRead ∨ ∃ j, a = .checkIdentity j) : Bus.SoundTo Bus.AtRest (readPhase2Steps i r a) b := by
  have h' : (b.config ⟨csMask i, .b16, true, .hdIn⟩).Settled := h.toSettled.update h.live (csLegal_csMask i) _
  refine Bus.SoundTo.config h.toAlways h.live ⟨h'.toAlways, fun o o' b' hp => ?_⟩
  simp only [BusStep.perform] at hp
  split at hp
  · rename_i x b₁ hx
    have h₁ := Bus.xfer_atRest hx h' h.live
    have hc := Bus.xfer_csLine hx
    rcases AfterXfer.apply_cases hp with ⟨rfl, _, rfl⟩ | ⟨rfl, _, rfl⟩ | ⟨_, _, rfl, _, rfl⟩ | ⟨_, rfl, _, _, rfl⟩ |
      ⟨j, v, rfl, _, _, rfl⟩
    · simp at ha
    · simp at ha
    · simp at ha
    · rw [if_neg (Bool.eq_false_iff.1 h₁.live)]
      exact h₁
    · rcases Bus.checkIdentity_cases j v b₁ with ⟨_, e⟩ | ⟨hm, e⟩ <;> rw [e]
      · rw [if_neg (Bool.eq_false_iff.1 h₁.live)]
        exact h₁
      · rw [if_pos (show (Bus.raiseIdentityMismatch j v { b₁ with phase := .idle }).halted = true from rfl)]
        refine ⟨⟨h₁.cfgLegal, h₁.lineLegal, nofun, h₁.linesOrder, nofun, fun i' v' e' => ?_⟩, h₁.resetLow,
          h₁.linesAgree, nofun⟩
        cases e'
        refine ⟨rfl, hc, fun hv => ?_, by rw [Bus.raiseIdentityMismatch_eq]; simp⟩
        rw [(identityMatches_iff _).2 hv] at hm
        cases hm
  · cases hp

/-- `READ_REGISTER` (42_dac_bus.md R160), for the caller or for the identity check. -/
theorem Bus.AtRest.soundTo_readRegister (h : b.AtRest) (i : DacIndex) (r : RegAddr) {a : AfterXfer}
    (ha : a = .closeRead ∨ ∃ j, a = .checkIdentity j) : Bus.SoundTo Bus.AtRest (readRegisterSteps i r a) b :=
  Bus.soundTo_append (fun _ h => h.soundTo_readPhase2 ha) (h.soundTo_readPhase1 i r)

/-- `DAC_RESET` (42_dac_bus.md R156). -/
theorem Bus.AtRest.soundTo_reset (h : b.AtRest) : Bus.SoundTo Bus.AtRest resetSteps b := by
  have always (l : Bool) (tr : List Event) := h.toAlways.update h.live h.cfgLegal l tr
  have live : ¬ b.halted = true := Bool.eq_false_iff.1 h.live
  refine ⟨h.toAlways, fun _ _ _ hp => ?_⟩
  cases hp
  rw [if_neg (by exact live)]
  refine ⟨always _ _, fun _ _ _ hp => ?_⟩
  cases hp
  rw [if_neg (by exact live)]
  refine ⟨always _ _, fun _ _ _ hp => ?_⟩
  cases hp
  rw [if_neg (by exact live)]
  refine ⟨always _ _, fun _ _ _ hp => ?_⟩
  cases hp
  rw [if_neg (by exact live)]
  exact ⟨⟨always _ _, rfl, h.linesAgree, h.linesBefore⟩, h.idle, h.live⟩

/-- The board-level enable sequence (43_dac_bringup.md R183): between its steps the lines differ, in order. -/
theorem Bus.AtRest.soundTo_lines (h : b.AtRest) : Bus.SoundTo Bus.AtRest lineSteps b := by
  obtain ⟨a1, a2⟩ := h.linesAgree
  have live : ¬ b.halted = true := Bool.eq_false_iff.1 h.live
  have run : ∀ i v, b.initStatus ≠ .failed i v := fun _ _ => Bus.not_failed h.live
  refine ⟨h.toAlways, fun _ _ _ hp => ?_⟩
  cases hp
  rw [if_neg (by exact live)]
  refine ⟨⟨h.cfgLegal, h.lineLegal, h.openHolds, ?_, ?_, fun _ _ e => absurd e (run _ _)⟩, fun _ _ _ hp => ?_⟩
  · simp [Bus.assertLine_eq, a1, a2]
  · simpa [Bus.assertLine_eq] using h.linesAfter
  cases hp
  rw [if_neg (by exact live)]
  refine ⟨⟨h.cfgLegal, h.lineLegal, h.openHolds, ?_, ?_, fun _ _ e => absurd e (run _ _)⟩, fun _ _ _ hp => ?_⟩
  · simp [Bus.assertLine_eq, a1, a2]
  · simpa [Bus.assertLine_eq] using h.linesAfter
  cases hp
  rw [if_neg (by simp [Bus.halted, Bus.assertLine_eq])]
  exact ⟨⟨⟨h.cfgLegal, h.lineLegal, h.openHolds, by simp [Bus.assertLine_eq], by simp [Bus.assertLine_eq], nofun⟩,
    h.resetLow, by simp [Bus.assertLine_eq], nofun⟩, h.idle, rfl⟩

/-- What bring-up does with one chip (43_dac_bringup.md R181). -/
theorem Bus.AtRest.soundTo_chip (h : b.AtRest) (tSettle : Nat) (i : DacIndex) :
    Bus.SoundTo Bus.AtRest (chipSteps tSettle i) b :=
  Bus.soundTo_append (fun _ h => h.soundTo_writeRegister _ _ _)
    (Bus.soundTo_append (fun _ h => h.soundTo_writeRegister _ _ _)
      (Bus.soundTo_append (fun _ h => h.soundTo_delay _ _) (h.soundTo_readRegister _ _ (.inr ⟨_, rfl⟩))))

theorem Bus.AtRest.soundTo_chips (tSettle : Nat) : ∀ {is : List DacIndex} {b : Bus}, b.AtRest →
    Bus.SoundTo Bus.AtRest (is.flatMap (chipSteps tSettle)) b := by
  intro is
  induction is with
  | nil => intro b h; exact h
  | cons i is ih => intro b h; exact Bus.soundTo_append (fun _ h => ih h) (h.soundTo_chip tSettle i)

/-- `INITIALIZE` (43_dac_bringup.md R181). -/
theorem Bus.AtRest.soundTo_bringUp (h : b.AtRest) (tSettle : Nat) :
    Bus.SoundTo Bus.AtRest (bringUpSteps tSettle) b :=
  Bus.soundTo_append (fun _ h => h.soundTo_lines)
    (Bus.soundTo_append (fun _ h => Bus.AtRest.soundTo_chips tSettle h) h.soundTo_reset)

/-! ### What the invariant does not read -/

theorem Bus.Settled.of_todo (h : b.Settled) (ms : List BusStep) : ({ b with todo := ms } : Bus).Settled :=
  ⟨⟨h.cfgLegal, h.lineLegal, h.openHolds, h.linesOrder, h.linesAfter, h.failure⟩, h.resetLow, h.linesAgree,
    h.linesBefore⟩

/-- Soundness through given steps does not read the steps still to take. -/
theorem Bus.Sound.of_todo : ∀ {ms : List BusStep} {b : Bus}, Bus.Sound ms b → ∀ ms' : List BusStep,
    Bus.Sound ms { b with todo := ms' } := by
  intro ms
  induction ms with
  | nil => intro b h ms'; exact Bus.Settled.of_todo h ms'
  | cons m ms ih =>
    intro b h ms'
    refine ⟨⟨h.1.cfgLegal, h.1.lineLegal, h.1.openHolds, h.1.linesOrder, h.1.linesAfter, h.1.failure⟩,
      fun o o' b' hp => ?_⟩
    obtain ⟨ms'', hp', _⟩ := BusStep.perform_todo b.todo hp
    have h' := h.2 o o' _ hp'
    change if b'.halted = true then _ else _ at h'
    split
    · rw [if_pos ‹_›] at h'
      exact h'.of_todo b'.todo
    · rw [if_neg ‹_›] at h'
      exact ih h' b'.todo

theorem Bus.Settled.of_trace (h : b.Settled) {tr : List Event} (ht : ∀ e ∈ b.trace, e ∈ tr) :
    ({ b with trace := tr } : Bus).Settled :=
  ⟨⟨h.cfgLegal, h.lineLegal, h.openHolds, h.linesOrder, h.linesAfter, fun i v e =>
    (h.failure i v e).imp_right fun h => h.imp_right fun h => h.imp_right (ht _)⟩, h.resetLow, h.linesAgree,
    h.linesBefore⟩

/-- Soundness lasts when the trace gains events. -/
theorem Bus.Sound.of_trace : ∀ {ms : List BusStep} {b : Bus}, Bus.Sound ms b → ∀ {tr : List Event},
    (∀ e ∈ b.trace, e ∈ tr) → Bus.Sound ms { b with trace := tr } := by
  intro ms
  induction ms with
  | nil => intro b h tr ht; exact Bus.Settled.of_trace h ht
  | cons m ms ih =>
    intro b h tr ht
    refine ⟨⟨h.1.cfgLegal, h.1.lineLegal, h.1.openHolds, h.1.linesOrder, h.1.linesAfter, fun i v e =>
      (h.1.failure i v e).imp_right fun h => h.imp_right fun h => h.imp_right (ht _)⟩, fun o o' b' hp => ?_⟩
    obtain ⟨es, he, hp'⟩ := BusStep.perform_of_trace b.trace hp
    have h' := h.2 o o' _ hp'
    have hm : ∀ e ∈ b.trace ++ es, e ∈ b'.trace := fun e h => by
      rw [show b'.trace = tr ++ es from he]
      exact (List.mem_append.1 h).elim (fun h => List.mem_append_left _ (ht e h)) (List.mem_append_right _)
    change if b'.halted = true then _ else _ at h'
    split
    · rw [if_pos ‹_›] at h'
      exact h'.of_trace hm
    · rw [if_neg ‹_›] at h'
      exact ih h' hm

/-- A sound driver is settled when its steps are done. -/
theorem Bus.Sound.settled : ∀ {ms : List BusStep} {o o' : Returned} {b b' : Bus}, Bus.Sound ms b →
    Bus.run ms o b = some (o', b') → b'.Settled := by
  intro ms
  induction ms with
  | nil => intro o o' b b' h hr; cases hr; exact h
  | cons m ms ih =>
    intro o o' b b' h hr
    obtain ⟨o₁, b₁, hm, hx⟩ := Bus.run_cons_cases hr
    have h' := h.2 _ _ _ hm
    rcases hx with ⟨hh, _, rfl⟩ | ⟨hh, hr⟩
    · rwa [if_pos hh] at h'
    · rw [if_neg (Bool.eq_false_iff.1 hh)] at h'
      exact ih h' hr

/-- Whatever bus-driver operation is begun on a driver that has the invariant, the driver is sound through its steps. -/
theorem start_sound {i : Instr} {s t : State} (hi : onBusDriver i = true) (hw : i.wellFormed = true) (hs : s.bus.Inv)
    (h : start i s = .next t) : Bus.Sound t.bus.todo s.bus := by
  have idle : ∀ {ms}, whenBusIdle s (beginOperation s ms) = .next t → (s.bus.AtRest → Bus.SoundTo Bus.AtRest ms s.bus) →
      Bus.Sound t.bus.todo s.bus := by
    intro ms h hk
    obtain ⟨h1, h2, h3, h⟩ := whenBusIdle_next h
    cases h
    have h' := hs.sound
    rw [h2] at h'
    exact (hk ⟨h', h3, h1⟩).sound fun _ h => h.toSettled
  have dac : ∀ {n} {f : DacIndex → List BusStep}, whenBusIdle s (withDac n fun j => beginOperation s (f j)) = .next t →
      (∀ j, s.bus.AtRest → Bus.Sound (f j) s.bus) → Bus.Sound t.bus.todo s.bus := by
    intro n f h hk
    obtain ⟨h1, h2, h3, h⟩ := whenBusIdle_next h
    obtain ⟨j, _, h⟩ := withDac_next h
    cases h
    have h' := hs.sound
    rw [h2] at h'
    exact hk j ⟨h', h3, h1⟩
  have rest : ∀ {ms}, Bus.SoundTo Bus.AtRest ms s.bus → Bus.Sound ms s.bus := fun h => h.sound fun _ h => h.toSettled
  cases i with
  | writeRegister | initCalWriteA | initCalWriteB => exact dac h fun _ k => rest (k.soundTo_writeRegister _ _ _)
  | rdP1 => exact dac h fun _ k => (k.soundTo_readPhase1 _ _).sound fun _ h => h.toSettled
  | readRegister | timingStatus | getDacTimingStatus =>
    exact dac h fun _ k => rest (k.soundTo_readRegister _ _ (.inl rfl))
  | initIdRead => exact dac h fun _ k => rest (k.soundTo_readRegister _ _ (.inr ⟨_, rfl⟩))
  | bringUp | initDacBank => exact idle h fun k => k.soundTo_bringUp _
  | dacReset => exact idle h fun k => k.soundTo_reset
  | busConfig => exact idle h fun k => k.soundTo_config hw
  | busXfer => exact idle h fun k => k.soundTo_xfer _ (.inr rfl)
  | rdP2 j r =>
    simp only [start, enterRdP2] at h
    obtain ⟨h1, h2, h⟩ := whenDriverFree_next h
    split at h
    · rename_i hp
      split at h
      · cases h
        have h' := hs.sound
        rw [h2] at h'
        exact rest (Bus.Reading.soundTo_readPhase2 ⟨h', hp, h1⟩ (.inl rfl))
      · cases h
    · obtain ⟨_, _, h⟩ := withDac_next h
      cases h
  | wr _ _ _ | encode _ _ _ | decode _ _ | tick _ | writeSample _ _ _ | writeSamples _ _ | setEnable _ _ => cases hi

end Sys2Proof.Machine
end

