-- ==== Sys2Proof/Laws/PerInstr.lean ====
section
/-!
SUPPORT. Laws/PerInstr: one family of per-instruction laws, `F`: an operation that has an encoding has one that fits the
width the opcode table gives its row.
-/

namespace Sys2Proof.Laws

open Sys2Proof.Machine

/-- The encoded word, where there is one, has no bit above its row's width (30_encoding.md R91, R100, R101). -/
def F.Statement (i : Instr) : Prop := ∀ q, Sys2Proof.encode i = some q → q.word < 2 ^ q.op.width

/-- A word given as a bit vector of its row's width fits that width. -/
theorem F.fits {n : Nat} (o : WireOp) (port : Nat) (w : BitVec n) (h : o.width = n) :
    ∀ q, some (⟨o, port, w.toNat⟩ : Request) = some q → q.word < 2 ^ q.op.width := by
  rintro q ⟨⟩
  rw [h]
  exact w.isLt

theorem F.wr (c la p : Nat) : F.Statement (.wr c la p) := F.fits .wr c (joinCw (containers la p)) rfl
theorem F.encode (a : Nat) (v : Int) (e : Bool) : F.Statement (.encode a v e) :=
  F.fits .encode 0 (joinCw (codecEncode a v e)) rfl
theorem F.decode (la p : Nat) : F.Statement (.decode la p) := F.fits .decode 0 (joinCw (containers la p)) rfl
theorem F.writeRegister (i r d : Nat) : F.Statement (.writeRegister i r d) :=
  F.fits .writeRegister i (writeFrame (trunc5 r) (trunc16 d)) rfl
theorem F.rdP1 (i r : Nat) : F.Statement (.rdP1 i r) := F.fits .rdP1 i (readCommand (trunc5 r)) rfl
theorem F.rdP2 (i r : Nat) : F.Statement (.rdP2 i r) :=
  F.fits .rdP2 i (readCommand (trunc5 r) ++ (0 : RegData)) rfl
theorem F.readRegister (i r : Nat) : F.Statement (.readRegister i r) :=
  F.fits .readRegister i (readCommand (trunc5 r)) rfl
theorem F.timingStatus (i : Nat) : F.Statement (.timingStatus i) :=
  F.fits .timingStatus i (readCommand literals.statusReg) rfl
theorem F.initIdRead (i : Nat) : F.Statement (.initIdRead i) := F.fits .initIdRead i (readCommand literals.idReg) rfl
theorem F.initCalWriteA (i : Nat) : F.Statement (.initCalWriteA i) :=
  F.fits .initCalWriteA i (writeFrame literals.calRegA literals.calData) rfl
theorem F.initCalWriteB (i : Nat) : F.Statement (.initCalWriteB i) :=
  F.fits .initCalWriteB i (writeFrame literals.calRegB literals.calData) rfl
theorem F.bringUp : F.Statement .bringUp := nofun
theorem F.tick (c : Nat) : F.Statement (.tick c) := nofun
theorem F.dacReset : F.Statement .dacReset := nofun
theorem F.busConfig (cs : CsMask) (len : XferLen) (ends : Bool) (mode : BusMode) :
    F.Statement (.busConfig cs len ends mode) := nofun
theorem F.busXfer (f : Frame) : F.Statement (.busXfer f) := nofun
theorem F.writeSample (c a : Nat) (v : Int) : F.Statement (.writeSample c a v) := nofun
theorem F.writeSamples (c : Nat) (vs : List Int) : F.Statement (.writeSamples c vs) := nofun
theorem F.setEnable (c : Nat) (e : Bool) : F.Statement (.setEnable c e) := nofun
theorem F.initDacBank : F.Statement .initDacBank := nofun
theorem F.getDacTimingStatus (i : Nat) : F.Statement (.getDacTimingStatus i) := nofun

end Sys2Proof.Laws
end

