-- ==== Sys2Proof/Laws/SamplePath.lean ====
section
/-!
SUPPORT. Laws/SamplePath: what a command word does to a channel, said once in numbers; and everything a step of the
machine can do to a channel's pointer and output.
-/

namespace Sys2Proof.Machine

/-- Unpacking what was packed (40_link_codec.md R92, R93). -/
theorem codecDecode_packWord (a : SlotAddr) (v : Sample) (e : Bool) : codecDecode (packWord a v e) = (a, v, e) := by
  have ha := a.isLt
  have hv := v.isLt
  refine Prod.ext ?_ (Prod.ext ?_ ?_)
  · apply BitVec.eq_of_toNat_eq
    simp only [codecDecode, addressOf_toNat, packWord_payload, packWord_linkAddress]
    cases e <;> simp <;> omega
  · apply BitVec.eq_of_toNat_eq
    simp only [codecDecode, valueOf_toNat, packWord_payload]
    cases e <;> simp <;> omega
  · simp only [codecDecode, enableOf_eq, packWord_payload]
    cases e <;> simp <;> omega

/-- A word made by `ENCODE`, applied to a channel (44_control_facade.md R191). -/
theorem Channel.applyWord_codecEncode (a : Nat) (v : Int) (e : Bool) (ch : Channel) :
    ch.applyWord (codecEncode a v e) = ch.store (trunc10 a) (trunc14 v) e := by
  rw [Channel.applyWord, codecEncode, codecDecode_packWord]

/-- A word in containers, applied to a channel (41_sample_store_playback.md R131). -/
theorem Channel.applyWord_containers (la p : Nat) (ch : Channel) :
    ch.applyWord (containers la p) =
      ch.store (BitVec.ofNat 10 (p / 2 ^ 15 % 4 * 256 + la % 256)) (BitVec.ofNat 14 p) (p.testBit 14) := by
  have ha : addressOf (containers la p) = BitVec.ofNat 10 (p / 2 ^ 15 % 4 * 256 + la % 256) := by
    apply BitVec.eq_of_toNat_eq
    rw [addressOf_toNat]
    simp
    omega
  have hv : valueOf (containers la p) = BitVec.ofNat 14 p := by
    apply BitVec.eq_of_toNat_eq
    rw [valueOf_toNat]
    simp
  have he : enableOf (containers la p).payload = p.testBit 14 := by
    rw [enableOf_eq, Nat.testBit_eq_decide_div_mod_eq]
    simp
    omega
  rw [Channel.applyWord_eq, ha, hv, he]

/-- Of two stores to one slot the later is all that remains. -/
theorem Channel.store_store_same (ch : Channel) (a : SlotAddr) (v w : Sample) (e f : Bool) :
    (ch.store a v e).store a w f = ch.store a w f := by
  simp [Channel.store, Memory.write_write_same]

/-- A channel list after one of its channels was replaced. -/
theorem channels_set_self {chs : List Channel} {c : Nat} {ch : Channel} (ch' : Channel) (h : chs[c]? = some ch) :
    (chs.set c ch')[c]? = some ch' := by
  have := (List.getElem?_eq_some_iff.1 h).1
  simp [this]

/-- What one step leaves of a channel's pointer and output: either both stay, or the step is one tick of the channel. -/
def Channel.KeptOrTicked (c : Nat) (ch ch' : Channel) : Prop :=
  (ch'.rp = ch.rp ∧ ch'.out = ch.out) ∨ ch' = ch.tick c

/-- Everything an operation can do to a channel's pointer and output. -/
theorem exec_play {i : Instr} {s t : State} (h : exec i s = .next t) {c : Nat} {ch : Channel}
    (hc : s.channels[c]? = some ch) : ∃ ch', t.channels[c]? = some ch' ∧ ch.KeptOrTicked c ch' := by
  rcases exec_cases h with ⟨_, _, _, _, _, _, _, _, rfl⟩ | ⟨d, f, x, _, _, hf, hx, rfl⟩ | ⟨_, _, _, rfl⟩ | ⟨d, vs, _, h⟩
  · exact ⟨ch, hc, .inl ⟨rfl, rfl⟩⟩
  · by_cases hd : d = c
    · subst hd
      cases hc.symm.trans hx
      refine ⟨_, channels_set_self _ hc, ?_⟩
      rcases hf with ⟨_, rfl⟩ | ⟨_, w, rfl⟩
      · exact .inr rfl
      · exact .inl ⟨rfl, rfl⟩
    · exact ⟨ch, by simp [List.getElem?_set_ne hd, hc], .inl ⟨rfl, rfl⟩⟩
  · exact ⟨ch, hc, .inl ⟨rfl, rfl⟩⟩
  · obtain ⟨_, _, _, h⟩ := execWriteSamples_next h
    obtain ⟨chs, _, _, _, hk, _, _, ht⟩ := runBatch_next h
    obtain ⟨ch', h', h1, h2⟩ := hk.kept hc
    rw [ht]
    exact ⟨ch', h', .inl ⟨h1, h2⟩⟩

/-- Everything a step can do to a channel's pointer and output. -/
theorem step_play {s t : State} (h : step s = .next t) {c : Nat} {ch : Channel} (hc : s.channels[c]? = some ch) :
    ∃ ch', t.channels[c]? = some ch' ∧ ch.KeptOrTicked c ch' := by
  obtain ⟨ag, n, hk⟩ := step_cases h
  cases hk with
  | run i _ h => exact exec_play h hc
  | begun i _ h =>
    rcases start_cases h with ⟨_, _, _, _, _, rfl⟩ | ⟨_, _, _, h⟩ | ⟨_, _, h⟩
    · exact ⟨ch, hc, .inl ⟨rfl, rfl⟩⟩
    · obtain ⟨_, rfl⟩ := beginBatch_next h
      exact ⟨ch, hc, .inl ⟨rfl, rfl⟩⟩
    · exact exec_play h hc
  | mark r _ h => exact ⟨ch, by rw [h]; exact hc, .inl ⟨rfl, rfl⟩⟩
  | driver m ms _ _ h =>
    obtain ⟨_, _, _, rfl⟩ := driverStep_next h
    exact ⟨ch, hc, .inl ⟨rfl, rfl⟩⟩
  | batch m ms _ _ h =>
    rcases BatchStep.perform_next h with ⟨d, w, x, _, hx, rfl⟩ | ⟨_, rfl⟩
    · obtain ⟨ch', h', h1, h2⟩ := (WordsKeep.word hx w).kept hc
      exact ⟨ch', h', .inl ⟨h1, h2⟩⟩
    · exact ⟨ch, hc, .inl ⟨rfl, rfl⟩⟩

end Sys2Proof.Machine
end

