-- ==== Sys2Proof/Tests/Slice0.lean ====
section
/-!
SUPPORT. Tests/Slice0: tests on fixed values, each about one operation on a small state, with the expected result taken from
the spec (95_test_vectors.md where a vector is named, else the cited rule); the well-formedness smoke test; and for
every statement with hypotheses a concrete state and operands that meet them.
-/

namespace Sys2Proof.Tests

open Sys2Proof.Machine

/-! ### Fixtures -/

/-- A view of the next state, `none` on a fault or a refusal. -/
def look {α : Type} (f : State → α) : Host.Outcome State Fault Refusal → Option α
  | .next t => some (f t)
  | .fault _ | .refused _ => none

/-- A channel in mid-loop, with the slots of vectors K8, K11 and P6. -/
def playing : Channel := ⟨[(7, 0x0107), (8, 0x0108), (1023, 0x0007)], true, 7, 0x0106, 0⟩

/-- A channel at the start of its loop, with slot 0 written. -/
def starting : Channel := ⟨[(0, 0x2000)], true, 0, 0, 0⟩

/-- An idle channel, with the state of vector K7. -/
def idling : Channel := ⟨[], false, 777, 0x1234, 0⟩

/-- A machine of three channels after block reset of the driver, the chips about to give these answers. -/
def machine (answers : List (BitVec 24)) : State where
  channels := [playing, starting, idling]
  bus      := { Bus.reset with answers := answers }
  returned := .nothing
  params   := ⟨1, 50, false, 0, 0⟩
  batch    := []
  marks    := []
  agenda   := []
  unasked  := 0

/-- Eight good answers to the identity reads. -/
def goodAnswers : List (BitVec 24) := List.replicate 8 0x00000A

/-- Three good answers, then chip 3 answers `0x00FF` (program P4). -/
def badAnswers : List (BitVec 24) := [0x00000A, 0x00000A, 0x00000A, 0x0000FF]

/-- The machine with a read of register `0x14` of chip 5 open (vector B7). -/
def openMachine : State :=
  { machine [0x00BEEF] with bus := { (machine [0x00BEEF]).bus with
      cfg := ⟨0b1010, .b8, false, .out⟩, csLine := .asserted 0b1010, phase := .readOpen 5 0x14 } }

/-- The machine whose bring-up failed on chip 3 (vector B10). -/
def failedMachine : State :=
  { machine [] with bus := { (machine []).bus with
      initStatus := .failed 3 0x00FF, trace := [.fault (.bringUpIdentityMismatch 3 0x00FF)] } }

/-- The machine after a raw transfer that held chip-select under mask `m`. -/
def heldMachine (m : CsMask) (mode : BusMode) (len : XferLen) : State :=
  { machine [0xABCDEF] with bus := { (machine [0xABCDEF]).bus with
      cfg := ⟨m, len, false, mode⟩, csLine := .asserted m } }

/-- The machine in the middle of a `DAC_RESET`, the line asserted and the first hold taken. -/
def resettingMachine : State :=
  { machine [] with bus := { (machine []).bus with
      dacReset := true, trace := [.resetLine true, .delay .resetHold 100],
      todo := [.resetLine false, .delay .resetPostHold 100] } }

/-- A machine with these steps of a bus-driver operation to take, and these stimuli to come. -/
def midway (todo : List BusStep) (agenda : List Stimulus) : State :=
  { machine [] with bus := { (machine []).bus with todo := todo }, agenda := agenda }

/-- The machine with these steps of a batch to take. -/
def batching (batch : List BatchStep) (s : State) : State := { s with batch := batch, agenda := [.batch] }

/-- A machine of one channel. -/
def oneChannel (ch : Channel) : State := { machine [] with channels := [ch] }

/-- Eight reference chips of which the ones from `k` on have a wrong identity. -/
def bank (k : Nat) : SimBank :=
  Vector.ofFn fun i => ⟨if i.val < k then 0x000A else 0x00FF, Vector.replicate 32 0x5555⟩

/-! ### Well-formedness -/

theorem test_wellFormed_mask : (Instr.busConfig 0b0111 .b8 true .out).wellFormed = false ∧
    (Instr.busConfig 0b0000 .b8 true .out).wellFormed = false ∧
    (Instr.busConfig 0b1000 .b8 true .out).wellFormed = true := by decide
theorem test_wellFormed_writeFrame : (Instr.busXfer (.wf 0x850080)).wellFormed = false ∧
    (Instr.busXfer (.wf 0x250080)).wellFormed = false ∧ (Instr.busXfer (.wf 0x1FFFFF)).wellFormed = true := by decide
theorem test_wellFormed_readCommand : (Instr.busXfer (.rc 0x1F)).wellFormed = false ∧
    (Instr.busXfer (.rc 0xDF)).wellFormed = false ∧ (Instr.busXfer (.rc 0x9F)).wellFormed = true := by decide
theorem test_inField : (Instr.wr 0 256 0).inField = false ∧ (Instr.encode 1024 0 true).inField = false ∧
    (Instr.encode 0 (-1) true).inField = false ∧ (Instr.writeRegister 9 31 65536).inField = false ∧
    (Instr.rdP1 9 32).inField = false ∧ (Instr.encode 1023 16383 true).inField = true := by decide

/-! ### Decoding: words written out from 30_encoding.md, least significant bit last -/

/-- R92, R95: link address 0x03, address-high 00, enable 1, value 0x1FFF (vector V7). -/
theorem test_decode_wr : decode ⟨.wr, 3, 0b00000011_00_1_01111111111111⟩ = .ok (.wr 3 0x03 0x05FFF) := by decide
/-- The fields of vector V19: address 837, value 0x2345, enable 1. -/
theorem test_decode_encode :
    decode ⟨.encode, 0, 0b01000101_11_1_10001101000101⟩ = .ok (.encode 837 0x2345 true) := by decide
/-- The containers of vector W4. -/
theorem test_decode_decode :
    decode ⟨.decode, 0, 0b10000000_10_0_00000000000000⟩ = .ok (.decode 0x80 0x10000) := by decide
/-- R100: opcode 0, reserved 00, register 0x14, data 0x1234 (vector B2). -/
theorem test_decode_writeRegister :
    decode ⟨.writeRegister, 2, 0b0_00_10100_0001001000110100⟩ = .ok (.writeRegister 2 0x14 0x1234) := by decide
/-- R101: opcode 1, reserved 00, register 0x05 (vector B3). -/
theorem test_decode_rdP1 : decode ⟨.rdP1, 5, 0b1_00_00101⟩ = .ok (.rdP1 5 0x05) := by decide
theorem test_decode_rdP2 : decode ⟨.rdP2, 5, 0b1_00_10100_1011111011101111⟩ = .ok (.rdP2 5 0x14) := by decide
theorem test_decode_readRegister : decode ⟨.readRegister, 6, 0b1_00_01000⟩ = .ok (.readRegister 6 0x08) := by decide
/-- R107: the four fixed frames. -/
theorem test_decode_fixed : decode ⟨.timingStatus, 7, 0b1_00_10100⟩ = .ok (.timingStatus 7) ∧
    decode ⟨.initIdRead, 1, 0b1_00_11111⟩ = .ok (.initIdRead 1) ∧
    decode ⟨.initCalWriteA, 4, 0b0_00_00101_0000000010000000⟩ = .ok (.initCalWriteA 4) ∧
    decode ⟨.initCalWriteB, 4, 0b0_00_01000_0000000010000000⟩ = .ok (.initCalWriteB 4) := by decide
/-- R103, R104, R105: a wrong opcode bit, a reserved bit, a word too wide, a frame that is not the fixed one. -/
theorem test_decode_rejects : decode ⟨.writeRegister, 0, 0x850080⟩ = .error .wrongOpcode ∧
    decode ⟨.rdP1, 0, 0xA5⟩ = .error .reservedBits ∧ decode ⟨.rdP1, 0, 0x185⟩ = .error .wordTooWide ∧
    decode ⟨.wr, 0, 0x2000000⟩ = .error .wordTooWide ∧
    decode ⟨.initCalWriteA, 0, 0x050081⟩ = .error .notTheFixedFrame := by decide
theorem test_tableWord : decodeTableWord 25 0x0065FFF = some (.wr 0 0x03 0x05FFF) ∧
    decodeTableWord 8 0x94 = some (.timingStatus 0) ∧ decodeTableWord 24 0x141234 = some (.writeRegister 0 0x14 0x1234) ∧
    decodeTableWord 8 0x1F = none := by decide
/-- The very next step after presenting a word to the reset machine runs it (log 1). -/
theorem test_withFetchWord : look (fun t => (t.channels[0]?).map (fun ch => (ch.sb, ch.en)))
    (step (State.reset.withFetchWord 25 0x0065FFF)) = some (some ([(3, 0x1FFF)], true)) := by decide

/-! ### The Link Codec -/

/-- Vector V4. -/
theorem test_encode_negative : look State.returned (exec (.encode 1 (-50) false) (machine [])) =
    some (.commandWord ⟨0x01, 0x03FCE⟩) := by decide
/-- Vector V19: both operands over-wide. -/
theorem test_encode_truncates : look State.returned (exec (.encode 0x12345 0x12345 true) (machine [])) =
    some (.commandWord ⟨0x45, 0x1E345⟩) := by decide
/-- Vector W7. -/
theorem test_decode_word : look State.returned (exec (.decode 0x10 0x1BFFF) (machine [])) =
    some (.decoded 784 0x3FFF false) := by decide
/-- Vector W9: containers too wide. -/
theorem test_decode_containers : look State.returned (exec (.decode 0x1AB 0x2C123) (machine [])) =
    some (.decoded 427 0x0123 true) := by decide

/-! ### The sample path -/

/-- Vector K1. -/
theorem test_wr_stores : look (fun t => t.channels[2]?) (exec (.wr 2 0x03 0x05FFF) (machine [])) =
    some (some ⟨[(3, 0x1FFF)], true, 777, 0x1234, 0⟩) := by decide
/-- Vector K2's shape: a data word with enable 0 stops playback and leaves the pointer. -/
theorem test_wr_stops : look (fun t => t.channels[0]?) (exec (.wr 0 0x08 0x00002) (machine [])) =
    some (some ⟨[(7, 0x0107), (8, 0x0002), (1023, 0x0007)], false, 7, 0x0106, 0⟩) := by decide
/-- Vector K11, order B: the tick plays slot 7. -/
theorem test_tick_plays : look (fun t => (t.channels[0]?).map (fun ch => (ch.out, ch.rp)))
    (exec (.tick 0) (machine [])) = some (some (0x0107, 8)) := by decide
/-- Vectors K7 and K8: an idle tick zeroes the pointer, and the pointer wraps after slot 1023. -/
theorem test_tick_idles_and_wraps : idling.tick 2 = ⟨[], false, 0, 0, 1⟩ ∧
    ({ playing with rp := 1023 } : Channel).tick 0 = { playing with rp := 0, out := 0x0007, tpDraws := 1 } := by decide

/-! ### The facade -/

/-- Vector F1. -/
theorem test_writeSample : look (fun t => (t.channels[2]?).map (fun ch => (ch.sb, ch.en)))
    (exec (.writeSample 2 3 8191) (machine [])) = some (some ([(3, 0x1FFF)], false)) := by decide
/-- Vector F2. -/
theorem test_writeSample_enable : look (fun t => (t.channels[2]?).map (fun ch => (ch.sb, ch.en)))
    (exec (.writeSample 2 3 8191) { machine [] with params := ⟨1, 50, true, 0, 0⟩ }) =
      some (some ([(3, 0x1FFF)], true)) := by decide
/-- Vector F3: slot 0 is overwritten. -/
theorem test_setEnable : look (fun t => (t.channels[1]?).map (fun ch => (ch.sb, ch.en)))
    (exec (.setEnable 1 true) (machine [])) = some (some ([(0, 0x0000)], true)) := by decide
/-- The document's batch (S7, S11). -/
theorem test_writeSamples : look (fun t => ((t.channels[2]?).map Channel.sb, t.bus.trace))
    (exec (.writeSamples 2 [100, -50, 0, 8191]) (machine [])) =
      some (some [(0, 0x0064), (1, 0x3FCE), (2, 0x0000), (3, 0x1FFF)], List.replicate 3 (.delay .writeGap 100)) := by
  decide
/-- Vectors F4 and F5: no event for an empty batch or a batch of one. -/
theorem test_writeSamples_short : look (fun t => t.bus.trace) (exec (.writeSamples 2 []) (machine [])) = some [] ∧
    look (fun t => (t.bus.trace, (t.channels[2]?).map Channel.sb)) (exec (.writeSamples 2 [7]) (machine [])) =
      some ([], some [(0, 7)]) := by decide

/-! ### The bus driver -/

/-- Vector B5. -/
theorem test_writeRegister : look (fun t => (t.bus.trace, t.bus.cfg, t.bus.csLine))
    (exec (.writeRegister 3 0x05 0x0080) (machine [])) =
      some ([.cfg ⟨0b1100, .b24, true, .out⟩, .xfer 0b1100 .out .b24 (.wf 0x050080) none true],
        ⟨0b1100, .b24, true, .out⟩, .released) := by decide
/-- Vector B2: over-wide register and data. -/
theorem test_writeRegister_masks : look (fun t => t.bus.trace.getLast?)
    (exec (.writeRegister 3 0x25 0x10080) (machine [])) =
      some (some (.xfer 0b1100 .out .b24 (.wf 0x050080) none true)) := by decide
/-- Vector B6. -/
theorem test_readRegister : look (fun t => (t.returned, t.bus.trace, t.bus.phase))
    (exec (.readRegister 5 0x14) (machine [0x001234])) =
      some (.data16 0x1234,
        [.cfg ⟨0b1010, .b8, false, .out⟩, .xfer 0b1010 .out .b8 (.rc 0x94) none false,
         .cfg ⟨0b1010, .b16, true, .hdIn⟩, .xfer 0b1010 .hdIn .b16 (.rc 0x94) (some (.c16 0x1234)) true], .idle) := by
  decide
/-- Vector B11: a wrong identity met by a plain read is just a value. -/
theorem test_readRegister_identity : look (fun t => (t.returned, t.bus.initStatus))
    (exec (.readRegister 0 0x1F) (machine [0])) = some (.data16 0x0000, .notInitialized) := by decide
/-- Vectors B6 and F6. -/
theorem test_timingStatus : look State.returned (exec (.timingStatus 5) (machine [0x001234])) =
      some (.data16 0x1234) ∧
    look State.returned (exec (.getDacTimingStatus 5) (machine [0x001234])) = some (.data16 0x1234) := by decide
/-- Vector B7. -/
theorem test_rdP1 : look (fun t => (t.bus.csLine, t.bus.phase)) (exec (.rdP1 5 0x14) (machine [])) =
    some (.asserted 0b1010, .readOpen 5 0x14) := by decide
/-- Program P5, step 4. -/
theorem test_rdP2 : look (fun t => (t.returned, t.bus.csLine, t.bus.phase)) (exec (.rdP2 5 0x14) openMachine) =
    some (.data16 0xBEEF, .released, .idle) := by decide
/-- R162: phase 2 of another register is not the open read. -/
theorem test_rdP2_other : look State.returned (exec (.rdP2 5 0x15) openMachine) = none := by decide
/-- Vector B4. -/
theorem test_dacReset : look (fun t => (t.bus.trace, t.bus.dacReset)) (exec .dacReset (machine [])) =
    some ([.resetLine true, .delay .resetHold 100, .resetLine false, .delay .resetPostHold 100], false) := by decide
/-- R152: chip-select is not touched. -/
theorem test_busConfig : look (fun t => (t.bus.cfg, t.bus.csLine))
    (exec (.busConfig 0b1001 .b16 true .hdIn) (heldMachine 0b1010 .out .b8)) =
      some (⟨0b1001, .b16, true, .hdIn⟩, .asserted 0b1010) := by decide
/-- R153: `HD_IN` captures and, with `end` 0, holds chip-select. -/
theorem test_busXfer_in : look (fun t => (t.returned, t.bus.csLine))
    (exec (.busXfer (.rc 0x94)) (heldMachine 0b1010 .hdIn .b16)) =
      some (.inBits (some (.c16 0xCDEF)), .asserted 0b1010) := by decide
/-- R153: `OUT` captures nothing; with `end` 1 chip-select is released. -/
theorem test_busXfer_out : look (fun t => (t.returned, t.bus.csLine)) (exec (.busXfer (.rc 0x94)) (machine [])) =
    some (.inBits none, .released) := by decide

/-! ### Bring-up -/

/-- Program P3 and table 2.8: 79 events, success. -/
theorem test_bringUp_good : look (fun t => (t.bus.trace.length, t.bus.initStatus, t.bus.refclkSel))
    (exec .bringUp (machine goodAnswers)) = some (79, .initialized, true) := by decide +kernel
/-- Program P4: 36 events, the failure of chip 3. -/
theorem test_bringUp_bad : look (fun t => (t.bus.trace.length, t.bus.initStatus, t.bus.oscEn))
    (exec .bringUp (machine badAnswers)) = some (36, .failed 3 0x00FF, false) := by decide
/-- The facade's bring-up with chip 0 bad (table 2.8, `k` = 0). -/
theorem test_initDacBank : look (fun t => (t.bus.trace.length, t.bus.initStatus))
    (exec .initDacBank (machine [0x00FF0A])) = some (9, .failed 0 0xFF0A) := by decide
/-- R181: the three operations a chip gets. -/
theorem test_initIdRead : look (fun t => (t.bus.trace.length, t.bus.initStatus))
    (exec (.initIdRead 7) (machine goodAnswers)) = some (4, .notInitialized) := by decide
/-- Identity comparison on all 16 bits (2.8: `0x010A` fails). -/
theorem test_initIdRead_bad : look (fun t => (t.bus.trace.length, t.bus.initStatus))
    (exec (.initIdRead 7) (machine [0x00010A])) = some (5, .failed 7 0x010A) := by decide
theorem test_initCalWriteA : look (fun t => t.bus.trace.getLast?) (exec (.initCalWriteA 0) (machine [])) =
    some (some (.xfer 0b1111 .out .b24 (.wf 0x050080) none true)) := by decide
theorem test_initCalWriteB : look (fun t => t.bus.trace.getLast?) (exec (.initCalWriteB 7) (machine [])) =
    some (some (.xfer 0b1000 .out .b24 (.wf 0x080080) none true)) := by decide
/-- R71: a chip that is not configured otherwise identifies itself by `0x000A`. -/
theorem test_simChip_default : (({ regs := Vector.replicate 32 0 } : SimChip).read 0x1F) = 0x000A := rfl
/-- The chip of program P3 ends with `0x0080` in register `0x05`. -/
theorem test_simChip : ((((bank 8).after (writeEvents 0b1100 0x050080))[3]).read 0x05) = 0x0080 ∧
    ((((bank 8).after (writeEvents 0b1100 0x050080))[4]).read 0x05) = 0x5555 ∧ ((bank 8)[3]).read 0x1F = 0x000A :=
  ⟨rfl, rfl, rfl⟩

/-! ### Stops -/

/-- Vector B8. -/
theorem test_violation : exec (.writeRegister 2 0x05 0x0080) openMachine = .fault .busProtocolViolation := rfl
/-- Vector B9. -/
theorem test_badIndex : exec (.writeRegister 8 0x05 0x0080) (machine []) = .refused .badDacIndex := rfl
/-- R151 and R208: the index is checked on an idle bus by `RD_P2` too, before its `require` line. -/
theorem test_rdP2_index : exec (.rdP2 8 0x05) (machine []) = .refused .badDacIndex ∧
    exec (.rdP2 3 0x05) (machine []) = .fault .busProtocolViolation ∧
    exec (.rdP2 8 0x05) openMachine = .fault .busProtocolViolation := ⟨rfl, rfl, rfl⟩
/-- R165: no operation begins while another is in progress. -/
theorem test_busy : exec (.readRegister 0 0) resettingMachine = .refused .driverBusy := rfl
/-- Vector B10. -/
theorem test_halted : exec (.timingStatus 0) failedMachine = .refused .driverHalted := rfl
theorem test_noSuchChannel : exec (.wr 3 0 0) (machine []) = .refused .noSuchChannel := rfl

/-! ### Operations taken one step at a time -/

/-- R16: beginning an operation takes none of its steps. -/
theorem test_start : look (fun t => (t.bus.todo.length, t.bus.trace))
    (step { machine [] with agenda := [.start .dacReset] }) = some (4, []) := by decide
/-- R156: the first of them asserts the reset line. -/
theorem test_reset_line : look (fun t => (t.bus.dacReset, t.bus.trace)) (step (midway resetSteps [.driver])) =
    some (true, [.resetLine true]) := by decide
/-- R81: a channel ticks while the line is asserted. -/
theorem test_tick_in_reset : look (fun t => (t.bus.dacReset, (t.channels[0]?).map Channel.out))
    (step { resettingMachine with agenda := [.call (.tick 0)] }) = some (true, some 0x0107) := by decide
/-- R183: after the first of the three enable lines only that one is active. -/
theorem test_first_line : look (fun t => (t.bus.oscEn, t.bus.mmcxSel, t.bus.refclkSel, t.bus.initStatus))
    (step (midway lineSteps [.driver])) = some (true, false, false, .notInitialized) := by decide
/-- R165: a request for a second operation waits, and the first takes its next step. -/
theorem test_request_waits : look (fun t => (t.bus.dacReset, t.agenda))
    (step { resettingMachine with agenda := [.call (.writeRegister 0 5 0)] }) =
      some (false, [.call (.writeRegister 0 5 0)]) := by decide
/-- R214: a refused request leaves its mark and no event, and the run goes on. -/
theorem test_mark : look (fun t => (t.marks, t.bus.trace, t.agenda))
    (step { machine [] with agenda := [.call (.timingStatus 8), .call (.tick 0)] }) =
      some ([.badDacIndex], [], [.call (.tick 0)]) := by decide
/-- R192: the steps of a batch, of which its beginning takes none. -/
theorem test_batch_start : look (fun t => (t.batch, t.bus.trace))
    (step { machine [] with agenda := [.start (.writeSamples 2 [3, 4])] }) =
      some ([.word 2 ⟨0x00, 0x00003⟩, .gap, .word 2 ⟨0x01, 0x00004⟩], []) := by decide
/-- R192: a gap is a step of its own. -/
theorem test_gap : look (fun t => (t.batch, t.bus.trace)) (step (batching [.gap] (machine []))) =
    some ([], [.delay .writeGap 100]) := by decide
/-- R80: under an open read a batch stops at its first gap and appends no event. -/
theorem test_gap_waits : look (fun t => (t.batch, t.bus.trace)) (exec (.writeSamples 2 [3, 4]) openMachine) =
    some ([.gap, .word 2 ⟨0x01, 0x00004⟩], []) := by decide

/-! ### Witnesses: for each statement with hypotheses, a state and operands that meet all of them

Each is named after the statement; where a statement has clauses of their own hypotheses, the theorem meets each. -/

/-- Both clauses. -/
theorem witness_CodecFunctionsAreInverse :
    (∃ t, exec (.encode 1 (-50) true) (machine []) = .next t ∧ t.returned = .commandWord ⟨0x01, 0x07FCE⟩) ∧
    (∃ t, exec (.decode (0xAB#8).toNat (0x0C123#17).toNat) (machine []) = .next t ∧
      t.returned = .decoded 427 0x0123 true) := ⟨⟨_, rfl, by decide⟩, ⟨_, rfl, by decide⟩⟩
theorem witness_EncodedWordsDecodeBack :
    ((Instr.encode 1023 16383 true).inField = true ∧
      encode (.encode 1023 16383 true) = some ⟨.encode, 0, 0x1FFFFFF⟩) ∧
    ((Instr.writeRegister 7 0x1F 0xFFFF).inField = true ∧
      encode (.writeRegister 7 0x1F 0xFFFF) = some ⟨.writeRegister, 7, 0x1FFFFF⟩) := by decide
theorem witness_DecodedWordsEncodeBack : decode ⟨.rdP2, 5, 0x94BEEF⟩ = .ok (.rdP2 5 0x14) ∧
    decode ⟨.wr, 5, 0x1FFFFFF⟩ = .ok (.wr 5 0xFF 0x1FFFF) := by decide
/-- Each clause: a write frame, an `RD_P2` word and a read command with reserved bits set; a fixed frame with them set. -/
theorem witness_ReservedBitsAreRejected :
    (0x3FFFFF < 2 ^ 24 ∧ 0x3FFFFF / 2 ^ 21 % 4 ≠ 0 ∧ Nat.testBit 0x3FFFFF 23 = false) ∧
    (0xA50080 < 2 ^ 24 ∧ 0xA50080 / 2 ^ 21 % 4 ≠ 0 ∧ Nat.testBit 0xA50080 23 = true) ∧
    (0xE0 < 2 ^ 8 ∧ 0xE0 / 2 ^ 5 % 4 ≠ 0 ∧ Nat.testBit 0xE0 7 = true) ∧
    (0x3F < 2 ^ 8 ∧ 0x3F / 2 ^ 5 % 4 ≠ 0) := by decide

/-- Channel 2, the last one, exists. -/
theorem witness_WrStoresSlotAndFlag : (machine []).channels[2]? = some idling := rfl
/-- The two clauses: a running and an idle channel. -/
theorem witness_TickPlaysOrIdles : ((machine []).channels[0]? = some playing ∧ playing.en = true) ∧
    ((machine []).channels[2]? = some idling ∧ idling.en = false) := by decide
theorem witness_StopWordSilencesNextTick : 2 < (machine []).channels.length ∧ Nat.testBit 0x1BFFF 14 = false := by
  decide
/-- Both clauses. -/
theorem witness_OnlyAnObservedDisableResetsThePointer :
    (0 < (machine []).channels.length ∧ Nat.testBit 0x19ABC 14 = false ∧ Nat.testBit 0x1DABC 14 = true) ∧
    ((machine []).channels[0]? = some playing ∧ Nat.testBit 0x04000 14 = true) := by decide
theorem witness_PlaybackIsPeriodic : (machine []).channels[1]? = some starting ∧ starting.en = true ∧
    starting.rp = 0 := by decide
theorem witness_PointerAfterTicks : (machine []).channels[0]? = some playing ∧ playing.en = true := by decide
/-- Both clauses. -/
theorem witness_LastWordWins :
    (0x00011 / 2 ^ 15 % 4 = 0x00022 / 2 ^ 15 % 4 ∧ 0x05 % 256 = 0x05 % 256 ∧
      ∃ t, exec (.wr 0 0x05 0x00011) (machine []) = .next t) ∧
    (∃ t, exec (.wr 0 0x09 0x04002) (machine []) = .next t) := ⟨⟨rfl, rfl, _, rfl⟩, _, rfl⟩
theorem witness_RaceHasTwoWholeOutcomes : (machine []).channels[0]? = some playing ∧ playing.en = true ∧
    Nat.testBit 0x06222 14 = true ∧ playing.rp.toNat = 0x06222 / 2 ^ 15 % 4 * 256 + 0x07 % 256 := by decide
/-- Each pairing of a word and a tick. -/
theorem witness_ChannelsAreIndependent : (0 : Nat) ≠ 1 ∧
    (∃ t u, exec (.wr 0 0x05 0x00011) (machine []) = .next t ∧ exec (.tick 1) t = .next u) ∧
    (∃ t u, exec (.tick 0) (machine []) = .next t ∧ exec (.wr 1 0x05 0x00011) t = .next u) ∧
    (∃ t u, exec (.wr 0 0x05 0x00011) (machine []) = .next t ∧ exec (.wr 1 0x05 0x00011) t = .next u) ∧
    (∃ t u, exec (.tick 0) (machine []) = .next t ∧ exec (.tick 1) t = .next u) :=
  ⟨by decide, ⟨_, _, rfl, rfl⟩, ⟨_, _, rfl, rfl⟩, ⟨_, _, rfl, rfl⟩, ⟨_, _, rfl, rfl⟩⟩
theorem witness_EqualBuffersAreEqualData : Memory.wf [(0, 1), (1023, 0x3FFF)] = true ∧
    (∀ a, Memory.read? [(0, 1), (1023, 0x3FFF)] a = Memory.read? [(0, 1), (1023, 0x3FFF)] a) :=
  ⟨by decide, fun _ => rfl⟩

/-- A run in which the outside asks for a tick of the one channel before every step. -/
def tickRun (ch : Channel) : Nat → State
  | 0 => oneChannel ch
  | n + 1 => { tickRun ch n with channels := (tickRun ch n).channels.map (Channel.tick 0) }

theorem tickRun_shape (ch : Channel) (n : Nat) :
    ∃ ch', tickRun ch n = oneChannel ch' ∧ ch'.en = ch.en ∧ tickRun ch (n + 1) = oneChannel (ch'.tick 0) := by
  induction n with
  | zero => exact ⟨ch, rfl, rfl, rfl⟩
  | succ n ih =>
    obtain ⟨ch', _, he, h⟩ := ih
    refine ⟨ch'.tick 0, h, ?_, by rw [tickRun, h]; rfl⟩
    rw [← he]
    unfold Channel.tick
    split <;> rfl

/-- Both clauses: an infinite fair run in which the one channel stays enabled, and one in which it stays disabled. -/
theorem witness_FairRunsPlayEverySlot (ch : Channel) :
    InfiniteRun (fun _ => [.call (.tick 0)]) (tickRun ch) ∧ Fair (tickRun ch) ∧ 0 < (tickRun ch 0).channels.length ∧
    ∀ n ch', 0 ≤ n → (tickRun ch n).channels[0]? = some ch' → ch'.en = ch.en := by
  refine ⟨fun n => ?_, fun c hc n => ⟨n, Nat.le_refl n, ?_⟩, Nat.one_pos, fun n ch' _ h => ?_⟩
  · obtain ⟨ch', h, _, h'⟩ := tickRun_shape ch n
    rw [h, h']
    rfl
  · obtain ⟨ch', h, _, h'⟩ := tickRun_shape ch n
    obtain rfl : c = 0 := by simpa [tickRun, oneChannel] using hc
    exact ⟨ch', by rw [h]; rfl, by rw [h']; rfl⟩
  · obtain ⟨ch₁, h₁, he, _⟩ := tickRun_shape ch n
    rw [h₁] at h
    cases h
    exact he

theorem witness_FacadeCallsSendOneWord : (machine []).channels[1]? = some starting := rfl
/-- A batch of four, its last value, a slot it does not reach; under an open read a batch of one; and of 1025 values the
last is the only one of slot 0's. -/
theorem witness_BatchFillsSlotsInOrder :
    ((machine []).channels[0]? = some playing ∧ (machine []).batch = [] ∧ (machine []).bus.phase = .idle ∧
      [(100 : Int), -50, 0, 8191][3]? = some 8191 ∧
      (∀ k < [(100 : Int), -50, 0, 8191].length, k % 1024 ≠ (4 : SlotAddr).toNat)) ∧
    (openMachine.channels[0]? = some playing ∧ openMachine.batch = [] ∧ [(7 : Int)].length ≤ 1) ∧
    ((List.replicate 1025 (7 : Int))[1024]? = some 7 ∧
      ∀ j, 1024 < j → j < (List.replicate 1025 (7 : Int)).length → j % 1024 ≠ 1024 % 1024) := by
  refine ⟨by decide, by decide, List.getElem?_replicate_of_lt (by omega), fun j h h' => ?_⟩
  rw [List.length_replicate] at h'
  omega
/-- Each clause: a word's turn, a gap's turn on an idle bus, a gap's turn under an open read; a batch under an open read. -/
theorem witness_BatchTurnIsOneStep :
    ((batching [.word 2 ⟨3, 0x05FFF⟩, .gap] (machine [])).agenda = [.batch] ∧
      (batching [.word 2 ⟨3, 0x05FFF⟩, .gap] (machine [])).batch = [.word 2 ⟨3, 0x05FFF⟩, .gap]) ∧
    ((batching [.gap] (machine [])).batch = [.gap] ∧ (batching [.gap] (machine [])).bus.phase = .idle) ∧
    ((batching [.gap] openMachine).batch = [.gap] ∧ (batching [.gap] openMachine).bus.phase ≠ .idle ∧
      0 < (batching [.gap] openMachine).channels.length) ∧
    (2 < openMachine.channels.length ∧ openMachine.batch = [] ∧ openMachine.bus.phase ≠ .idle) := by decide
theorem witness_DocumentBatchTest : 2 < (machine []).channels.length ∧ (machine []).batch = [] ∧
    (machine []).bus.phase = .idle := by decide

/-- Each kind of step. -/
theorem witness_DriverTurnIsOneStep : ∀ m ∈ [BusStep.config ⟨0b1010, .b8, false, .out⟩, .resetLine true,
      .enableLine .oscEn false, .enableLine .mmcxSel false, .enableLine .refclkSel true, .delay .settle 50,
      .xfer (.rc 0x94) .done, .xfer (.rc 0x94) .closeRead],
    (midway [m] [.driver]).agenda = .driver :: [] ∧ (midway [m] [.driver]).bus.todo = m :: [] ∧
    (midway [m] [.driver]).bus.halted = false ∧ (midway [m] [.driver]).bus.cfg.mode = .out ∧
    (midway [m] [.driver]).bus.csLine = .released := by decide
/-- A step that answers a next state, for the last clause. -/
theorem witness_DriverTurnIsOneStep_next : ∃ t, step (midway [.resetLine true] [.driver]) = .next t := ⟨_, rfl⟩
/-- An operation of the driver, bring-up that fails, and a batch. -/
theorem witness_StartedOperationEndsAsExec :
    (Instr.wellFormed (.readRegister 5 0x14) = true ∧ onBusDriver (.readRegister 5 0x14) = true ∧
      ∃ t, exec (.readRegister 5 0x14) (machine [0x001234]) = .next t) ∧
    (Instr.wellFormed .bringUp = true ∧ onBusDriver .bringUp = true ∧
      ∃ t, exec .bringUp (machine badAnswers) = .next t) ∧
    (Instr.wellFormed (.writeSamples 2 [1, 2]) = true ∧ ∃ t, exec (.writeSamples 2 [1, 2]) (machine []) = .next t) :=
  ⟨⟨rfl, rfl, _, rfl⟩, ⟨rfl, rfl, _, rfl⟩, ⟨rfl, _, rfl⟩⟩
/-- The driver is ready for a mask when chip-select is released, and when it is held under that mask. -/
theorem witness_ready : (machine []).bus.Ready (csMask 0) ∧ (machine []).bus.Ready (csMask 7) ∧
    (heldMachine 0b1010 .out .b8).bus.Ready (csMask 5) :=
  ⟨⟨⟨rfl, rfl, rfl⟩, .inl rfl⟩, ⟨⟨rfl, rfl, rfl⟩, .inl rfl⟩, ⟨⟨rfl, rfl, rfl⟩, .inr rfl⟩⟩
theorem witness_WriteRegisterSendsOneFrame : (machine []).bus.Ready (csMask 3) := ⟨⟨rfl, rfl, rfl⟩, .inl rfl⟩
theorem witness_CalibrationWritesSendFixedFrames : (machine []).bus.Ready (csMask 4) := ⟨⟨rfl, rfl, rfl⟩, .inl rfl⟩
theorem witness_ReadRegisterRunsTwoPhases : (machine []).bus.Ready (csMask 5) := ⟨⟨rfl, rfl, rfl⟩, .inl rfl⟩
theorem witness_TimingStatusReadsStatusRegister : (machine []).bus.Ready (csMask 6) := ⟨⟨rfl, rfl, rfl⟩, .inl rfl⟩
theorem witness_ReadPhase1HoldsChipSelect : (machine []).bus.Ready (csMask 7) := ⟨⟨rfl, rfl, rfl⟩, .inl rfl⟩
theorem witness_ReadPhase2CapturesAndReleases : openMachine.bus.halted = false ∧
    openMachine.bus.todo = [] ∧ openMachine.bus.phase = .readOpen 5 (BitVec.ofNat 5 0x14) ∧
    openMachine.bus.csLine = .asserted (csMask 5) := by decide
theorem witness_PhasesComposeToARead : (machine []).bus.Ready (csMask 5) ∧
    ∃ t u, exec (.rdP1 5 0x14) (machine []) = .next t ∧ exec (.tick 0) t = .next u :=
  ⟨⟨⟨rfl, rfl, rfl⟩, .inl rfl⟩, _, _, rfl, rfl⟩
theorem witness_BusConfigSetsTheConfiguration : (heldMachine 0b1010 .out .b8).bus.MayStart := ⟨rfl, rfl, rfl⟩
theorem witness_DacResetPulsesTheLine : (machine []).bus.MayStart := ⟨rfl, rfl, rfl⟩
/-- Each mode, and each length in `HD_IN` mode. -/
theorem witness_BusXferMovesOneFrame :
    ((machine []).bus.Ready (machine []).bus.cfg.cs ∧ (machine []).bus.cfg.mode = .out) ∧
    ∀ len : XferLen, (heldMachine 0b1010 .hdIn len).bus.Ready (heldMachine 0b1010 .hdIn len).bus.cfg.cs ∧
      (heldMachine 0b1010 .hdIn len).bus.cfg.mode = .hdIn ∧ (heldMachine 0b1010 .hdIn len).bus.cfg.len = len :=
  ⟨⟨⟨⟨rfl, rfl, rfl⟩, .inl rfl⟩, rfl⟩, fun _ => ⟨⟨⟨rfl, rfl, rfl⟩, .inr rfl⟩, rfl, rfl⟩⟩
theorem witness_TransactionsAreIndependent : onBusDriver (.readRegister 5 0x14) = true ∧
    Instr.readRegister 5 0x14 ≠ .dacReset ∧ (∀ f, Instr.readRegister 5 0x14 ≠ .busXfer f) ∧
    ∃ t, exec (.readRegister 5 0x14) (machine [0x001234]) = .next t :=
  ⟨rfl, nofun, nofun, _, rfl⟩

/-- A chip that passes and a chip that does not. -/
theorem witness_IdentityReadChecksTheChip :
    ((machine goodAnswers).bus.Ready (csMask 0) ∧ (machine goodAnswers).bus.reads 0 = 0x000A) ∧
    ((machine [0x00010A]).bus.Ready (csMask 7) ∧ (machine [0x00010A]).bus.reads 0 ≠ 0x000A) :=
  ⟨⟨⟨⟨rfl, rfl, rfl⟩, .inl rfl⟩, by decide⟩, ⟨⟨⟨rfl, rfl, rfl⟩, .inl rfl⟩, by decide⟩⟩
theorem witness_BringUpSucceedsOnGoodChips : (machine goodAnswers).bus.Ready 0b1111 ∧
    ∀ n < 8, (machine goodAnswers).bus.reads n = 0x000A := ⟨⟨⟨rfl, rfl, rfl⟩, .inl rfl⟩, by decide⟩
/-- Chip 3 bad, and the boundary cases chip 0 and chip 7. -/
theorem witness_BringUpStopsAtFirstBadChip :
    ((machine badAnswers).bus.Ready 0b1111 ∧ (∀ n < 3, (machine badAnswers).bus.reads n = 0x000A) ∧
      (machine badAnswers).bus.reads 3 ≠ 0x000A) ∧
    (machine [0xFF0A]).bus.reads 0 ≠ 0x000A ∧
    ((∀ n < 7, (machine (List.replicate 7 0x00000A ++ [0])).bus.reads n = 0x000A) ∧
      (machine (List.replicate 7 0x00000A ++ [0])).bus.reads 7 ≠ 0x000A) :=
  ⟨⟨⟨⟨rfl, rfl, rfl⟩, .inl rfl⟩, by decide⟩, by decide, by decide⟩
theorem witness_SimulatedChipTakesTheWrite : (machine []).bus.Ready (csMask 3) := ⟨⟨rfl, rfl, rfl⟩, .inl rfl⟩
/-- Chip 3 bad, and all chips good. -/
theorem witness_BringUpProgramsSimulatedChips :
    ((machine (badAnswers ++ List.replicate 4 0x00FF)).bus.Ready 0b1111 ∧ 3 ≤ 8 ∧
      (∀ i : DacIndex, (machine (badAnswers ++ List.replicate 4 0x00FF)).bus.reads i.val = ((bank 3)[i]).read 0x1F) ∧
      (∀ i : DacIndex, i.val < 3 → ((bank 3)[i]).identity = 0x000A) ∧
      (∀ i : DacIndex, i.val = 3 → ((bank 3)[i]).identity ≠ 0x000A)) ∧
    ((machine goodAnswers).bus.Ready 0b1111 ∧
      (∀ i : DacIndex, (machine goodAnswers).bus.reads i.val = ((bank 8)[i]).read 0x1F) ∧
      (∀ i : DacIndex, i.val < 8 → ((bank 8)[i]).identity = 0x000A) ∧
      (∀ i : DacIndex, i.val = 8 → ((bank 8)[i]).identity ≠ 0x000A)) :=
  ⟨⟨⟨⟨rfl, rfl, rfl⟩, .inl rfl⟩, by decide⟩, ⟨⟨⟨rfl, rfl, rfl⟩, .inl rfl⟩, by decide⟩⟩
/-- Both outcomes of bring-up; an operation and a step with a line that is already active. -/
theorem witness_EnableLinesComeLastAndStay : (∃ t, exec .bringUp (machine goodAnswers) = .next t) ∧
    (∃ t, exec .bringUp (machine badAnswers) = .next t) ∧
    (∃ t u, exec .bringUp (machine goodAnswers) = .next t ∧ exec (.tick 0) t = .next u ∧ t.bus.oscEn = true ∧
      t.bus.mmcxSel = true ∧ t.bus.refclkSel = true) ∧
    (∃ t u, step (midway lineSteps [.driver, .driver]) = .next t ∧ t.bus.oscEn = true ∧ step t = .next u) :=
  ⟨⟨_, rfl⟩, ⟨_, rfl⟩, ⟨_, _, rfl, rfl, rfl, rfl, rfl⟩, ⟨_, _, rfl, rfl, rfl⟩⟩

theorem witness_HaltedDriverRefusesEverything : onBusDriver (.writeRegister 9 0 0) = true ∧
    failedMachine.bus.halted = true := by decide
/-- Both clauses: another operation and another read under an open read, and `RD_P2` with none open. -/
theorem witness_OpenReadExcludesOtherOperations :
    (onBusDriver (.writeRegister 2 0x05 0x0080) = true ∧ openMachine.bus.halted = false ∧ openMachine.bus.todo = [] ∧
      openMachine.bus.phase = .readOpen 5 0x14 ∧
      (∀ n, BitVec.ofNat 5 n = 0x14 → Instr.writeRegister 2 0x05 0x0080 ≠ .rdP2 (5 : DacIndex).val n) ∧
      (∀ n, BitVec.ofNat 5 n = 0x14#5 → Instr.rdP2 5 0x15 ≠ .rdP2 (5 : DacIndex).val n)) ∧
    (machine []).bus.MayStart := by
  refine ⟨⟨rfl, rfl, rfl, rfl, nofun, ?_⟩, rfl, rfl, rfl⟩
  rintro n hn ⟨⟩
  exact absurd hn (by decide)
/-- The three clauses: a raw transfer, bring-up, an operation on a chip. -/
theorem witness_TransferUnderAnotherMaskFaults :
    (heldMachine 0b1010 .out .b8).bus.MayStart ∧
    (heldMachine 0b1010 .out .b8).bus.csLine = .asserted 0b1010 ∧ (0b1010 : CsMask) ≠ 0b1111 ∧
    dacOperand (.writeRegister 3 0 0) = some (3 : DacIndex).val ∧ csMask 3 ≠ 0b1010 ∧
    (∃ t, exec (.busConfig 0b1001 .b8 true .out) (heldMachine 0b1010 .out .b8) = .next t ∧ t.bus.MayStart ∧
      t.bus.csLine = .asserted 0b1010 ∧ t.bus.cfg.cs ≠ 0b1010) :=
  ⟨⟨rfl, rfl, rfl⟩, by decide, by decide, by decide, by decide, _, rfl, ⟨rfl, rfl, rfl⟩, rfl, by decide⟩
/-- At the boundary, `RD_P2` among the operations. -/
theorem witness_BadDacIndexIsRefused : dacOperand (.rdP1 8 0) = some 8 ∧ dacOperand (.rdP2 8 0) = some 8 ∧ 8 ≤ 8 ∧
    (machine []).bus.MayStart := ⟨rfl, rfl, by decide, rfl, rfl, rfl⟩
/-- Each clause, at the boundary; a batch of no values on a channel that does not exist. -/
theorem witness_ChannelNumbersAreBounded : (machine []).channels.length ≤ 3 ∧ 2 < (machine []).channels.length ∧
    (∀ d w, BatchStep.word d w ∈ (machine []).batch → d < (machine []).channels.length) ∧
    (∃ t, exec (.writeSamples 3 []) (machine []) = .next t) := ⟨by decide, by decide, nofun, _, rfl⟩

/-- A word, and a batch, which reaches the trace; and a batch that is run from another driver with no read open. -/
theorem witness_SamplePathIgnoresBusDriver :
    (onBusDriver (.wr 0 0x05 0x00011) = false ∧ (∃ t, exec (.wr 0 0x05 0x00011) (machine []) = .next t) ∧
      ∀ c vs, Instr.wr 0 0x05 0x00011 ≠ .writeSamples c vs) ∧
    (onBusDriver (.writeSamples 2 [1, 2]) = false ∧ (∃ t, exec (.writeSamples 2 [1, 2]) (machine []) = .next t) ∧
      ((machine []).bus.phase = .idle ↔ failedMachine.bus.phase = .idle)) :=
  ⟨⟨rfl, ⟨_, rfl⟩, nofun⟩, ⟨rfl, ⟨_, rfl⟩, by decide⟩⟩
theorem witness_BusDriverIgnoresSamplePath : onBusDriver (.readRegister 5 0x14) = true ∧
    ∃ t, exec (.readRegister 5 0x14) (machine [0x001234]) = .next t := ⟨rfl, _, rfl⟩
/-- Both clauses: a tick after bring-up, and a tick after one step of a reset in progress. -/
theorem witness_PathsCommute :
    (onBusDriver .bringUp = true ∧ ∃ t u, exec .bringUp (machine badAnswers) = .next t ∧ exec (.tick 0) t = .next u) ∧
    (resettingMachine.bus.busy = true ∧
      ∃ t u, driverTurn resettingMachine = .next t ∧ exec (.tick 0) t = .next u) :=
  ⟨⟨rfl, _, _, rfl, rfl⟩, ⟨rfl, _, _, rfl, rfl⟩⟩
/-- A tick for the first clause, a word for the second. -/
theorem witness_SamplePathWriters : (∃ t, exec (.tick 0) (machine []) = .next t) ∧
    (∃ t, exec (.wr 0 0 0) (machine []) = .next t) := ⟨⟨_, rfl⟩, ⟨_, rfl⟩⟩
theorem witness_FailureIsSticky : failedMachine.bus.initStatus = .failed 3 0x00FF ∧
    ∃ t, step { failedMachine with agenda := [.call (.writeSamples 2 [1, 2])] } = .next t := ⟨rfl, _, rfl⟩
theorem witness_TraceOnlyGrows : ∃ t, step { machine [] with agenda := [.call .dacReset] } = .next t := ⟨_, rfl⟩
/-- A state with the invariant, failed or not, or in the middle of a reset with the line asserted, and a step from it. -/
theorem witness_StepKeepsInvariant :
    ({ machine goodAnswers with agenda := [.call .bringUp] } : State).Inv ∧
    (∃ t, step { machine goodAnswers with agenda := [.call .bringUp] } = .next t) ∧ failedMachine.Inv ∧
    resettingMachine.Inv ∧ (∃ t, step { resettingMachine with agenda := [.driver] } = .next t) := by
  refine ⟨⟨by decide, by decide, nofun, ?_, nofun⟩, ⟨_, rfl⟩, ⟨by decide, by decide, nofun, ?_, fun _ => rfl⟩,
    ⟨by decide, by decide, nofun, ?_, nofun⟩, ⟨_, rfl⟩⟩
  · exact ⟨⟨by decide, nofun, nofun, ⟨nofun, nofun⟩, nofun, nofun⟩, rfl, ⟨rfl, rfl⟩, fun _ => rfl⟩
  · refine ⟨⟨by decide, nofun, nofun, ⟨nofun, nofun⟩, nofun, ?_⟩, rfl, ⟨rfl, rfl⟩, nofun⟩
    rintro i v ⟨⟩
    exact ⟨rfl, rfl, by decide, by decide⟩
  · refine ⟨⟨by decide, nofun, nofun, ⟨nofun, nofun⟩, nofun, nofun⟩, fun _ _ _ h => ?_⟩
    cases h
    refine ⟨⟨by decide, nofun, nofun, ⟨nofun, nofun⟩, nofun, nofun⟩, fun _ _ _ h => ?_⟩
    cases h
    exact ⟨⟨by decide, nofun, nofun, ⟨nofun, nofun⟩, nofun, nofun⟩, rfl, ⟨rfl, rfl⟩, fun _ => rfl⟩
/-- Each clause: a free driver and a busy one, a good word and a bad one, an operation that is not well formed, a table
word. -/
theorem witness_StepRunsTheAgenda :
    decode ⟨.writeRegister, 2, 0x141234⟩ = .ok (.writeRegister 2 0x14 0x1234) ∧
    (Instr.writeRegister 2 0x14 0x1234).wellFormed = true ∧ Instr.dacReset.wellFormed = true ∧
    (machine []).bus.busy = false ∧ onBusDriver .dacReset = true ∧ resettingMachine.bus.busy = true ∧
    decode ⟨.rdP1, 0, 0xA5⟩ = .error .reservedBits ∧ (Instr.busXfer (.wf 0x850080)).wellFormed = false ∧
    decodeTableWord 24 0x050080 = some (.initCalWriteA 0) := by decide
theorem witness_UnaskedStepIsATurn : (machine []).agenda = [] ∧ 0 < (machine []).channels.length := by decide

end Sys2Proof.Tests
end

section
/-! PROOF. The wire formats of 30_encoding.md: the chip-select table (R108). -/

namespace Sys2Proof.Machine

/-- The number column of R108's table, checked at each of its eight indices. -/
theorem csMask_toNat : ∀ i : DacIndex, (csMask i).toNat = 15 - i.val := by decide

end Sys2Proof.Machine

namespace Sys2Proof.Proofs

open Sys2Proof.Machine

/-- Settles O1: the list of masks is the literal table itself, and its number column is `csMask_toNat`. -/
theorem chipSelectTableIsVerbatim : Obligations.ChipSelectTableIsVerbatim :=
  ⟨rfl, csMask_toNat⟩

end Sys2Proof.Proofs
end

section
/-! PROOF. The sample store of 41_sample_store_playback.md: what one command word leaves of its channel (R131). -/

namespace Sys2Proof.Machine

/-- A store changes one slot and the flag, and keeps the other slots, the pointer, the output and the test point. -/
theorem Channel.stored_store (c : Nat) (ch : Channel) (a : SlotAddr) (v : Sample) (e : Bool) :
    Channel.Stored c ch (ch.store a v e) a v e where
  slot := Channel.slot_store_same c ch a v e
  others _ h := Channel.slot_store_other c ch v e h
  flag := Channel.store_en ch a v e
  pointer := Channel.store_rp ch a v e
  output := Channel.store_out ch a v e
  point := Channel.store_tpDraws ch a v e

/-- On a channel that exists, `WR` replaces it by itself with one store, at the address, value and flag read from the
word arithmetically. -/
theorem exec_wr_of {s : State} {c : Nat} {ch : Channel} (h : s.channels[c]? = some ch) (la p : Nat) :
    exec (.wr c la p) s = .next { s with channels := s.channels.set c (ch.store
      (BitVec.ofNat 10 (p / 2 ^ 15 % 4 * 256 + la % 256)) (BitVec.ofNat 14 p) (p.testBit 14)) } := by
  rw [← Channel.applyWord_containers]
  exact onChannel_of h (Channel.applyWord (containers la p))

end Sys2Proof.Machine

namespace Sys2Proof.Proofs

open Sys2Proof.Machine

/-- Settles O11: the word is one store into its channel (`exec_wr_of`), and a store changes its slot and the flag only
(`Channel.stored_store`). -/
theorem wrStoresSlotAndFlag : Obligations.WrStoresSlotAndFlag :=
  fun _ c _ _ ch h => ⟨_, exec_wr_of h _ _, Channel.stored_store c ch _ _ _⟩

end Sys2Proof.Proofs
end

section
/-! PROOF. The bus driver of 42_dac_bus.md: register writes (R158) and phase 1 of a register read (R161), each on a ready
driver. -/

namespace Sys2Proof.Machine

/-- Where the driver may start, an operation on one of the eight chips passes the checks of R151 in R208's order. -/
theorem whenBusIdle_withDac_of {s : State} (h : s.bus.MayStart) (k : DacIndex)
    (f : DacIndex → Host.Outcome State Fault Refusal) : whenBusIdle s (withDac k.val f) = f k := by
  rw [whenBusIdle_of h.running h.free h.idle, withDac_of (dacIndex?_eq_some.2 rfl)]

/-- `WRITE_REGISTER` with its operands masked (R106, R158). -/
theorem exec_writeRegister_of {s : State} {k : DacIndex} (h : s.bus.Ready (csMask k)) (r d : Nat) :
    exec (.writeRegister k.val r d) s = .next (s.wrote (csMask k) (writeFrame (trunc5 r) (trunc16 d))) :=
  calc exec (.writeRegister k.val r d) s
    _ = runOperation s (writeRegisterSteps k (trunc5 r) (trunc16 d)) := whenBusIdle_withDac_of h.toMayStart k _
    _ = _ := runOperation_of (Bus.run_writeRegister h.line h.running _ _ _)

/-- `RD_P1` with its operand masked (R106, R161). -/
theorem exec_rdP1_of {s : State} {k : DacIndex} (h : s.bus.Ready (csMask k)) (r : Nat) :
    exec (.rdP1 k.val r) s = .next { s with bus := { s.bus with
      cfg := ⟨csMask k, .b8, false, .out⟩, csLine := .asserted (csMask k), phase := .readOpen k (trunc5 r),
      trace := s.bus.trace ++ [.cfg ⟨csMask k, .b8, false, .out⟩,
        .xfer (csMask k) .out .b8 (.rc (readCommand (trunc5 r))) none false] } } :=
  calc exec (.rdP1 k.val r) s
    _ = runOperation s (readPhase1Steps k (trunc5 r)) := whenBusIdle_withDac_of h.toMayStart k _
    _ = _ := runOperation_of (Bus.run_readPhase1 h.line h.running _ _)

end Sys2Proof.Machine

namespace Sys2Proof.Proofs

open Sys2Proof.Machine

/-- Settles O28: the checks pass and the two steps run to their end (`exec_writeRegister_of`); `writeFrame` is opcode 0,
`FRAME_RESERVED`, the address and the data. -/
theorem writeRegisterSendsOneFrame : Obligations.WriteRegisterSendsOneFrame :=
  fun _ _ r d h => exec_writeRegister_of h r d

/-- Settles O32: the checks pass and the two steps run to their end (`exec_rdP1_of`); `readCommand` is opcode 1,
`FRAME_RESERVED` and the address. -/
theorem readPhase1HoldsChipSelect : Obligations.ReadPhase1HoldsChipSelect :=
  fun _ _ r h => exec_rdP1_of h r

end Sys2Proof.Proofs
end

section
/-! PROOF. The board-level enable lines of bring-up (R183): an active line stays active through one step of the driver,
through the steps of an operation, through an operation and through a step of the machine; and where bring-up asserts
them. -/

namespace Sys2Proof.Machine

/-- From `b` to `b'` no board-level enable line was driven inactive. -/
structure Bus.LinesStay (b b' : Bus) : Prop where
  oscEn     : b.oscEn = true → b'.oscEn = true
  mmcxSel   : b.mmcxSel = true → b'.mmcxSel = true
  refclkSel : b.refclkSel = true → b'.refclkSel = true

theorem Bus.LinesStay.refl (b : Bus) : b.LinesStay b := ⟨id, id, id⟩

theorem Bus.LinesStay.trans {a b c : Bus} (h : a.LinesStay b) (h' : b.LinesStay c) : a.LinesStay c :=
  ⟨h'.oscEn ∘ h.oscEn, h'.mmcxSel ∘ h.mmcxSel, h'.refclkSel ∘ h.refclkSel⟩

/-- The lines stay through a quiet evolution, for it leaves them as they are. -/
theorem Bus.Quiet.linesStay {b b' : Bus} (h : b.Quiet b') : b.LinesStay b' :=
  ⟨h.oscEn.trans, h.mmcx.trans, h.refclk.trans⟩

/-- The assertion of one line leaves the others and drives none inactive. -/
theorem Bus.linesStay_assertLine (l : BoardLine) (last : Bool) (b : Bus) : b.LinesStay (b.assertLine l last) := by
  rw [Bus.assertLine_eq]
  exact ⟨Bool.or_eq_true_iff.2 ∘ .inl, Bool.or_eq_true_iff.2 ∘ .inl, Bool.or_eq_true_iff.2 ∘ .inl⟩

/-- One step of the driver asserts a line or is quiet. -/
theorem BusStep.linesStay {m : BusStep} {o o' : Returned} {b b' : Bus} (h : m.perform o b = some (o', b')) :
    b.LinesStay b' := by
  by_cases hm : ∃ l last, m = .enableLine l last
  · obtain ⟨l, last, rfl⟩ := hm
    cases h
    exact Bus.linesStay_assertLine l last b
  · exact (BusStep.quiet (fun l last e => hm ⟨l, last, e⟩) h).1.linesStay

theorem Bus.run_linesStay {ms : List BusStep} : ∀ {o o' : Returned} {b b' : Bus},
    Bus.run ms o b = some (o', b') → b.LinesStay b' := by
  induction ms with
  | nil => intro o o' b b' h; cases h; exact .refl b
  | cons m ms ih =>
    intro o o' b b' h
    obtain ⟨o₁, b₁, hm, (⟨_, _, rfl⟩ | ⟨_, hr⟩)⟩ := Bus.run_cons_cases h
    · exact BusStep.linesStay hm
    · exact (BusStep.linesStay hm).trans (ih hr)

/-- Only a bus-driver operation can change a line; a batch adds gap events and nothing else to the driver. -/
theorem exec_linesStay {i : Instr} {s t : State} (h : exec i s = .next t) : s.bus.LinesStay t.bus := by
  rcases exec_cases h with ⟨_, _, _, _, _, _, _, hr, rfl⟩ | ⟨_, _, _, _, _, _, _, rfl⟩ | ⟨_, _, _, rfl⟩ | ⟨_, _, _, hw⟩
  · exact Bus.run_linesStay hr
  · exact .refl _
  · exact .refl _
  · obtain ⟨_, _, _, hb⟩ := execWriteSamples_next hw
    obtain ⟨_, _, _, _, _, _, _, ht⟩ := runBatch_next hb
    rw [ht]
    exact ⟨id, id, id⟩

/-- Beginning an operation changes no line: its steps are still to take, or it is no operation of the bus driver. -/
theorem start_linesStay {i : Instr} {s t : State} (h : start i s = .next t) : s.bus.LinesStay t.bus := by
  rcases start_cases h with ⟨_, _, _, _, _, rfl⟩ | ⟨_, _, _, hb⟩ | ⟨_, _, he⟩
  · exact ⟨id, id, id⟩
  · obtain ⟨_, rfl⟩ := beginBatch_next hb
    exact .refl _
  · exact exec_linesStay he

/-- Of what a step can do, only a turn of the driver or an operation run in one step can change a line. -/
theorem StepKind.linesStay {s t : State} (h : StepKind s t) : s.bus.LinesStay t.bus := by
  cases h with
  | run i _ h => exact exec_linesStay h
  | begun i _ h => exact start_linesStay h
  | mark r _ h => rw [h]; exact .refl _
  | driver m ms _ _ h =>
    obtain ⟨_, _, hp, rfl⟩ := driverStep_next h
    obtain ⟨ho, hm, hr⟩ := BusStep.linesStay hp
    exact ⟨ho, hm, hr⟩
  | batch m ms _ _ h =>
    rcases BatchStep.perform_next h with ⟨_, _, _, _, _, rfl⟩ | ⟨_, rfl⟩
    · exact .refl _
    · exact ⟨id, id, id⟩

theorem step_linesStay {s t : State} (h : step s = .next t) : s.bus.LinesStay t.bus := by
  obtain ⟨_, _, hk⟩ := step_cases h
  exact hk.linesStay

/-- Bring-up ends with the three lines asserted in order after quiet events, or fails on a chip with quiet events only
(`execBringUp_cases`). -/
theorem exec_bringUp_lines {s t : State} (h : exec .bringUp s = .next t) :
    (t.bus.initStatus = .initialized ∧
      (∃ es, t.bus.trace = s.bus.trace ++ es ++ lineEvents ∧ es.any Event.isEnableLine = false) ∧
      t.bus.oscEn = true ∧ t.bus.mmcxSel = true ∧ t.bus.refclkSel = true) ∨
    ((∃ k v, t.bus.initStatus = .failed k v) ∧ s.bus.Quiet t.bus) := by
  obtain ⟨_, _, _, _, b, hq, (⟨hh, rfl⟩ | ⟨_, rfl⟩)⟩ := execBringUp_cases h
  · exact .inr ⟨Bus.halted_eq_true.1 hh, hq⟩
  · obtain ⟨es, he, hn⟩ := hq.trace
    exact .inl ⟨rfl, ⟨es, congrArg (· ++ lineEvents) he, hn⟩, rfl, rfl, rfl⟩

end Sys2Proof.Machine

namespace Sys2Proof.Proofs

open Sys2Proof.Machine

/-- Settles O44: where bring-up asserts the lines is `exec_bringUp_lines`; that none is driven inactive again is
`exec_linesStay` for operations and `step_linesStay` for steps. -/
theorem enableLinesComeLastAndStay : Obligations.EnableLinesComeLastAndStay := by
  refine ⟨fun s t h => ?_, fun i s t h => ?_⟩
  · obtain hs | ⟨hf, hq⟩ := exec_bringUp_lines h
    · exact .inl hs
    · exact .inr ⟨hf, hq.trace, hq.oscEn, hq.mmcx, hq.refclk⟩
  · obtain ⟨ho, hm, hr⟩ : s.bus.LinesStay t.bus := h.elim exec_linesStay step_linesStay
    exact ⟨ho, hm, hr⟩

end Sys2Proof.Proofs
end

section
/-! PROOF. The wire formats of 30_encoding.md and the codec of 40_link_codec.md: what each decoder accepts, as the exact
converse of the encoder; the fields of a packed word; the signed reading. -/

namespace Sys2Proof.Machine

/-! ### Each decoder accepts exactly what its encoder writes -/

theorem splitCw_joinCw (w : CommandWord) : splitCw (joinCw w) = w := by
  have hp := w.payload.isLt
  apply CommandWord.eq_of_toNat
  · rw [splitCw_linkAddress, joinCw_toNat]; omega
  · rw [splitCw_payload, joinCw_toNat]; omega

theorem joinCw_splitCw (w : BitVec 25) : joinCw (splitCw w) = w := by
  apply BitVec.eq_of_toNat_eq
  rw [joinCw_toNat, splitCw_linkAddress, splitCw_payload]
  omega

/-- The rows of a command word accept every pattern of their width (R94). -/
theorem decodeCw_eq_ok {word : Nat} {k : CommandWord → Instr} {i : Instr} :
    decodeCw word k = .ok i ↔ ∃ w, word = (joinCw w).toNat ∧ i = k w := by
  unfold decodeCw
  constructor
  · intro h
    split at h
    · cases h
      exact ⟨_, by rw [joinCw_splitCw, BitVec.toNat_ofNat, Nat.mod_eq_of_lt ‹_›], rfl⟩
    · cases h
  · rintro ⟨w, rfl, rfl⟩
    rw [if_pos (joinCw w).isLt, BitVec.ofNat_toNat, BitVec.setWidth_eq, splitCw_joinCw]

/-- The parts of a byte that a command byte is read from, as numbers (R100, R101). -/
theorem opcodeBit_eq_iff {b : BitVec 8} {o : BitVec 1} : b.extractLsb' 7 1 = o ↔ b.toNat / 128 = o.toNat := by
  have hb := b.isLt
  rw [← BitVec.toNat_inj]
  simp [Nat.shiftRight_eq_div_pow]
  omega

theorem reservedBits_eq_iff {b : BitVec 8} :
    b.extractLsb' 5 2 = literals.frameReserved ↔ b.toNat / 32 % 4 = 0 := by
  rw [← BitVec.toNat_inj]
  simp [literals, Nat.shiftRight_eq_div_pow]

/-- A byte is read as a register address exactly when it is the command byte of that address (R100, R101, R104). -/
theorem decodeCommandByte_eq_ok {o : BitVec 1} {b : BitVec 8} {r : RegAddr} :
    decodeCommandByte o b = .ok r ↔ b = commandByte o r := by
  have hr := r.isLt
  have hb := b.isLt
  unfold decodeCommandByte
  rw [← BitVec.toNat_inj (x := b), commandByte_toNat]
  constructor
  · intro h
    split at h
    · cases h
    · split at h
      · cases h
      · rename_i ho hr
        have ho := opcodeBit_eq_iff.1 (not_not.1 ho)
        have hr := reservedBits_eq_iff.1 (not_not.1 hr)
        cases h
        simp
        omega
  · intro h
    rw [if_neg (not_not.2 (opcodeBit_eq_iff.2 (by omega))), if_neg (not_not.2 (reservedBits_eq_iff.2 (by omega)))]
    congr 1
    apply BitVec.eq_of_toNat_eq
    simp
    omega

theorem exceptMap_eq_ok {α β : Type} {e : Except Reject α} {f : α → β} {y : β} :
    e.map f = .ok y ↔ ∃ x, e = .ok x ∧ y = f x := by
  cases e <;> simp [Except.map, eq_comm]

/-- The rows of a read command accept exactly the read commands (R101). -/
theorem decodeRc_eq_ok {word : Nat} {k : RegAddr → Instr} {i : Instr} :
    decodeRc word k = .ok i ↔ ∃ r, word = (readCommand r).toNat ∧ i = k r := by
  unfold decodeRc
  constructor
  · intro h
    split at h
    · obtain ⟨r, hr, rfl⟩ := exceptMap_eq_ok.1 h
      exact ⟨r, by rw [readCommand, ← decodeCommandByte_eq_ok.1 hr, BitVec.toNat_ofNat, Nat.mod_eq_of_lt ‹_›], rfl⟩
    · cases h
  · rintro ⟨r, rfl, rfl⟩
    rw [if_pos (readCommand r).isLt, BitVec.ofNat_toNat, BitVec.setWidth_eq]
    exact exceptMap_eq_ok.2 ⟨r, decodeCommandByte_eq_ok.2 rfl, rfl⟩

theorem append_extract_24 (w : BitVec 24) : w.extractLsb' 16 8 ++ w.extractLsb' 0 16 = w := by
  have hw := w.isLt
  apply BitVec.eq_of_toNat_eq
  rw [BitVec.toNat_append, ← Nat.shiftLeft_add_eq_or_of_lt (BitVec.isLt _)]
  simp [Nat.shiftLeft_eq, Nat.shiftRight_eq_div_pow]
  omega

/-- The 24-bit rows accept exactly a command byte of their opcode followed by 16 bits (R100, R105). -/
theorem decode24_eq_ok {o : BitVec 1} {word : Nat} {k : RegAddr → RegData → Instr} {i : Instr} :
    decode24 o word k = .ok i ↔ ∃ r d, word = (commandByte o r ++ d).toNat ∧ i = k r d := by
  unfold decode24
  constructor
  · intro h
    split at h
    · obtain ⟨r, hr, rfl⟩ := exceptMap_eq_ok.1 h
      refine ⟨r, _, ?_, rfl⟩
      rw [← decodeCommandByte_eq_ok.1 hr, append_extract_24, BitVec.toNat_ofNat, Nat.mod_eq_of_lt ‹_›]
    · cases h
  · rintro ⟨r, d, rfl, rfl⟩
    rw [if_pos (BitVec.isLt _)]
    refine exceptMap_eq_ok.2 ⟨r, decodeCommandByte_eq_ok.2 ?_, ?_⟩
    · rw [BitVec.ofNat_toNat, BitVec.setWidth_eq, BitVec.extractLsb'_append_eq_left]
    · rw [BitVec.ofNat_toNat, BitVec.setWidth_eq, BitVec.extractLsb'_append_eq_right]

theorem decodeFixed_eq_ok {frame word : Nat} {i j : Instr} :
    decodeFixed frame word i = .ok j ↔ word = frame ∧ j = i := by
  unfold decodeFixed
  split <;> simp_all [eq_comm]

/-! ### Operands that fit their fields come back -/

theorem containers_toNat (w : CommandWord) : containers w.linkAddress.toNat w.payload.toNat = w := by
  simp [containers]

/-- Packing what was unpacked (R92, R93). -/
theorem packWord_fields (w : CommandWord) : packWord (addressOf w) (valueOf w) (enableOf w.payload) = w := by
  have hp := w.payload.isLt
  have hl := w.linkAddress.isLt
  apply CommandWord.eq_of_toNat
  · rw [packWord_linkAddress, addressOf_toNat]
    omega
  · rw [packWord_payload, addressOf_toNat, valueOf_toNat, enableOf_eq]
    simp only [decide_eq_true_eq]
    split <;> omega

theorem codecEncode_fields (w : CommandWord) :
    codecEncode (addressOf w).toNat (valueOf w).toNat (enableOf w.payload) = w := by
  rw [codecEncode, trunc10, trunc14, BitVec.ofNat_toNat, BitVec.setWidth_eq, BitVec.ofInt_natCast,
    BitVec.ofNat_toNat, BitVec.setWidth_eq, packWord_fields]

theorem codecDecode_codecEncode (a : Nat) (v : Int) (e : Bool) :
    codecDecode (codecEncode a v e) = (trunc10 a, trunc14 v, e) := codecDecode_packWord _ _ _

theorem trunc5_toNat_self (r : RegAddr) : trunc5 r.toNat = r := by simp [trunc5]

theorem trunc16_toNat_self (d : RegData) : trunc16 d.toNat = d := by simp [trunc16]

theorem trunc14_toNat_of_field {v : Int} (h0 : 0 ≤ v) (h : v < 2 ^ 14) : ((trunc14 v).toNat : Int) = v := by
  rw [trunc14_toNat]; omega

theorem codecDecode_eq {w : CommandWord} {a : SlotAddr} {v : Sample} {e : Bool} :
    codecDecode w = (a, v, e) ↔ addressOf w = a ∧ valueOf w = v ∧ enableOf w.payload = e := by
  simp [codecDecode]

theorem append16_toNat_div (b : BitVec 8) (d : RegData) : (b ++ d).toNat / 2 ^ 16 = b.toNat := by
  have hd := d.isLt
  rw [BitVec.toNat_append, ← Nat.shiftLeft_add_eq_or_of_lt hd, Nat.shiftLeft_eq]
  omega

/-- An operation whose operands fit decodes from its own word: row by row, the decoder's converse at that word. -/
theorem decode_encode {i : Instr} {q : Request} (hf : i.inField = true) (he : encode i = some q) :
    decode q = .ok i := by
  cases i with
  | wr c la p | decode la p =>
    simp only [Instr.inField, Bool.and_eq_true, decide_eq_true_eq] at hf
    cases he
    simp only [decode]
    refine decodeCw_eq_ok.2 ⟨containers la p, rfl, ?_⟩
    rw [containers_linkAddress, containers_payload, Nat.mod_eq_of_lt (by exact hf.1), Nat.mod_eq_of_lt (by exact hf.2)]
  | encode a v e =>
    simp only [Instr.inField, Bool.and_eq_true, decide_eq_true_eq] at hf
    obtain ⟨⟨ha, h0⟩, hv⟩ := hf
    obtain ⟨h1, h2, h3⟩ := codecDecode_eq.1 (codecDecode_codecEncode a v e)
    cases he
    simp only [decode]
    refine decodeCw_eq_ok.2 ⟨codecEncode a v e, rfl, ?_⟩
    rw [h1, h2, h3, trunc14_toNat_of_field h0 hv, trunc10_toNat, Nat.mod_eq_of_lt (by exact ha)]
  | writeRegister i r d =>
    simp only [Instr.inField, Bool.and_eq_true, decide_eq_true_eq] at hf
    cases he
    simp only [decode]
    refine decode24_eq_ok.2 ⟨trunc5 r, trunc16 d, rfl, ?_⟩
    rw [trunc5_toNat, trunc16_toNat, Nat.mod_eq_of_lt (by exact hf.1), Nat.mod_eq_of_lt (by exact hf.2)]
  | rdP1 i r | readRegister i r =>
    simp only [Instr.inField, decide_eq_true_eq] at hf
    cases he
    simp only [decode]
    refine decodeRc_eq_ok.2 ⟨trunc5 r, rfl, ?_⟩
    rw [trunc5_toNat, Nat.mod_eq_of_lt (by exact hf)]
  | rdP2 i r =>
    simp only [Instr.inField, decide_eq_true_eq] at hf
    cases he
    simp only [decode]
    refine decode24_eq_ok.2 ⟨trunc5 r, 0, rfl, ?_⟩
    rw [trunc5_toNat, Nat.mod_eq_of_lt (by exact hf)]
  | timingStatus i | initIdRead i | initCalWriteA i | initCalWriteB i =>
    cases he
    simp only [decode]
    exact decodeFixed_eq_ok.2 ⟨rfl, rfl⟩
  | bringUp | tick _ | dacReset | busConfig _ _ _ _ | busXfer _ | writeSample _ _ _ | writeSamples _ _ | setEnable _ _
  | initDacBank | getDacTimingStatus _ => cases he

/-- A word that decodes is the word of its operation: row by row, the decoder's converse gives the fields. -/
theorem encode_of_decode {q : Request} {i : Instr} (h : decode q = .ok i) : ∃ q', encode i = some q' ∧ q'.op = q.op ∧
    (if q.op = .rdP2 then q'.word / 2 ^ 16 = q.word / 2 ^ 16 else q'.word = q.word) ∧
    (q.op ≠ .encode → q.op ≠ .decode → q'.port = q.port) := by
  obtain ⟨op, port, word⟩ := q
  cases op with
  | wr | decode =>
    simp only [decode] at h
    obtain ⟨w, rfl, rfl⟩ := decodeCw_eq_ok.1 h
    exact ⟨_, rfl, rfl, by simp [containers_toNat], by simp⟩
  | encode =>
    simp only [decode] at h
    obtain ⟨w, rfl, rfl⟩ := decodeCw_eq_ok.1 h
    exact ⟨_, rfl, rfl, by simp [codecEncode_fields], by simp⟩
  | writeRegister =>
    simp only [decode] at h
    obtain ⟨r, d, rfl, rfl⟩ := decode24_eq_ok.1 h
    exact ⟨_, rfl, rfl, by simp [trunc5_toNat_self, trunc16_toNat_self, writeFrame], fun _ _ => rfl⟩
  | rdP2 =>
    simp only [decode] at h
    obtain ⟨r, d, rfl, rfl⟩ := decode24_eq_ok.1 h
    refine ⟨_, rfl, rfl, ?_, fun _ _ => rfl⟩
    rw [if_pos rfl, trunc5_toNat_self, readCommand, append16_toNat_div, append16_toNat_div]
  | rdP1 | readRegister =>
    simp only [decode] at h
    obtain ⟨r, rfl, rfl⟩ := decodeRc_eq_ok.1 h
    exact ⟨_, rfl, rfl, by simp [trunc5_toNat_self], fun _ _ => rfl⟩
  | timingStatus | initIdRead | initCalWriteA | initCalWriteB =>
    simp only [decode] at h
    obtain ⟨rfl, rfl⟩ := decodeFixed_eq_ok.1 h
    exact ⟨_, rfl, rfl, rfl, fun _ _ => rfl⟩

/-! ### Reserved bits -/

theorem decodeCommandByte_reserved {o : BitVec 1} {b : BitVec 8} (ho : b.toNat / 128 = o.toNat)
    (hr : b.toNat / 32 % 4 ≠ 0) : decodeCommandByte o b = .error .reservedBits := by
  unfold decodeCommandByte
  rw [if_neg (not_not.2 (opcodeBit_eq_iff.2 ho)), if_pos (mt reservedBits_eq_iff.1 hr)]

theorem decode24_reserved {o : BitVec 1} {w : Nat} (k : RegAddr → RegData → Instr) (hw : w < 2 ^ 24)
    (ho : w / 2 ^ 23 = o.toNat) (hr : w / 2 ^ 21 % 4 ≠ 0) : decode24 o w k = .error .reservedBits := by
  have hb : ((BitVec.ofNat 24 w).extractLsb' 16 8).toNat = w / 2 ^ 16 := by
    simp [Nat.shiftRight_eq_div_pow]
    omega
  unfold decode24
  rw [if_pos hw]
  simp only [decodeCommandByte_reserved (o := o) (b := (BitVec.ofNat 24 w).extractLsb' 16 8) (by omega) (by omega)]
  rfl

theorem decodeRc_reserved {w : Nat} (k : RegAddr → Instr) (hw : w < 2 ^ 8) (ho : w / 2 ^ 7 = 1)
    (hr : w / 2 ^ 5 % 4 ≠ 0) : decodeRc w k = .error .reservedBits := by
  have hb : (BitVec.ofNat 8 w).toNat = w := Nat.mod_eq_of_lt hw
  unfold decodeRc
  rw [if_pos hw, decodeCommandByte_reserved (by rw [hb]; exact ho) (by rw [hb]; exact hr)]
  rfl

theorem decodeFixed_of_ne {frame word : Nat} (i : Instr) (h : word ≠ frame) :
    decodeFixed frame word i = .error .notTheFixedFrame := if_neg h

/-- The opcode bit of a word of `n + 1` bits. -/
theorem div_eq_toNat_testBit {n w : Nat} (h : w < 2 ^ (n + 1)) : w / 2 ^ n = (w.testBit n).toNat := by
  rw [Nat.testBit_eq_decide_div_mod_eq]
  rw [pow_succ] at h
  have : w / 2 ^ n < 2 := Nat.div_lt_of_lt_mul h
  interval_cases w / 2 ^ n <;> rfl

/-! ### The fields of a payload -/

/-- The payloads of two words that differ in the enable only differ in bit 14 only. -/
theorem packWord_payload_xor (a : SlotAddr) (v : Sample) (e f : Bool) :
    (packWord a v e).payload ^^^ (packWord a v f).payload = 0#2 ++ (enableBit e ^^^ enableBit f) ++ 0#14 := by
  have h := BitVec.xor_append (x₁ := a.extractLsb' 8 2 ++ enableBit e) (x₂ := a.extractLsb' 8 2 ++ enableBit f)
    (y₁ := v) (y₂ := v)
  rw [BitVec.xor_append (x₁ := a.extractLsb' 8 2), BitVec.xor_self, BitVec.xor_self] at h
  exact h

end Sys2Proof.Machine

namespace Sys2Proof.Proofs

open Sys2Proof.Machine

/-- Settles O8: `decode_encode`. -/
theorem encodedWordsDecodeBack : Obligations.EncodedWordsDecodeBack := fun _ _ hf he => decode_encode hf he

/-- Settles O9: `encode_of_decode`. -/
theorem decodedWordsEncodeBack : Obligations.DecodedWordsEncodeBack := fun _ _ h => encode_of_decode h

/-- Settles O10: on the general rows the reserved bits are looked at once the opcode bit is the row's; the reserved bits
of the four fixed frames are 0, so none of them is the word. -/
theorem reservedBitsAreRejected : Obligations.ReservedBitsAreRejected := by
  refine fun port w => ⟨fun hw hr => ?_, fun hw hr => ?_⟩
  · have ho := div_eq_toNat_testBit hw
    refine ⟨fun h => ?_, fun h => ?_, decodeFixed_of_ne _ ?_, decodeFixed_of_ne _ ?_⟩
    · simp only [decode]
      exact decode24_reserved (o := 0) _ hw (by rw [ho, h]; rfl) hr
    · simp only [decode]
      exact decode24_reserved (o := 1) _ hw (by rw [ho, h]; rfl) hr
    · rintro rfl; exact hr rfl
    · rintro rfl; exact hr rfl
  · have ho := div_eq_toNat_testBit hw
    refine ⟨fun h => ⟨?_, ?_⟩, decodeFixed_of_ne _ ?_, decodeFixed_of_ne _ ?_⟩
    · exact decodeRc_reserved _ hw (by rw [ho, h]; rfl) hr
    · exact decodeRc_reserved _ hw (by rw [ho, h]; rfl) hr
    · rintro rfl; exact hr rfl
    · rintro rfl; exact hr rfl

/-- Settles O2: the word is `codecEncode a v e`, whose fields `packWord_linkAddress` and `packWord_payload` give as
numbers. -/
theorem encodePacksTheWord : Obligations.EncodePacksTheWord := by
  refine fun a v e s => ⟨codecEncode a v e, rfl, ?_, ?_⟩
  · rw [codecEncode, packWord_linkAddress, trunc10_toNat]
  · rw [codecEncode, packWord_payload, trunc10_toNat]
    cases e <;> simp

/-- Settles O3: the fields of the two containers as numbers. -/
theorem decodeUnpacksTheWord : Obligations.DecodeUnpacksTheWord := by
  refine fun la p s => ⟨_, _, _, rfl, ?_, ?_, ?_⟩
  · rw [addressOf_toNat, containers_payload, containers_linkAddress]; omega
  · rw [valueOf_toNat, containers_payload, Nat.mod_mod_of_dvd _ (by decide)]; rfl
  · rw [enableOf_eq, containers_payload, Nat.testBit_eq_decide_div_mod_eq]
    congr 2
    omega

/-- Settles O4: unpacking a packed word (`codecDecode_codecEncode`), and packing an unpacked one
(`codecEncode_fields`). -/
theorem codecFunctionsAreInverse : Obligations.CodecFunctionsAreInverse := by
  refine ⟨fun a v e w s t ht hw => ?_, fun w a v e s t ht hd => ?_⟩
  · cases ht
    cases hw
    simp only [exec, execDecode, containers_toNat, codecDecode_codecEncode]
    rfl
  · simp only [exec, execDecode, containers_toNat] at ht
    cases ht
    cases hd
    exact congrArg (fun w' => Host.Outcome.next { s with returned := .commandWord w' }) (codecEncode_fields w)

/-- Settles O5: the payload is three fields side by side, and each operand is in one of them. -/
theorem wordFieldsAreIndependent : Obligations.WordFieldsAreIndependent := by
  refine fun a a' v v' e => ⟨⟨rfl, ?_⟩, ⟨rfl, ?_⟩, ?_⟩
  · rw [codecEncode, codecEncode, packWord_payload_xor]
    cases e <;> rfl
  · simp only [codecEncode, packWord]
    rw [BitVec.extractLsb'_append_eq_left, BitVec.extractLsb'_append_eq_left]
  · apply BitVec.eq_of_toNat_eq
    simp only [BitVec.extractLsb'_toNat, codecEncode, packWord_payload, Nat.shiftRight_zero]
    omega

/-- Settles O7: each word is decoded by evaluation. -/
theorem writtenOutWordsDecode : Obligations.WrittenOutWordsDecode := by
  unfold Obligations.WrittenOutWordsDecode
  decide

/-- Settles O6: the signed reading is the balanced remainder modulo `2^14`. -/
theorem signedReadingIsExactInRange : Obligations.SignedReadingIsExactInRange := by
  intro v
  rw [sext14, BitVec.toInt_ofInt, Int.bmod_eq_iff (by decide)]
  omega

end Sys2Proof.Proofs
end

section
/-! PROOF. The invariant of the machine: every operation, every beginning of one and every turn keeps it, so every step
does; and the reset state has it. -/

namespace Sys2Proof.Machine

/-! ### The driver -/

/-- A step of the driver leaves the steps still to take, or halts it and drops them. -/
theorem BusStep.perform_keeps_todo {m : BusStep} {o o' : Returned} {b b' : Bus}
    (h : m.perform o b = some (o', b')) : b'.todo = b.todo ∨ (b'.halted = true ∧ b'.todo = []) := by
  obtain ⟨ms', h', hms⟩ := BusStep.perform_todo b.todo h
  have e : b'.todo = ms' := congrArg (fun x => x.2.todo) (Option.some.inj (h.symm.trans h'))
  rcases hms with rfl | ⟨hh, _, hn⟩
  · exact .inl e
  · exact .inr ⟨hh, hn⟩

/-- A settled driver with no step to take. -/
theorem Bus.Inv.of_settled {b : Bus} (h : b.Settled) (ht : b.todo = []) : b.Inv := by
  refine ⟨?_, fun _ => ht⟩
  rw [ht]
  exact h

/-- The invariant lasts when the trace gains events. -/
theorem Bus.Inv.of_trace {b : Bus} (h : b.Inv) (es : List Event) : ({ b with trace := b.trace ++ es } : Bus).Inv :=
  ⟨h.sound.of_trace fun _ he => List.mem_append_left _ he, h.stopped⟩

/-- An operation run to its end on a driver that was sound through its steps. -/
theorem Bus.Inv.run {ms : List BusStep} {o o' : Returned} {b b' : Bus} (h : Bus.Sound ms b) (ht : b.todo = [])
    (hr : Bus.run ms o b = some (o', b')) : b'.Inv :=
  .of_settled (h.settled hr) (Bus.run_todo hr ht)

/-- One step of an operation in progress: the steps after it are still to take, unless it halted the driver. -/
theorem Bus.Inv.turn {m : BusStep} {ms : List BusStep} {o o' : Returned} {b b' : Bus} (h : b.Inv)
    (ht : b.todo = m :: ms) (hh : b.halted = false) (hp : m.perform o { b with todo := ms } = some (o', b')) :
    b'.Inv := by
  have hs : Bus.Sound (m :: ms) { b with todo := ms } := by
    have := h.sound
    rw [ht] at this
    exact this.of_todo ms
  have h' := hs.2 _ _ _ hp
  cases hb : b'.halted with
  | true =>
    rw [if_pos hb] at h'
    exact .of_settled h' (BusStep.perform_halts hp hh hb)
  | false =>
    rw [if_neg (by simp [hb])] at h'
    have e : b'.todo = ms := (BusStep.perform_keeps_todo hp).resolve_right (by simp [hb])
    exact ⟨by rwa [e], by simp [hb]⟩

/-! ### The channels and the batch -/

/-- A channel replaced by one whose buffer is in canonical form. -/
theorem State.Inv.set_channel {s : State} (h : s.Inv) {c : Nat} {ch' : Channel} (hw : ch'.sb.wf = true) :
    ({ s with channels := s.channels.set c ch' } : State).Inv where
  someChannel := by simpa using h.someChannel
  buffers ch hc := (List.mem_or_eq_of_mem_set hc).elim (h.buffers ch) fun e => e ▸ hw
  batch d w hd := by simpa using h.batch d w hd
  driver := h.driver

theorem State.Inv.with_bus {s : State} (h : s.Inv) {b : Bus} (hb : b.Inv) (o : Returned) :
    ({ s with bus := b, returned := o } : State).Inv :=
  ⟨h.someChannel, h.buffers, h.batch, hb⟩

/-- A batch queued for a channel that exists. -/
theorem State.Inv.queue_batch {s : State} (h : s.Inv) {c : Nat} {vs : List Int} (e : Bool)
    (hc : vs = [] ∨ c < s.channels.length) :
    ({ s with batch := s.batch ++ batchSteps c e 0 vs } : State).Inv := by
  refine ⟨h.someChannel, h.buffers, fun d w hd => ?_, h.driver⟩
  rcases List.mem_append.1 hd with hd | hd
  · exact h.batch d w hd
  · obtain rfl := batchSteps_word hd
    refine hc.resolve_left ?_
    rintro rfl
    cases hd

/-- The steps of a batch keep the invariant, and what is left of the batch was in it. -/
theorem State.Inv.runBatch {s t : State} {ms : List BatchStep} (h : ({ s with batch := ms } : State).Inv)
    (hr : runBatch ms { s with batch := ms } = .next t) : t.Inv := by
  obtain ⟨chs, n, done, hd, hk, _, _, ht⟩ := runBatch_next hr
  rw [ht]
  refine ⟨by simpa [hk.length] using h.someChannel, hk.wf h.buffers, fun c w hc => ?_, h.driver.of_trace _⟩
  have := h.batch c w (by rw [hd]; exact List.mem_append_right _ hc)
  simpa [hk.length] using this

/-! ### Operations and steps -/

theorem exec_keeps_inv {i : Instr} {s t : State} (hw : i.wellFormed = true) (h : s.Inv) (he : exec i s = .next t) :
    t.Inv := by
  rcases exec_cases he with ⟨hi, _, hf, _⟩ | ⟨c, f, ch, _, _, hf, hc, rfl⟩ | ⟨r, _, _, rfl⟩ | ⟨c, vs, _, hb⟩
  · rcases start_exec i s hi with ⟨_, _, ms, h1, h2⟩ | ⟨o, ho, _, h2⟩
    · obtain ⟨o, b, hr, rfl⟩ := runOperation_next (h2.symm.trans he)
      exact h.with_bus (.run (start_sound hi hw h.driver h1) hf hr) o
    · exact absurd (h2.symm.trans he) (ho t)
  · have hb := h.buffers ch (List.mem_of_getElem? hc)
    refine h.set_channel ?_
    rcases hf with ⟨_, rfl⟩ | ⟨_, w, rfl⟩
    · exact Channel.tick_wf hb c
    · exact Channel.applyWord_wf hb w
  · exact h.with_bus h.driver r
  · obtain ⟨hc, _, rfl, hr⟩ := execWriteSamples_next hb
    exact State.Inv.runBatch (h.queue_batch _ hc) hr

theorem start_keeps_inv {i : Instr} {s t : State} (hw : i.wellFormed = true) (h : s.Inv) (hs : start i s = .next t) :
    t.Inv := by
  rcases start_cases hs with ⟨ms, hi, hh, _, _, rfl⟩ | ⟨c, vs, _, hb⟩ | ⟨_, _, he⟩
  · refine h.with_bus ⟨(start_sound hi hw h.driver hs).of_todo ms, fun h' => ?_⟩ s.returned
    exact absurd (hh.symm.trans h') (by simp)
  · obtain ⟨hc, rfl⟩ := beginBatch_next hb
    exact h.queue_batch _ hc
  · exact exec_keeps_inv hw h he

theorem StepKind.keeps_inv {s t : State} (hk : StepKind s t) (h : s.Inv) : t.Inv := by
  cases hk with
  | run i hw he => exact exec_keeps_inv hw h he
  | begun i hw hs => exact start_keeps_inv hw h hs
  | mark r _ e => rw [e]; exact ⟨h.someChannel, h.buffers, h.batch, h.driver⟩
  | driver m ms hd hh hs =>
    obtain ⟨o, b, hp, rfl⟩ := driverStep_next hs
    exact h.with_bus (h.driver.turn hd hh hp) o
  | batch m ms hb _ hp =>
    have h' : ({ s with batch := ms } : State).Inv :=
      ⟨h.someChannel, h.buffers, fun c w hc => h.batch c w (by rw [hb]; exact List.mem_cons_of_mem _ hc), h.driver⟩
    rcases BatchStep.perform_next hp with ⟨c, w, ch, _, hc, rfl⟩ | ⟨_, rfl⟩
    · exact h'.set_channel (Channel.applyWord_wf (h'.buffers ch (List.mem_of_getElem? hc)) w)
    · exact h'.with_bus (h.driver.of_trace _) s.returned

theorem step_keeps_inv {s t : State} (h : s.Inv) (hs : step s = .next t) : t.Inv := by
  obtain ⟨_, _, hk⟩ := step_cases hs
  exact hk.keeps_inv ⟨h.someChannel, h.buffers, h.batch, h.driver⟩

/-! ### Reset -/

theorem Bus.reset_settled : Bus.reset.Settled where
  cfgLegal := by decide
  lineLegal := nofun
  openHolds := nofun
  linesOrder := ⟨nofun, nofun⟩
  linesAfter := nofun
  failure := nofun
  resetLow := rfl
  linesAgree := ⟨rfl, rfl⟩
  linesBefore _ := rfl

theorem State.reset_inv : State.reset.Inv where
  someChannel := by simp [State.reset]
  buffers := State.reset_buffers_wf
  batch := nofun
  driver := .of_settled Bus.reset_settled rfl

end Sys2Proof.Machine

namespace Sys2Proof.Proofs

open Sys2Proof.Machine

/-- Settles O56: `step_keeps_inv`, by what a step can be (`step_cases`). -/
theorem stepKeepsInvariant : Obligations.StepKeepsInvariant := fun _ _ => step_keeps_inv

/-- Settles O57: `State.reset_inv`. -/
theorem resetHasInvariant : Obligations.ResetHasInvariant := State.reset_inv

/-- Settles O58: every channel is a copy of `Channel.reset`; the driver's fields are those of `Bus.reset`. -/
theorem resetStateIsTheLaunchState : Obligations.ResetStateIsTheLaunchState := by
  refine ⟨State.reset_inv.someChannel, fun ch hc => ?_, rfl, rfl, rfl, rfl, rfl, rfl, rfl, rfl, rfl, rfl, rfl, rfl⟩
  rw [List.eq_of_mem_replicate hc]
  exact ⟨rfl, rfl, rfl, fun _ => rfl⟩

end Sys2Proof.Proofs
end

section
/-! PROOF. The sample path of 41_sample_store_playback.md: one tick and any number of them on their channel, words and
ticks of one channel in both orders, and words and ticks of two channels. -/

namespace Sys2Proof.Machine

/-! ### One tick, and any number of them -/

/-- On a channel that exists, `TICK` replaces it by itself after one tick. -/
theorem exec_tick_of {s : State} {c : Nat} {ch : Channel} (h : s.channels[c]? = some ch) :
    exec (.tick c) s = .next { s with channels := s.channels.set c (ch.tick c) } :=
  onChannel_of h (Channel.tick c)

theorem exec_tick_next {s : State} {c : Nat} {ch : Channel} (h : s.channels[c]? = some ch) :
    ∃ t, exec (.tick c) s = .next t ∧ t.channels[c]? = some (ch.tick c) :=
  ⟨_, exec_tick_of h, channels_set_self _ h⟩

/-- After a word the flag is the word's, and the pointer is where it was. -/
theorem exec_wr_next {s : State} {c : Nat} {ch : Channel} (h : s.channels[c]? = some ch) (la p : Nat) :
    ∃ t ch', exec (.wr c la p) s = .next t ∧ t.channels[c]? = some ch' ∧ ch'.en = p.testBit 14 ∧ ch'.rp = ch.rp :=
  ⟨_, _, exec_wr_of h la p, channels_set_self _ h, rfl, rfl⟩

theorem channels_set_getElem {chs : List Channel} {c : Nat} {ch : Channel} (h : chs[c]? = some ch) :
    chs.set c ch = chs := by
  obtain ⟨_, rfl⟩ := List.getElem?_eq_some_iff.1 h
  exact List.set_getElem_self _

/-- Ticks of a channel that exists replace it by itself after as many ticks. -/
theorem ticks_of {c : Nat} : ∀ {n : Nat} {s : State} {ch : Channel}, s.channels[c]? = some ch →
    ticks c n s = .next { s with channels := s.channels.set c ((Channel.tick c)^[n] ch) } := by
  intro n
  induction n with
  | zero =>
    intro s ch h
    rw [Function.iterate_zero, id, channels_set_getElem h]
    rfl
  | succ n ih =>
    intro s ch h
    rw [ticks, exec_tick_of h]
    simp only
    rw [ih (channels_set_self _ h), List.set_set]
    rfl

/-- Ticks read the buffer and the flag and leave both. -/
theorem Channel.ticks_keep (c n : Nat) (ch : Channel) :
    ((Channel.tick c)^[n] ch).sb = ch.sb ∧ ((Channel.tick c)^[n] ch).en = ch.en := by
  induction n with
  | zero => exact ⟨rfl, rfl⟩
  | succ n ih =>
    rw [Function.iterate_succ_apply', Channel.tick_sb, Channel.tick_en]
    exact ih

/-- The pointer of a running channel advances by one in each tick. -/
theorem Channel.ticks_rp {c : Nat} {ch : Channel} (h : ch.en = true) (n : Nat) :
    ((Channel.tick c)^[n] ch).rp = ch.rp + BitVec.ofNat 10 n := by
  induction n with
  | zero => simp
  | succ n ih =>
    rw [Function.iterate_succ_apply', Channel.tick_running ((Channel.ticks_keep c n ch).2.trans h)]
    simp only [ih, BitVec.ofNat_add, BitVec.add_assoc]
    rfl

theorem Channel.slot_congr {c : Nat} {ch ch' : Channel} (h : ch'.sb = ch.sb) (a : SlotAddr) :
    ch'.slot c a = ch.slot c a := by
  simp [Channel.slot, h]

/-- The output of tick number `n` of a running channel, counted from 0. -/
theorem Channel.ticks_out {c : Nat} {ch : Channel} (h : ch.en = true) (n : Nat) :
    ((Channel.tick c)^[n + 1] ch).out = ch.slot c (ch.rp + BitVec.ofNat 10 n) := by
  obtain ⟨hsb, hen⟩ := Channel.ticks_keep c n ch
  rw [Function.iterate_succ_apply', Channel.tick_running (hen.trans h), ← Channel.ticks_rp h n]
  exact Channel.slot_congr hsb _

/-! ### Steps of two channels -/

/-- A word or a tick is a step of its channel's agent. -/
theorem exec_word_or_tick {i : Instr} {c la p : Nat} (h : i = .wr c la p ∨ i = .tick c) :
    ∃ f, ∀ s, exec i s = onChannel c f s := by
  rcases h with rfl | rfl
  · exact ⟨_, fun _ => rfl⟩
  · exact ⟨_, fun _ => rfl⟩

/-- Steps of distinct channels commute, and leave each other's channel alone. -/
theorem onChannel_comm {c d : Nat} (hcd : c ≠ d) {f g : Channel → Channel} {s t u : State}
    (h : onChannel c f s = .next t) (h' : onChannel d g t = .next u) :
    t.channels[d]? = s.channels[d]? ∧ ∃ t', onChannel d g s = .next t' ∧ onChannel c f t' = .next u := by
  obtain ⟨ch, hc, rfl⟩ := onChannel_next h
  obtain ⟨ch', hd, rfl⟩ := onChannel_next h'
  have e : (s.channels.set c (f ch))[d]? = s.channels[d]? := List.getElem?_set_ne hcd
  refine ⟨e, _, onChannel_of (e.symm.trans hd) g, ?_⟩
  rw [onChannel_of (ch := ch) (by simpa [List.getElem?_set_ne hcd.symm] using hc)]
  simp only [List.set_comm _ _ hcd]

/-! ### Sample buffers -/

/-- In canonical form a buffer is determined by what its slots hold: the first listed address is the least written. -/
theorem Memory.ext_read : ∀ {m m' : Memory}, m.wf = true → m'.wf = true → (∀ a, m.read? a = m'.read? a) → m = m' := by
  intro m
  induction m with
  | nil =>
    intro m' _ _ h
    cases m' with
    | nil => rfl
    | cons e m' => have := h e.1; simp [Memory.read?] at this
  | cons e m ih =>
    intro m' hm hm' h
    obtain ⟨k, v⟩ := e
    cases m' with
    | nil => have := h k; simp [Memory.read?] at this
    | cons e' m' =>
      obtain ⟨k', v'⟩ := e'
      obtain ⟨_, hk, hw⟩ := Memory.wf_cons.1 hm
      obtain ⟨_, hk', hw'⟩ := Memory.wf_cons.1 hm'
      have below : ∀ {j l : Nat} {w : Sample} {n : Memory}, j < l → (∀ e ∈ n, l < e.1) →
          Memory.read? ((l, w) :: n) j = none := fun hj hn => Memory.read?_eq_none fun e he =>
        (List.mem_cons.1 he).elim (fun e' => e' ▸ hj) fun he => hj.trans (hn e he)
      rcases Nat.lt_trichotomy k k' with hlt | rfl | hlt
      · have := h k
        rw [below hlt hk'] at this
        simp [Memory.read?] at this
      · have hv : v = v' := by simpa [Memory.read?] using h k
        rw [hv, ih hw hw' fun a => ?_]
        by_cases ha : k = a
        · rw [← ha, Memory.read?_eq_none hk, Memory.read?_eq_none hk']
        · simpa [Memory.read?, ha] using h a
      · have := h k'
        rw [below hlt hk] at this
        simp [Memory.read?] at this

end Sys2Proof.Machine

namespace Sys2Proof.Proofs

open Sys2Proof.Machine

/-- Settles O12: one tick of an idle and of a running channel (`Channel.tick_idle`, `Channel.tick_running`). -/
theorem tickPlaysOrIdles : Obligations.TickPlaysOrIdles := by
  refine fun s c ch h => ⟨ch.tick c, exec_tick_of h, ch.tick_sb c, ch.tick_en c, ch.tick_tpDraws c, fun he => ?_,
    fun he => ?_⟩
  · rw [Channel.tick_idle he]
    exact ⟨rfl, rfl⟩
  · rw [Channel.tick_running he]
    exact ⟨rfl, by simp⟩

/-- Settles O13: the word leaves the flag 0, and an idle tick leaves output and pointer 0. -/
theorem stopWordSilencesNextTick : Obligations.StopWordSilencesNextTick := by
  intro s c la p hc hp
  obtain ⟨t, ch, ht, h₁, he, _⟩ := exec_wr_next (List.getElem?_eq_getElem hc) la p
  obtain ⟨u, hu, h₂⟩ := exec_tick_next h₁
  refine ⟨t, u, _, ht, hu, h₂, ?_⟩
  rw [Channel.tick_idle (he.trans hp)]
  exact ⟨rfl, rfl⟩

/-- Settles O14: the tick between the words zeroes the pointer, and no word moves it. -/
theorem onlyAnObservedDisableResetsThePointer : Obligations.OnlyAnObservedDisableResetsThePointer := by
  refine ⟨fun s c la p la' p' hc hp hp' => ?_, fun s c la p la' p' ch h hp' => ?_⟩
  · obtain ⟨t₁, ch₁, ht₁, h₁, he₁, _⟩ := exec_wr_next (List.getElem?_eq_getElem hc) la p
    obtain ⟨t₂, ht₂, h₂⟩ := exec_tick_next h₁
    obtain ⟨t₃, ch₃, ht₃, h₃, he₃, hr₃⟩ := exec_wr_next h₂ la' p'
    obtain ⟨t₄, ht₄, h₄⟩ := exec_tick_next h₃
    refine ⟨t₁, t₂, t₃, t₄, ch₃, _, ht₁, ht₂, ht₃, ht₄, h₃, h₄, ?_⟩
    rw [Channel.tick_idle (he₁.trans hp)] at hr₃
    rw [Channel.tick_running (he₃.trans hp'), hr₃]
    exact ⟨rfl, rfl⟩
  · obtain ⟨t₁, ch₁, ht₁, h₁, _, hr₁⟩ := exec_wr_next h la p
    obtain ⟨t₂, ch₂, ht₂, h₂, he₂, hr₂⟩ := exec_wr_next h₁ la' p'
    obtain ⟨t₃, ht₃, h₃⟩ := exec_tick_next h₂
    refine ⟨t₁, t₂, t₃, ch₂, _, ht₁, ht₂, ht₃, h₂, h₃, ?_⟩
    rw [Channel.tick_running (he₂.trans hp'), hr₂, hr₁]
    exact ⟨rfl, rfl⟩

/-- Settles O15: `Channel.ticks_out` from pointer 0. -/
theorem playbackIsPeriodic : Obligations.PlaybackIsPeriodic := by
  intro s c ch h he hr k
  refine ⟨_, _, ticks_of h, channels_set_self _ h, ?_⟩
  rw [Channel.ticks_out he, hr]
  congr 1
  apply BitVec.eq_of_toNat_eq
  simp

/-- Settles O16: `Channel.ticks_rp` and `Channel.ticks_keep`. -/
theorem pointerAfterTicks : Obligations.PointerAfterTicks := by
  intro s c n ch h he
  obtain ⟨hsb, hen⟩ := Channel.ticks_keep c n ch
  refine ⟨_, ticks_of h, ?_, hsb, hen.trans he⟩
  rw [Channel.ticks_rp he]
  simp

/-- Settles O17: of two stores to one slot the later remains (`Channel.store_store_same`). -/
theorem lastWordWins : Obligations.LastWordWins := by
  have last : ∀ (s t : State) (c la p la' p' : Nat), p / 2 ^ 15 % 4 = p' / 2 ^ 15 % 4 → la % 256 = la' % 256 →
      exec (.wr c la p) s = .next t → exec (.wr c la' p') t = exec (.wr c la' p') s := by
    intro s t c la p la' p' hp hl h
    obtain ⟨ch, hc, _⟩ := onChannel_next h
    rw [exec_wr_of hc] at h
    cases h
    rw [exec_wr_of (channels_set_self _ hc), exec_wr_of hc, hp, hl, Channel.store_store_same]
    simp only [List.set_set]
  exact ⟨last, fun s t c la p h => (last s t c la p la p rfl rfl h).trans h⟩

/-- Settles O18: the tick reads the slot at the pointer, which is the slot the word stores to. -/
theorem raceHasTwoWholeOutcomes : Obligations.RaceHasTwoWholeOutcomes := by
  intro s c la p ch h he hp hr
  have ha : BitVec.ofNat 10 (p / 2 ^ 15 % 4 * 256 + la % 256) = ch.rp := by
    rw [← hr, BitVec.ofNat_toNat, BitVec.setWidth_eq]
  have h₁ := channels_set_self (ch.store ch.rp (BitVec.ofNat 14 p) (p.testBit 14)) h
  have h₂ := channels_set_self (ch.tick c) h
  refine ⟨_, _, _, _, _, _, by rw [exec_wr_of h, ha], exec_tick_of h₁, exec_tick_of h, exec_wr_of h₂ la p,
    channels_set_self _ h₁, channels_set_self _ h₂, ?_⟩
  rw [Channel.tick_running hp, Channel.tick_running he, ha]
  exact ⟨Channel.slot_store_same .., rfl, rfl, rfl, hp, hp⟩

/-- Settles O19: both are steps of one channel's agent, and such steps of two channels commute (`onChannel_comm`). -/
theorem channelsAreIndependent : Obligations.ChannelsAreIndependent := by
  intro c d la p la' p' i j s t u hcd hi hj ht hu
  obtain ⟨f, hf⟩ := exec_word_or_tick hi
  obtain ⟨g, hg⟩ := exec_word_or_tick hj
  simp only [hf, hg] at *
  exact onChannel_comm hcd ht hu

/-- Settles O20: `Memory.ext_read`. -/
theorem equalBuffersAreEqualData : Obligations.EqualBuffersAreEqualData := fun _ _ => Memory.ext_read

/-- Settles O22: each call is one word made by `ENCODE`, which is one store (`Channel.applyWord_codecEncode`). -/
theorem facadeCallsSendOneWord : Obligations.FacadeCallsSendOneWord := by
  have send : ∀ {s : State} {c : Nat} {ch : Channel}, s.channels[c]? = some ch → ∀ (a : Nat) (v : Int) (e : Bool),
      sendWord c a v e s = .next { s with channels := s.channels.set c (ch.store (trunc10 a) (trunc14 v) e) } := by
    intro s c ch h a v e
    rw [sendWord, onChannel_of h, Channel.applyWord_codecEncode]
  exact fun s c a v e ch h => ⟨⟨_, send h _ _ _, Channel.stored_store ..⟩, ⟨_, send h _ _ _, Channel.stored_store ..⟩⟩

end Sys2Proof.Proofs
end

section
/-! PROOF. Fair infinite runs (20_memory.md R76, 41_sample_store_playback.md R141): between two ticks of a channel its
pointer stays, and every channel ticks again. -/

namespace Sys2Proof.Machine

section
variable {env : Nat → List Stimulus} {σ : Nat → State} {c : Nat}

/-- One step of a run leaves a channel's pointer and output, or ticks it. -/
theorem InfiniteRun.play (h : InfiniteRun env σ) {n : Nat} {ch : Channel} (hc : (σ n).channels[c]? = some ch) :
    ∃ ch', (σ (n + 1)).channels[c]? = some ch' ∧ ch.KeptOrTicked c ch' :=
  step_play (h n) hc

theorem InfiniteRun.channel (h : InfiniteRun env σ) (hc : c < (σ 0).channels.length) (n : Nat) :
    ∃ ch, (σ n).channels[c]? = some ch := by
  induction n with
  | zero => exact ⟨_, List.getElem?_eq_getElem hc⟩
  | succ n ih =>
    obtain ⟨ch, hn⟩ := ih
    obtain ⟨ch', hn', _⟩ := h.play hn
    exact ⟨ch', hn'⟩

/-- Step `n` of a run ticks channel `c`, which is `ch` before it. -/
def TickOf (σ : Nat → State) (c n : Nat) (ch : Channel) : Prop :=
  (σ n).channels[c]? = some ch ∧ (σ (n + 1)).channels[c]? = some (ch.tick c)

/-- Where a tick is to come, the first one finds the pointer where it is now. -/
theorem InfiniteRun.tick_within (h : InfiniteRun env σ) : ∀ {d n : Nat} {ch : Channel},
    (σ n).channels[c]? = some ch → TicksAt σ (n + d) c → ∃ m ch', n ≤ m ∧ TickOf σ c m ch' ∧ ch'.rp = ch.rp := by
  intro d
  induction d with
  | zero =>
    rintro n ch hc ⟨ch', h₁, h₂⟩
    cases hc.symm.trans h₁
    exact ⟨n, ch, Nat.le_refl n, ⟨h₁, h₂⟩, rfl⟩
  | succ d ih =>
    intro n ch hc ht
    obtain ⟨ch', hc', hk⟩ := h.play hc
    rcases hk with ⟨hr, _⟩ | rfl
    · obtain ⟨m, x, hm, hx, hr'⟩ := ih hc' (by rwa [Nat.add_right_comm])
      exact ⟨m, x, by omega, hx, hr'.trans hr⟩
    · exact ⟨n, ch, Nat.le_refl n, ⟨hc, hc'⟩, rfl⟩

/-- In a fair run every channel ticks again, and the next tick finds the pointer where it is now. -/
theorem InfiniteRun.next_tick (h : InfiniteRun env σ) (hf : Fair σ) (hc : c < (σ 0).channels.length) {n : Nat}
    {ch : Channel} (hn : (σ n).channels[c]? = some ch) : ∃ m ch', n ≤ m ∧ TickOf σ c m ch' ∧ ch'.rp = ch.rp := by
  obtain ⟨m, hm, ht⟩ := hf c hc n
  exact h.tick_within (d := m - n) hn (by rwa [Nat.add_sub_cancel' hm])

/-- A channel that stays enabled comes to tick with its pointer `k` slots ahead, for every `k`. -/
theorem InfiniteRun.plays_ahead (h : InfiniteRun env σ) (hf : Fair σ) (hc : c < (σ 0).channels.length) {n₀ : Nat}
    (hen : ∀ n ch, n₀ ≤ n → (σ n).channels[c]? = some ch → ch.en = true) : ∀ {k n : Nat} {ch : Channel}, n₀ ≤ n →
    (σ n).channels[c]? = some ch → ∃ m ch', n ≤ m ∧ TickOf σ c m ch' ∧ ch'.rp = ch.rp + BitVec.ofNat 10 k := by
  intro k
  induction k with
  | zero =>
    intro n ch _ hn
    simpa using h.next_tick hf hc hn
  | succ k ih =>
    intro n ch h₀ hn
    obtain ⟨m, x, hm, ⟨hx, hx'⟩, hr⟩ := h.next_tick hf hc hn
    obtain ⟨m', y, hm', hy, hr'⟩ := ih (by omega) hx'
    refine ⟨m', y, by omega, hy, ?_⟩
    rw [hr', Channel.tick_running (hen m x (by omega) hx)]
    simp only [hr, BitVec.add_assoc, Nat.add_comm k 1, BitVec.ofNat_add]
    rfl

/-- A channel that stays disabled stays silent once it is. -/
theorem InfiniteRun.stays_silent (h : InfiniteRun env σ) {n₀ : Nat}
    (hen : ∀ n ch, n₀ ≤ n → (σ n).channels[c]? = some ch → ch.en = false) {m : Nat} (hm : n₀ ≤ m) {ch : Channel}
    (hc : (σ m).channels[c]? = some ch) (hs : ch.out = 0 ∧ ch.rp = 0) (d : Nat) :
    ∃ ch', (σ (m + d)).channels[c]? = some ch' ∧ ch'.out = 0 ∧ ch'.rp = 0 := by
  induction d with
  | zero => exact ⟨ch, hc, hs⟩
  | succ d ih =>
    obtain ⟨x, hx, ho, hr⟩ := ih
    obtain ⟨x', hx', hk⟩ := h.play hx
    refine ⟨x', hx', ?_⟩
    rcases hk with ⟨hr', ho'⟩ | rfl
    · exact ⟨ho'.trans ho, hr'.trans hr⟩
    · rw [Channel.tick_idle (hen _ x (by omega) hx)]
      exact ⟨rfl, rfl⟩

end

end Sys2Proof.Machine

namespace Sys2Proof.Proofs

open Sys2Proof.Machine

/-- Settles O21: an enabled channel ticks with its pointer at every slot in turn (`InfiniteRun.plays_ahead`); a disabled
one is silent after its next tick (`InfiniteRun.stays_silent`). -/
theorem fairRunsPlayEverySlot : Obligations.FairRunsPlayEverySlot := by
  refine fun env σ c n₀ h hf hc => ⟨fun hen a n hn => ?_, fun hen => ?_⟩
  · obtain ⟨ch, hch⟩ := h.channel hc n
    obtain ⟨m, x, hm, ⟨hx, hx'⟩, hr⟩ := h.plays_ahead hf hc hen (k := (a - ch.rp).toNat) hn hch
    have ha : x.rp = a := by
      rw [hr, BitVec.ofNat_toNat, BitVec.setWidth_eq, BitVec.add_comm, BitVec.sub_add_cancel]
    refine ⟨m, x, _, hm, hx, ha, hx', ?_⟩
    rw [Channel.tick_running (hen m x (by omega) hx), ← ha]
  · obtain ⟨ch, hch⟩ := h.channel hc n₀
    obtain ⟨m, x, hm, ⟨hx, hx'⟩, _⟩ := h.next_tick hf hc hch
    have hs : (x.tick c).out = 0 ∧ (x.tick c).rp = 0 := by
      rw [Channel.tick_idle (hen m x hm hx)]
      exact ⟨rfl, rfl⟩
    refine ⟨m + 1, fun n ch' hn hch' => ?_⟩
    obtain ⟨y, hy, ho⟩ := h.stays_silent hen (by omega) hx' hs (n - (m + 1))
    rw [Nat.add_sub_cancel' hn] at hy
    cases hy.symm.trans hch'
    exact ho

end Sys2Proof.Proofs
end

section
/-! PROOF. Batches of writes (44_control_facade.md R192): the steps of a batch one by one, a whole batch on its channel,
and a batch's turn. -/

namespace Sys2Proof.Machine

/-! ### The steps of a batch -/

theorem runBatch_word {s : State} {c : Nat} {ch : Channel} (h : s.channels[c]? = some ch) (w : CommandWord)
    (ms : List BatchStep) : runBatch (.word c w :: ms) s =
      runBatch ms { s with channels := s.channels.set c (ch.applyWord w) } := by
  rw [runBatch, if_neg (by simp [BatchStep.waits]), BatchStep.perform, onChannel_of h]

theorem runBatch_gap {s : State} (h : s.bus.phase = .idle) (ms : List BatchStep) : runBatch (.gap :: ms) s =
    runBatch ms { s with bus := s.bus.emit (.delay .writeGap 100) } := by
  rw [runBatch, if_neg (by simp [BatchStep.waits, h])]
  rfl

/-- Under an open read a batch stays in progress at its gap (20_memory.md R80; log 4). -/
theorem runBatch_gap_waits {s : State} (h : s.bus.phase ≠ .idle) (ms : List BatchStep) :
    runBatch (.gap :: ms) s = .next { s with batch := .gap :: ms } := by
  rw [runBatch, if_pos (by simp [BatchStep.waits, h])]

/-- A batch of no values, or on a channel that exists, may begin. -/
theorem beginBatch_of {s : State} {c : Nat} {vs : List Int} (h : vs = [] ∨ c < s.channels.length) :
    beginBatch c vs s = .next { s with batch := s.batch ++ batchSteps c s.params.facadeLoadEnable 0 vs } := by
  unfold beginBatch
  refine if_neg ?_
  rcases h with rfl | h
  · simp
  · simp [h]

/-- A batch that may begin runs after the steps of the batch in progress. -/
theorem exec_writeSamples_of {s : State} {c : Nat} {vs : List Int} (h : vs = [] ∨ c < s.channels.length) :
    exec (.writeSamples c vs) s = runBatch (s.batch ++ batchSteps c s.params.facadeLoadEnable 0 vs)
      { s with batch := s.batch ++ batchSteps c s.params.facadeLoadEnable 0 vs } := by
  rw [exec, execWriteSamples, beginBatch_of h]

/-! ### A whole batch on its channel -/

/-- A channel after a batch's words for the slots from `k` on. -/
def Channel.load (e : Bool) : Nat → List Int → Channel → Channel
  | _, [], ch => ch
  | k, v :: vs, ch => Channel.load e (k + 1) vs (ch.store (trunc10 k) (trunc14 v) e)

/-- The words of a batch are stores to its channel, and its gaps are events, one between each write and the next. -/
theorem runBatch_batchSteps {c : Nat} {e : Bool} : ∀ {vs : List Int} {k : Nat} {s : State} {ch : Channel},
    s.channels[c]? = some ch → s.bus.phase = .idle ∨ vs.length ≤ 1 →
    runBatch (batchSteps c e k vs) s = .next { s with
      channels := s.channels.set c (ch.load e k vs)
      bus := { s.bus with trace := s.bus.trace ++ List.replicate (vs.length - 1) (.delay .writeGap 100) }
      batch := [] } := by
  intro vs
  induction vs with
  | nil =>
    intro k s ch h _
    simp [batchSteps, runBatch, Channel.load, channels_set_getElem h]
  | cons v vs ih =>
    intro k s ch h hp
    cases vs with
    | nil =>
      rw [batchSteps, runBatch_word h, Channel.applyWord_codecEncode]
      simp [runBatch, Channel.load]
    | cons w vs =>
      have hi : s.bus.phase = .idle := hp.resolve_right (by simp)
      rw [batchSteps, runBatch_word h, Channel.applyWord_codecEncode, runBatch_gap (by exact hi),
        ih (ch := ch.store _ _ _) (by exact channels_set_self _ h) (.inl (by exact hi))]
      simp [Channel.load, Bus.emit, List.replicate_succ]

section
variable {e : Bool} {c : Nat}

theorem Channel.load_keeps : ∀ {vs : List Int} {k : Nat} {ch : Channel},
    (ch.load e k vs).rp = ch.rp ∧ (ch.load e k vs).out = ch.out ∧ (ch.load e k vs).tpDraws = ch.tpDraws := by
  intro vs
  induction vs with
  | nil => exact ⟨rfl, rfl, rfl⟩
  | cons v vs ih => exact ih

theorem Channel.load_en : ∀ {vs : List Int} {k : Nat} {ch : Channel},
    (ch.load e k vs).en = if vs = [] then ch.en else e := by
  intro vs
  induction vs with
  | nil => intros; rfl
  | cons v vs ih =>
    intro k ch
    rw [Channel.load, ih]
    simp

/-- A slot that no index of the batch reaches holds what it held. -/
theorem Channel.load_slot_other {a : SlotAddr} : ∀ {vs : List Int} {k : Nat} {ch : Channel},
    (∀ i < vs.length, (k + i) % 1024 ≠ a.toNat) → (ch.load e k vs).slot c a = ch.slot c a := by
  intro vs
  induction vs with
  | nil => intros; rfl
  | cons v vs ih =>
    intro k ch h
    rw [Channel.load, ih fun i hi => by
      have := h (i + 1) (by simpa using hi)
      rwa [← Nat.add_assoc, Nat.add_right_comm] at this]
    refine Channel.slot_store_other c ch _ e fun ha => h 0 (by simp) ?_
    rw [ha, trunc10_toNat, Nat.add_zero]

/-- A slot holds the last value of the batch whose index is its address. -/
theorem Channel.load_slot : ∀ {vs : List Int} {k i : Nat} {v : Int} {ch : Channel}, vs[i]? = some v →
    (∀ j, i < j → j < vs.length → (k + j) % 1024 ≠ (k + i) % 1024) →
    (ch.load e k vs).slot c (BitVec.ofNat 10 (k + i)) = BitVec.ofInt 14 v := by
  intro vs
  induction vs with
  | nil => intro k i v ch h; simp at h
  | cons x vs ih =>
    intro k i v ch h hl
    rw [Channel.load]
    cases i with
    | zero =>
      obtain rfl : x = v := by simpa using h
      rw [Channel.load_slot_other fun j hj => by
        have := hl (j + 1) (by omega) (by simpa using hj)
        rw [← Nat.add_assoc, Nat.add_right_comm] at this
        simpa using this]
      exact Channel.slot_store_same c ch _ _ e
    | succ i =>
      rw [← Nat.add_assoc, Nat.add_right_comm]
      refine ih (by simpa using h) fun j hij hj => ?_
      have := hl (j + 1) (by omega) (by simpa using hj)
      rwa [← Nat.add_assoc, ← Nat.add_assoc, Nat.add_right_comm, Nat.add_right_comm k i] at this

end

/-! ### A batch's turn -/

/-- A step makes the move the agenda's head asks for, unless that waits for the driver. -/
theorem step_stimulus {s : State} {q : Stimulus} {rest : List Stimulus} {m : Move} (h : s.agenda = q :: rest)
    (hm : readStimulus q = .ok m) :
    step s = if m.waits s then driverTurn s else m.make { s with agenda := rest } := by
  unfold step
  rw [h]
  simp only [hm]

theorem step_batch {s : State} {rest : List Stimulus} (h : s.agenda = .batch :: rest) :
    step s = batchTurn { s with agenda := rest } := step_stimulus h rfl

theorem batchTurn_of {s : State} {m : BatchStep} {ms : List BatchStep} (h : s.batch = m :: ms)
    (hw : m.waits s = false) : batchTurn s = m.perform { s with batch := ms } := by
  unfold batchTurn
  rw [h]
  simp [hw]

theorem batchTurn_waits {s : State} {m : BatchStep} {ms : List BatchStep} (h : s.batch = m :: ms)
    (hw : m.waits s = true) : batchTurn s = clockTurn s := by
  unfold batchTurn
  rw [h]
  simp [hw]

/-- A clock's turn is a tick of one channel that exists, and a free choice counted. -/
theorem clockTurn_of {s : State} (h : 0 < s.channels.length) : ∃ c ch, s.channels[c]? = some ch ∧
    clockTurn s = .next { s with channels := s.channels.set c (ch.tick c), unasked := s.unasked + 1 } := by
  have hc : Config.idleChannel s.unasked % s.channels.length < s.channels.length := Nat.mod_lt _ h
  exact ⟨_, _, List.getElem?_eq_getElem hc, exec_tick_of (List.getElem?_eq_getElem hc)⟩

end Sys2Proof.Machine

namespace Sys2Proof.Proofs

open Sys2Proof.Machine

/-- Settles O23: the batch is its stores in order (`runBatch_batchSteps`), of which the last to a slot remains
(`Channel.load_slot`). -/
theorem batchFillsSlotsInOrder : Obligations.BatchFillsSlotsInOrder := by
  intro s c vs ch h hb hp
  refine ⟨ch.load s.params.facadeLoadEnable 0 vs, ?_, fun k v hv hl => ?_, fun a ha => ?_, Channel.load_en,
    Channel.load_keeps⟩
  · rw [exec_writeSamples_of (.inr (List.getElem?_eq_some_iff.1 h).1), hb, List.nil_append]
    exact runBatch_batchSteps h hp
  · simpa using Channel.load_slot (c := c) (k := 0) hv (by simpa using hl)
  · exact Channel.load_slot_other (by simpa using ha)

/-- Settles O24: a word's turn is `WR` of the same word; a gap waits exactly while a read is open, and then the turn is
a clock's (`clockTurn_of`). -/
theorem batchTurnIsOneStep : Obligations.BatchTurnIsOneStep := by
  refine ⟨fun s m ms rest ha hb => ⟨fun c w hm => ?_, fun hm hp => ?_, fun hm hp hc => ?_⟩,
    fun s c v w vs hc hb hp => ?_⟩
  · rw [step_batch ha, batchTurn_of (by exact hb) (by rw [hm]; rfl), hm, exec, execWr, containers_toNat]
    rfl
  · rw [step_batch ha, batchTurn_of (by exact hb) (by simp [hm, BatchStep.waits, hp]), hm]
    rfl
  · obtain ⟨_, _, _, ht⟩ := clockTurn_of (s := { s with agenda := rest }) hc
    rw [step_batch ha, batchTurn_waits (by exact hb) (by simp [hm, BatchStep.waits, hp]), ht]
    exact ⟨_, rfl, rfl, rfl⟩
  · have h := List.getElem?_eq_getElem hc
    refine ⟨_, onChannel_of h _, ?_⟩
    rw [exec_writeSamples_of (.inr hc), hb, List.nil_append, batchSteps, runBatch_word (by exact h),
      runBatch_gap_waits (by exact hp)]

/-- Settles O25: the four slots by O23, each reached by one index. -/
theorem documentBatchTest : Obligations.DocumentBatchTest := by
  intro s c hc hb hp
  obtain ⟨ch, he, hs, _⟩ := batchFillsSlotsInOrder s c [100, -50, 0, 8191] _ (List.getElem?_eq_getElem hc) hb (.inl hp)
  have last : ∀ k < 4, ∀ j, k < j → j < 4 → j % 1024 ≠ k % 1024 := by omega
  have h0 : ch.slot c 0 = BitVec.ofInt 14 100 := hs 0 100 rfl (last 0 (by decide))
  have h1 : ch.slot c 1 = BitVec.ofInt 14 (-50) := hs 1 (-50) rfl (last 1 (by decide))
  have h2 : ch.slot c 2 = BitVec.ofInt 14 0 := hs 2 0 rfl (last 2 (by decide))
  have h3 : ch.slot c 3 = BitVec.ofInt 14 8191 := hs 3 8191 rfl (last 3 (by decide))
  refine ⟨_, ch, he, by simp [hc], ?_⟩
  rw [h0, h1, h2, h3]
  exact ⟨by decide, by decide, by decide, by decide, by decide, by decide, by decide, by decide, rfl⟩

end Sys2Proof.Proofs
end

section
/-! PROOF. Turns (00_scope.md R16): the bus driver's turn is one step of its operation, and an operation or a batch
taken turn by turn ends where the same run at once ends. -/

namespace Sys2Proof.Machine

/-! ### The driver's turn -/

theorem step_driver {s : State} {rest : List Stimulus} (h : s.agenda = .driver :: rest) :
    step s = driverTurn { s with agenda := rest } := step_stimulus h rfl

theorem driverTurn_of {s : State} {m : BusStep} {ms : List BusStep} (h : s.bus.todo = m :: ms)
    (hh : s.bus.halted = false) : driverTurn s = driverStep m ms s := by
  unfold driverTurn
  rw [h]
  simp [hh]

theorem driverStep_of {s : State} {m : BusStep} {ms : List BusStep} {o : Returned} {b : Bus}
    (h : m.perform s.returned { s.bus with todo := ms } = some (o, b)) :
    driverStep m ms s = .next { s with bus := b, returned := o } := by
  simp [driverStep, h]

/-- The driver's turn takes the head of the operation in progress. -/
theorem step_driver_of {s : State} {m : BusStep} {ms : List BusStep} {rest : List Stimulus} {o : Returned} {b : Bus}
    (ha : s.agenda = .driver :: rest) (ht : s.bus.todo = m :: ms) (hh : s.bus.halted = false)
    (h : m.perform s.returned { s.bus with todo := ms } = some (o, b)) :
    step s = .next { s with agenda := rest, bus := b, returned := o } := by
  rw [step_driver ha, driverTurn_of (by exact ht) (by exact hh), driverStep_of (by exact h)]

/-! ### Turn by turn -/

/-- The state with these steps of a bus-driver operation to take, and these stimuli to come. -/
def State.taking (s : State) (ms : List BusStep) (agenda : List Stimulus) : State :=
  { s with bus := { s.bus with todo := ms }, agenda := agenda }

theorem step_taking {s : State} {m : BusStep} {ms : List BusStep} {rest : List Stimulus} {o : Returned} {b : Bus}
    (hh : s.bus.halted = false) (h : m.perform s.returned { s.bus with todo := ms } = some (o, b)) :
    step (s.taking (m :: ms) (.driver :: rest)) = .next { s with agenda := rest, bus := b, returned := o } :=
  step_driver_of (s := s.taking (m :: ms) (.driver :: rest)) rfl rfl hh h

/-- The steps of an operation begun on a free driver, taken at the driver's turns, end where they end run at once. -/
theorem driver_turns {rest : List Stimulus} : ∀ {ms : List BusStep} {s : State} {o : Returned} {b : Bus},
    s.bus.todo = [] → s.bus.halted = false → Bus.run ms s.returned s.bus = some (o, b) →
    ∃ n, Host.Core.run core n (s.taking ms (List.replicate n .driver ++ rest)) =
      .next { s with bus := b, returned := o, agenda := rest } := by
  intro ms
  induction ms with
  | nil =>
    intro s o b ht _ hr
    cases hr
    refine ⟨0, ?_⟩
    rw [State.taking, ← ht]
    rfl
  | cons m ms ih =>
    intro s o b ht hh hr
    obtain ⟨o₁, b₁, hm, hr⟩ := Bus.run_cons_cases hr
    obtain ⟨ms', hm', hms⟩ := BusStep.perform_todo ms hm
    have h₁ : b₁.todo = [] := (BusStep.perform_keeps_todo hm).elim (·.trans ht) (·.2)
    rcases hr with ⟨hb, rfl, rfl⟩ | ⟨hb, hr⟩
    · refine ⟨1, (core_run_next 0 (step_taking (rest := rest) hh hm')).trans ?_⟩
      rw [show ms' = [] from BusStep.perform_halts hm' hh hb, ← h₁]
      rfl
    · obtain rfl := hms.resolve_right (by simp [hb])
      obtain ⟨n, hn⟩ := ih (s := { s with bus := b₁, returned := o₁ }) h₁ hb hr
      have hs := step_taking (rest := List.replicate n Stimulus.driver ++ rest) hh hm'
      exact ⟨n + 1, (core_run_next n hs).trans hn⟩

/-- One step of a batch reads neither the batch nor the agenda. -/
theorem BatchStep.perform_frame {m : BatchStep} {s t : State} (h : m.perform s = .next t) (ms : List BatchStep)
    (ag : List Stimulus) :
    m.perform { s with batch := ms, agenda := ag } = .next { t with batch := ms, agenda := ag } := by
  rcases BatchStep.perform_next h with ⟨c, w, ch, rfl, hc, rfl⟩ | ⟨rfl, rfl⟩
  · exact onChannel_of (s := { s with batch := ms, agenda := ag }) hc (Channel.applyWord w)
  · rfl

theorem BatchStep.waits_congr {m : BatchStep} {s s' : State} (h : s'.bus.phase = s.bus.phase) :
    m.waits s' = m.waits s := by
  cases m <;> simp [BatchStep.waits, h]

/-- The steps of a batch, taken at the batch's turns, end where they end run at once. -/
theorem batch_turns {rest : List Stimulus} : ∀ {ms : List BatchStep} {s t : State}, runBatch ms s = .next t →
    ∃ n, Host.Core.run core n { s with batch := ms, agenda := List.replicate n .batch ++ rest } =
      .next { t with agenda := rest } := by
  intro ms
  induction ms with
  | nil => intro s t h; cases h; exact ⟨0, rfl⟩
  | cons m ms ih =>
    intro s t h
    rw [runBatch] at h
    split at h
    · cases h; exact ⟨0, rfl⟩
    · rename_i hw
      split at h
      · rename_i s' hp
        obtain ⟨n, hn⟩ := ih h
        refine ⟨n + 1, ?_⟩
        have hs : step { s with batch := m :: ms, agenda := List.replicate (n + 1) .batch ++ rest } =
            .next { s' with batch := ms, agenda := List.replicate n .batch ++ rest } := by
          rw [step_batch (rest := List.replicate n .batch ++ rest) rfl, batchTurn_of rfl
            ((BatchStep.waits_congr (by rfl)).trans (Bool.eq_false_iff.2 hw))]
          exact BatchStep.perform_frame hp ms _
        exact (core_run_next n hs).trans hn
      · cases h
      · cases h

theorem readStimulus_start {i : Instr} (h : i.wellFormed = true) : readStimulus (.start i) = .ok (.invoke i) := by
  simp [readStimulus, checked, h, Except.map]

theorem readStimulus_call {i : Instr} (h : i.wellFormed = true) : readStimulus (.call i) = .ok (.run i) := by
  simp [readStimulus, checked, h, Except.map]

/-- An operation that need not wait is begun. -/
theorem step_start {i : Instr} {s : State} {rest : List Stimulus} (hw : i.wellFormed = true)
    (hb : onBusDriver i = true → s.bus.busy = false) (ha : s.agenda = .start i :: rest) :
    step s = keepMark { s with agenda := rest } (start i { s with agenda := rest }) := by
  rw [step_stimulus ha (readStimulus_start hw), if_neg]
  · rfl
  · simpa [Move.waits] using hb

theorem step_start_next {i : Instr} {s t : State} {rest : List Stimulus} (hw : i.wellFormed = true)
    (hb : onBusDriver i = true → s.bus.busy = false) (h : start i { s with agenda := rest } = .next t) :
    step { s with agenda := .start i :: rest } = .next t :=
  (step_start (s := { s with agenda := .start i :: rest }) hw hb rfl).trans (congrArg (keepMark _) h)

end Sys2Proof.Machine

namespace Sys2Proof.Proofs

open Sys2Proof.Machine

/-- Settles O26: the head of the steps is performed (`step_driver_of`), and each kind of step makes its one change; what
a step appends is `BusStep.perform_trace`. -/
theorem driverTurnIsOneStep : Obligations.DriverTurnIsOneStep := by
  intro s m ms rest ha ht hh
  have turn : ∀ {b : Bus}, m.perform s.returned { s.bus with todo := ms } = some (s.returned, b) →
      step s = .next { s with agenda := rest, bus := b } := fun h => step_driver_of ha ht hh h
  refine ⟨?_, ?_, ?_, ?_, ?_, ?_, fun f hm ho hf => ?_, fun t h => ?_⟩
  · rintro c rfl; exact turn rfl
  · rintro l rfl; exact turn rfl
  · rintro rfl; exact turn (by simp [BusStep.perform, Bus.assertLine_eq])
  · rintro rfl; exact turn (by simp [BusStep.perform, Bus.assertLine_eq])
  · rintro rfl; exact turn (by simp [BusStep.perform, Bus.assertLine_eq])
  · rintro k n rfl; exact turn rfl
  · refine turn ?_
    rw [hm, BusStep.perform, Bus.xfer_out (by exact hf) (by exact ho)]
    simp [AfterXfer.apply, Bus.finish, Bus.emit, ho]
  · rw [step_driver ha, driverTurn_of (by exact ht) (by exact hh)] at h
    obtain ⟨o, b, hp, rfl⟩ := driverStep_next h
    have ht := BusStep.perform_trace hp
    exact ⟨rfl, rfl, ht⟩

/-- Settles O27: the operation is begun with the steps that `exec` runs (`start_exec`, `start_congr`), and its agent's
turns take them one by one (`driver_turns`, `batch_turns`). -/
theorem startedOperationEndsAsExec : Obligations.StartedOperationEndsAsExec := by
  intro i s t rest turn hw hi h
  rcases hi with ⟨hi, rfl⟩ | ⟨⟨c, vs, rfl⟩, rfl⟩
  · rcases start_exec i s hi with ⟨hh, ht, ms, hs, he⟩ | ⟨o, ho, _, he⟩
    · obtain ⟨o, b, hr, rfl⟩ := runOperation_next (he.symm.trans h)
      obtain ⟨n, hn⟩ := driver_turns (rest := rest) ht hh hr
      have hb := step_start_next (rest := List.replicate n Stimulus.driver ++ rest) hw
        (fun _ => Bus.busy_eq_false_of_free ht) (start_congr hi (by rfl) (by rfl) (by rfl) (by rfl) hs).1
      exact ⟨n, (core_run_next n hb).trans hn⟩
    · exact absurd (he.symm.trans h) (ho t)
  · obtain ⟨hc, _, rfl, hr⟩ := execWriteSamples_next h
    obtain ⟨n, hn⟩ := batch_turns (rest := rest) hr
    have hb := step_start_next (s := s) (rest := List.replicate n Stimulus.batch ++ rest) hw nofun
      (beginBatch_of (by exact hc))
    exact ⟨n, (core_run_next n hb).trans hn⟩

end Sys2Proof.Proofs
end

section
/-! PROOF. The operations of the bus driver (42_dac_bus.md), each on a driver that may start it; and that they do not
depend on the configuration they find (R168). -/

namespace Sys2Proof.Machine

/-! ### Each operation on a driver that may start it -/

/-- `READ_REGISTER` with its operand masked (R106, R160). -/
theorem exec_readRegister_of {s : State} {k : DacIndex} (h : s.bus.Ready (csMask k)) (r : Nat) :
    exec (.readRegister k.val r) s = .next (s.didRead (csMask k) (readCommand (trunc5 r))) :=
  calc exec (.readRegister k.val r) s
    _ = runOperation s (readRegisterSteps k (trunc5 r) .closeRead) := whenBusIdle_withDac_of h.toMayStart k _
    _ = _ := runOperation_of (Bus.run_readRegister_didRead h.line h.running _ _)

/-- What `RD_P2` of the open read leaves (R162). -/
def State.closedRead (s : State) (k : DacIndex) (r : RegAddr) : State :=
  { s with
    returned := .data16 (s.bus.reads 0)
    bus := { s.bus.afterDraws 1 with
      cfg := ⟨csMask k, .b16, true, .hdIn⟩, csLine := .released, phase := .idle
      trace := s.bus.trace ++ [.cfg ⟨csMask k, .b16, true, .hdIn⟩,
        .xfer (csMask k) .hdIn .b16 (.rc (readCommand r)) (some (.c16 (s.bus.reads 0))) true] } }

/-- `RD_P2` of the open read (R162). -/
theorem exec_rdP2_of {s : State} {k : DacIndex} {r : Nat} (hh : s.bus.halted = false) (ht : s.bus.todo = [])
    (hp : s.bus.phase = .readOpen k (trunc5 r)) (hl : s.bus.csLine = .asserted (csMask k)) :
    exec (.rdP2 k.val r) s = .next (s.closedRead k (trunc5 r)) := by
  have hr : Bus.run (readPhase2Steps k (trunc5 r) .closeRead) s.returned s.bus =
      some (.data16 (s.bus.reads 0), (s.closedRead k (trunc5 r)).bus) := by
    rw [Bus.run_readPhase2 (.inr hl) hh, Bus.captured, Bus.draw_fst, Bus.draw_snd]
    rfl
  rw [exec, execRdP2, enterRdP2, whenDriverFree_of hh ht, hp]
  simp only [and_self, if_true]
  exact runOperation_of hr

/-- What `RD_P1` leaves (R161). -/
def State.openedRead (s : State) (k : DacIndex) (r : RegAddr) : State :=
  { s with bus := { s.bus with
      cfg := ⟨csMask k, .b8, false, .out⟩, csLine := .asserted (csMask k), phase := .readOpen k r
      trace := s.bus.trace ++ [.cfg ⟨csMask k, .b8, false, .out⟩,
        .xfer (csMask k) .out .b8 (.rc (readCommand r)) none false] } }

/-- Phase 2 after phase 1 leaves what the whole read leaves (R160). -/
theorem State.closedRead_openedRead (s : State) (k : DacIndex) (r : RegAddr) :
    (s.openedRead k r).closedRead k r = s.didRead (csMask k) (readCommand r) := by
  have ht : (s.bus.trace ++ [.cfg ⟨csMask k, .b8, false, .out⟩,
      .xfer (csMask k) .out .b8 (.rc (readCommand r)) none false]) ++ [.cfg ⟨csMask k, .b16, true, .hdIn⟩,
        .xfer (csMask k) .hdIn .b16 (.rc (readCommand r)) (some (.c16 (s.bus.reads 0))) true] =
      s.bus.trace ++ readEvents (csMask k) (readCommand r) (s.bus.reads 0) := by
    rw [List.append_assoc]
    rfl
  rw [State.didRead, Bus.didRead, ← ht]
  rfl

/-- The calibration writes are register writes of their frames (R107, R181). -/
theorem exec_initCalWrite_of {s : State} {k : DacIndex} (h : s.bus.Ready (csMask k)) :
    exec (.initCalWriteA k.val) s = .next (s.wrote (csMask k) 0x050080) ∧
    exec (.initCalWriteB k.val) s = .next (s.wrote (csMask k) 0x080080) :=
  ⟨(whenBusIdle_withDac_of h.toMayStart k _).trans (runOperation_of (Bus.run_writeRegister h.line h.running _ _ _)),
    (whenBusIdle_withDac_of h.toMayStart k _).trans (runOperation_of (Bus.run_writeRegister h.line h.running _ _ _))⟩

theorem readCommand_statusReg : readCommand (trunc5 0x14) = 0x94 := by decide

/-- The raw transfer, where the driver may start it and chip-select is free for its mask (R153). -/
theorem exec_busXfer_of {s : State} {f : Frame} {x : Option Captured} {b : Bus} (h : s.bus.MayStart)
    (hx : s.bus.xfer f = some (x, b)) : exec (.busXfer f) s = .next { s with bus := b, returned := .inBits x } := by
  rw [exec, execBusXfer, enterBusXfer, whenBusIdle_of h.running h.free h.idle]
  refine runOperation_of ?_
  simp [Bus.run, BusStep.perform, hx, AfterXfer.apply]

/-! ### Operations and the configuration they find -/

/-- Where the steps of an operation do not depend on the configuration, neither does its outcome. -/
theorem runOperation_of_cfg {s : State} {ms : List BusStep} {c : BusCfg}
    (h : Bus.run ms s.returned { s.bus with cfg := c } = Bus.run ms s.returned s.bus) :
    runOperation { s with bus := { s.bus with cfg := c } } ms = runOperation s ms := by
  unfold runOperation
  rw [h]

/-- Bring-up configures the bus after the reset and before its first transfer. -/
theorem Bus.run_bringUp_of_cfg {b : Bus} (hh : b.halted = false) (t : Nat) (o : Returned) (c : BusCfg) :
    Bus.run (bringUpSteps t) o { b with cfg := c } = Bus.run (bringUpSteps t) o b := by
  rw [bringUpSteps, List.append_assoc, Bus.run_append _ (Bus.run_reset (by exact hh) o) (by exact hh),
    Bus.run_append _ (Bus.run_reset hh o) hh]
  rfl

/-- The operations that take a DAC index, but for `RD_P2`: the shared checks, and then steps that begin with a
configuration of the chip's mask and a transfer. -/
theorem exec_dac {i : Instr} {n : Nat} (h : dacOperand i = some n) : (∃ r, i = .rdP2 n r) ∨
    ∃ (c : DacIndex → BusCfg) (f : Frame) (a : DacIndex → AfterXfer) (ms : DacIndex → List BusStep),
      (∀ j, (c j).cs = csMask j) ∧
      ∀ s, exec i s = whenBusIdle s (withDac n fun j => runOperation s (.config (c j) :: .xfer f (a j) :: ms j)) := by
  cases i with
  | rdP2 j r => cases h; exact .inl ⟨r, rfl⟩
  | writeRegister j r d => cases h; exact .inr ⟨_, _, _, fun _ => [], fun _ => rfl, fun _ => rfl⟩
  | initCalWriteA j => cases h; exact .inr ⟨_, _, _, fun _ => [], fun _ => rfl, fun _ => rfl⟩
  | initCalWriteB j => cases h; exact .inr ⟨_, _, _, fun _ => [], fun _ => rfl, fun _ => rfl⟩
  | rdP1 j r => cases h; exact .inr ⟨_, _, _, fun _ => [], fun _ => rfl, fun _ => rfl⟩
  | readRegister j r =>
    cases h; exact .inr ⟨_, _, _, fun j => readPhase2Steps j _ _, fun _ => rfl, fun _ => rfl⟩
  | timingStatus j => cases h; exact .inr ⟨_, _, _, fun j => readPhase2Steps j _ _, fun _ => rfl, fun _ => rfl⟩
  | getDacTimingStatus j =>
    cases h; exact .inr ⟨_, _, _, fun j => readPhase2Steps j _ _, fun _ => rfl, fun _ => rfl⟩
  | initIdRead j => cases h; exact .inr ⟨_, _, _, fun j => readPhase2Steps j _ _, fun _ => rfl, fun _ => rfl⟩
  | bringUp | dacReset | busConfig _ _ _ _ | busXfer _ | initDacBank | wr _ _ _ | encode _ _ _ | decode _ _ | tick _
  | writeSample _ _ _ | writeSamples _ _ | setEnable _ _ => cases h

/-- The operations of the bus driver that take no DAC index. -/
theorem busDriver_cases {i : Instr} (h : onBusDriver i = true) (hd : dacOperand i = none) :
    i = .bringUp ∨ i = .initDacBank ∨ i = .dacReset ∨ (∃ cs len ends mode, i = .busConfig cs len ends mode) ∨
      ∃ f, i = .busXfer f := by
  cases i <;> simp_all [onBusDriver, dacOperand]

end Sys2Proof.Machine

namespace Sys2Proof.Proofs

open Sys2Proof.Machine

/-- Settles O29: `exec_initCalWrite_of`. -/
theorem calibrationWritesSendFixedFrames : Obligations.CalibrationWritesSendFixedFrames :=
  fun _ _ h => exec_initCalWrite_of h

/-- Settles O30: `exec_readRegister_of`, with the command byte as a number. -/
theorem readRegisterRunsTwoPhases : Obligations.ReadRegisterRunsTwoPhases := by
  refine fun s k r h => ⟨readCommand (trunc5 r), ?_, exec_readRegister_of h r⟩
  rw [readCommand_toNat, trunc5_toNat]

/-- Settles O31: the three operations have one entry, and the command byte of the status register is `0x94`. -/
theorem timingStatusReadsStatusRegister : Obligations.TimingStatusReadsStatusRegister := by
  refine fun s k => ⟨fun i => ⟨rfl, rfl⟩, fun h => ?_⟩
  have hr : exec (.timingStatus k.val) s = .next (s.didRead (csMask k) 0x94) := by
    rw [← readCommand_statusReg]
    exact exec_readRegister_of h 0x14
  exact ⟨hr, hr⟩

/-- Settles O33: `exec_rdP2_of`, with the command byte as a number. -/
theorem readPhase2CapturesAndReleases : Obligations.ReadPhase2CapturesAndReleases := by
  refine fun s k r hh ht hp hl => ⟨readCommand (trunc5 r), ?_, exec_rdP2_of hh ht hp hl⟩
  rw [readCommand_toNat, trunc5_toNat]

/-- Settles O34: both ways end in the state of `exec_readRegister_of`; a step of the sample path between the phases
changes a channel, which neither reads. -/
theorem phasesComposeToARead : Obligations.PhasesComposeToARead := by
  intro s k r h
  have second : ∀ {u : State}, u.bus = (s.openedRead k (trunc5 r)).bus →
      exec (.rdP2 k.val r) u = .next (u.closedRead k (trunc5 r)) := fun hu =>
    exec_rdP2_of (by rw [hu]; exact h.running) (by rw [hu]; exact h.free) (by rw [hu]; rfl) (by rw [hu]; rfl)
  refine ⟨s.openedRead k (trunc5 r), exec_rdP1_of h r, ?_, fun c la p i u hi hu => ?_⟩
  · rw [exec_readRegister_of h, second rfl, State.closedRead_openedRead]
  · obtain ⟨f, hf⟩ := exec_word_or_tick hi
    rw [hf] at hu
    obtain ⟨ch, hc, rfl⟩ := onChannel_next hu
    refine ⟨_, _, second rfl, exec_readRegister_of h r, ?_⟩
    rw [← State.closedRead_openedRead, hf, onChannel_of (by exact hc)]
    rfl

/-- Settles O35: `Bus.run_reset`. -/
theorem dacResetPulsesTheLine : Obligations.DacResetPulsesTheLine := fun _ h =>
  (whenBusIdle_of h.running h.free h.idle _).trans (runOperation_of (Bus.run_reset h.running _))

/-- Settles O36: the operation is one reconfiguration. -/
theorem busConfigSetsTheConfiguration : Obligations.BusConfigSetsTheConfiguration := by
  intro s cs len ends mode h
  rw [exec, execBusConfig, enterBusConfig, whenBusIdle_of h.running h.free h.idle]
  exact runOperation_of (Bus.run_cons [] rfl h.running)

/-- Settles O37: the operation is one transfer (`Bus.xfer_out`, `Bus.xfer_hdIn`), whose bits are the next answer's. -/
theorem busXferMovesOneFrame : Obligations.BusXferMovesOneFrame := by
  refine fun s f h => ⟨fun hm => exec_busXfer_of h.toMayStart (Bus.xfer_out h.line hm f), fun hm => ?_⟩
  refine ⟨capture s.bus.cfg.len (s.bus.answer 0), ?_, ?_⟩
  · cases s.bus.cfg.len <;> simp [capture]
  · rw [exec_busXfer_of h.toMayStart (Bus.xfer_hdIn h.line hm f), Bus.draw_fst, Bus.draw_snd]
    rfl

/-- Settles O38: every other operation configures the bus before its first transfer. -/
theorem transactionsAreIndependent : Obligations.TransactionsAreIndependent := by
  intro i s t c hi hr hx h
  have bring : exec .bringUp s = .next t → exec .bringUp { s with bus := { s.bus with cfg := c } } = .next t := by
    intro h
    obtain ⟨hh, ht, hp, h⟩ := whenBusIdle_next h
    refine (whenBusIdle_of (by exact hh) (by exact ht) (by exact hp) _).trans ?_
    exact (runOperation_of_cfg (Bus.run_bringUp_of_cfg hh _ _ c)).trans h
  cases hd : dacOperand i with
  | some n =>
    rcases exec_dac hd with ⟨r, rfl⟩ | ⟨_, _, _, _, _, he⟩
    · obtain ⟨hh, ht, h⟩ := whenDriverFree_next h
      rw [exec, execRdP2, enterRdP2, whenDriverFree_of (by exact hh) (by exact ht)]
      exact h
    · rw [he] at h ⊢
      obtain ⟨hh, ht, hp, h⟩ := whenBusIdle_next h
      obtain ⟨d, hd, h⟩ := withDac_next h
      rw [whenBusIdle_of (by exact hh) (by exact ht) (by exact hp), withDac_of hd]
      exact h
  | none =>
    rcases busDriver_cases hi hd with rfl | rfl | rfl | ⟨cs, len, ends, mode, rfl⟩ | ⟨f, rfl⟩
    · exact bring h
    · exact bring h
    · exact absurd rfl hr
    · obtain ⟨hh, ht, hp, h⟩ := whenBusIdle_next h
      exact (whenBusIdle_of (by exact hh) (by exact ht) (by exact hp) _).trans h
    · exact absurd rfl (hx f)

end Sys2Proof.Proofs
end

section
/-! PROOF. Bring-up (43_dac_bringup.md) on chips of which some may be bad: the chips that pass, one after another; the
chip that does not; and what the reference simulated chips (20_memory.md R71) make of the events. -/

namespace Sys2Proof.Machine

/-! ### The chips that pass -/

/-- The driver after bring-up's steps for the chips `is`, all passing. -/
def Bus.afterChips (tSettle : Nat) (is : List DacIndex) (b : Bus) : Bus :=
  { b.afterDraws is.length with
    cfg := ((is.getLast?).map fun i => ⟨csMask i, .b24, true, .out⟩).getD b.cfg
    csLine := if is = [] then b.csLine else .released
    phase := .idle
    trace := b.trace ++ is.flatMap fun i => passEvents tSettle (csMask i) }

theorem Bus.afterChips_cons (t : Nat) (i : DacIndex) (is : List DacIndex) (b : Bus) :
    (b.afterChips t [i]).afterChips t is = b.afterChips t (i :: is) := by
  have hd := Bus.afterDraws_afterDraws b 1 is.length
  rw [Nat.add_comm] at hd
  simp only [Bus.afterChips, List.length_cons, ← hd]
  cases is with
  | nil => simp [Bus.afterDraws]
  | cons j js => simp [Bus.afterDraws, List.getLast?_cons]

/-- Bring-up's steps for a chip that passes. -/
theorem Bus.run_chip {b : Bus} {i : DacIndex} (h : b.Free (csMask i)) (hh : b.halted = false)
    (hr : b.reads 0 = 0x000A) (t : Nat) (o : Returned) :
    Bus.run (chipSteps t i) o b = some (o, b.afterChips t [i]) := by
  have hi := Bus.run_identity h hh o
  rw [if_pos hr] at hi
  rw [chipSteps, List.append_assoc, List.append_assoc, Bus.run_append _ hi hh]
  refine (Bus.run_calibrate (b := b.didRead (csMask i) 0x9F) (.inl rfl) hh t o).trans ?_
  simp [Bus.afterChips, Bus.didRead, passEvents, hr]

/-- Bring-up's steps for chips that all pass. -/
theorem Bus.run_chips {t : Nat} {o : Returned} : ∀ {is : List DacIndex} {b : Bus}, (∀ i ∈ is.head?, b.Free (csMask i)) →
    b.halted = false → b.phase = .idle → (∀ n < is.length, b.reads n = 0x000A) →
    Bus.run (is.flatMap (chipSteps t)) o b = some (o, b.afterChips t is) := by
  intro is
  induction is with
  | nil =>
    intro b _ _ hp _
    simp [Bus.afterChips, Bus.afterDraws, ← hp]
  | cons i is ih =>
    intro b hf hh hp hr
    rw [List.flatMap_cons, Bus.run_append _ (Bus.run_chip (hf i rfl) hh (hr 0 (by simp)) t o) hh,
      ih (b := b.afterChips t [i]) (fun _ _ => .inl rfl) hh rfl fun n hn => ?_, Bus.afterChips_cons]
    have := hr (1 + n) (by simp; omega)
    rwa [Bus.reads, ← Bus.answer_afterDraws] at this

theorem chipOrder_split : ∀ k : DacIndex, chipOrder = chipOrder.take k.val ++ k :: chipOrder.drop (k.val + 1) := by
  decide

theorem chipOrder_masks (k : Nat) : (chipOrder.take k).map csMask = maskList.take k := by
  rw [List.map_take]
  rfl

theorem chipGroups_eq (t k : Nat) : chipGroups t k = (chipOrder.take k).flatMap fun i => passEvents t (csMask i) := by
  rw [chipGroups, ← chipOrder_masks, List.flatMap_map]

/-- In bring-up each chip that passes is written to twice and read once (R167, R184). -/
theorem chipGroups_count (t : Nat) {k : Nat} (hk : k ≤ 8) :
    (chipGroups t k).countP Event.isWrite = 2 * k ∧ (chipGroups t k).countP Event.isReadPhase2 = k := by
  have hl : min k maskList.length = k := Nat.min_eq_left hk
  have hw : ∀ m, (passEvents t m).countP Event.isWrite = 2 := fun _ => rfl
  have hr : ∀ m, (passEvents t m).countP Event.isReadPhase2 = 1 := fun _ => rfl
  rw [chipGroups, List.countP_flatMap, List.countP_flatMap]
  simp [Function.comp_def, hw, hr, hl, Nat.mul_comm]

/-! ### Bring-up on a ready driver -/

/-- The driver after the reset at the start of bring-up (R156). -/
def Bus.afterReset (b : Bus) : Bus := { b with dacReset := false, trace := b.trace ++ resetEvents }

/-- Bring-up is the reset and then the chips. -/
theorem exec_bringUp_of {s : State} (h : s.bus.MayStart) :
    exec .bringUp s = runOperation s (bringUpSteps s.params.tSettle) ∧
    Bus.run (bringUpSteps s.params.tSettle) s.returned s.bus =
      Bus.run (chipOrder.flatMap (chipSteps s.params.tSettle) ++ lineSteps) s.returned s.bus.afterReset := by
  refine ⟨whenBusIdle_of h.running h.free h.idle _, ?_⟩
  rw [bringUpSteps, List.append_assoc, Bus.run_append _ (Bus.run_reset h.running _) h.running]
  rfl

/-- The driver in bring-up after the first `k` chips, all passing. -/
def Bus.afterPassed (tSettle k : Nat) (b : Bus) : Bus := b.afterReset.afterChips tSettle (chipOrder.take k)

theorem chipOrder_take_length {k : Nat} (hk : k ≤ 8) : (chipOrder.take k).length = k := by simp [chipOrder, hk]

/-- On a driver that is ready for chip 0, the chips before `k` pass where they answer `0x000A`. -/
theorem Bus.run_chips_before {b : Bus} (h : b.Ready 0b1111) {k : Nat} (hk : k ≤ 8)
    (hr : ∀ n < k, b.reads n = 0x000A) (t : Nat) (o : Returned) :
    Bus.run ((chipOrder.take k).flatMap (chipSteps t)) o b.afterReset = some (o, b.afterPassed t k) := by
  refine Bus.run_chips (fun i hi => ?_) h.running h.idle (by rw [chipOrder_take_length hk]; exact hr)
  cases k with
  | zero => cases hi
  | succ k => cases hi; exact h.line

theorem Bus.reads_afterPassed (b : Bus) (t : Nat) {k : Nat} (hk : k ≤ 8) :
    (b.afterPassed t k).reads 0 = b.reads k := by
  have h := Bus.answer_afterDraws b k 0
  rw [← chipOrder_take_length hk] at h
  exact congrArg (BitVec.setWidth 16) (h.trans (by rw [chipOrder_take_length hk]; rfl))

/-- Each chip that passes leaves chip-select released for the next (R158). -/
theorem Bus.free_afterPassed {b : Bus} (h : b.Ready 0b1111) (t : Nat) (k : DacIndex) :
    (b.afterPassed t k.val).Free (csMask k) := by
  obtain ⟨k, hk⟩ := k
  cases k with
  | zero => exact h.line
  | succ k => exact .inl rfl

/-- Bring-up where all eight chips pass (R184). -/
theorem exec_bringUp_good {s : State} (h : s.bus.Ready 0b1111) (hr : ∀ n < 8, s.bus.reads n = 0x000A) :
    exec .bringUp s = .next { s with bus := { s.bus.afterDraws 8 with
      cfg := ⟨0b1000, .b24, true, .out⟩, csLine := .released, dacReset := false
      oscEn := true, mmcxSel := true, refclkSel := true, initStatus := .initialized
      trace := s.bus.trace ++ (resetEvents ++ chipGroups s.params.tSettle 8 ++ lineEvents) } } := by
  have hc : Bus.run (chipOrder.flatMap _) _ _ = _ :=
    Bus.run_chips_before h (Nat.le_refl 8) hr s.params.tSettle s.returned
  obtain ⟨he, hs⟩ := exec_bringUp_of h.toMayStart
  rw [Bus.run_append _ hc h.running, Bus.run_lines (by exact h.running)] at hs
  rw [he, runOperation_of hs, chipGroups_eq]
  simp [Bus.afterPassed, Bus.afterChips, Bus.afterReset, Bus.afterDraws, h.idle, chipOrder, csMask, literals]

/-- Bring-up where chip `k` is the first that does not pass (R185). -/
theorem exec_bringUp_bad {s : State} {k : DacIndex} (h : s.bus.Ready 0b1111)
    (hr : ∀ n < k.val, s.bus.reads n = 0x000A) (hk : s.bus.reads k.val ≠ 0x000A) :
    exec .bringUp s = .next { s with bus := { s.bus.afterDraws (k.val + 1) with
      cfg := ⟨csMask k, .b16, true, .hdIn⟩, csLine := .released, dacReset := false
      initStatus := .failed k (s.bus.reads k.val)
      trace := s.bus.trace ++ (resetEvents ++ chipGroups s.params.tSettle k.val ++
        readEvents (csMask k) 0x9F (s.bus.reads k.val) ++
        [.fault (.bringUpIdentityMismatch k (s.bus.reads k.val))]) } } := by
  have hk8 : k.val ≤ 8 := Nat.le_of_lt k.isLt
  have hb := Bus.run_chips_before h hk8 hr s.params.tSettle s.returned
  have hl : (s.bus.afterPassed s.params.tSettle k.val).halted = false := h.running
  have hi := Bus.run_identity (Bus.free_afterPassed h s.params.tSettle k) hl s.returned
  rw [Bus.reads_afterPassed _ _ hk8, if_neg hk] at hi
  obtain ⟨he, hs⟩ := exec_bringUp_of h.toMayStart
  rw [chipOrder_split k, List.flatMap_append, List.flatMap_cons, chipSteps] at hs
  simp only [List.append_assoc] at hs
  rw [Bus.run_append _ hb hl, Bus.run_append_halted _ hl hi rfl] at hs
  rw [he, runOperation_of hs, chipGroups_eq, Bus.didRead, Bus.reads_afterPassed _ _ hk8,
    ← Bus.afterDraws_afterDraws]
  simp only [Bus.raiseIdentityMismatch_eq, Bus.afterPassed, Bus.afterChips, Bus.afterReset, chipOrder_take_length hk8]
  simp [Bus.afterDraws, h.free, h.idle]

/-! ### The reference simulated chips -/

theorem SimChip.read_write (c : SimChip) (r r' : RegAddr) (d : RegData) :
    (c.write r d).read r' = if r' = r ∧ r' ≠ 0x1F then d else c.read r' := by
  unfold SimChip.read
  by_cases h : r' = literals.idReg
  · rw [if_pos h, if_pos h, if_neg fun hr => hr.2 h]
    rfl
  · rw [if_neg h, if_neg h]
    by_cases hr : r' = r
    · rw [if_pos ⟨hr, h⟩, hr]
      simp [SimChip.write]
    · have hf : r.toFin ≠ r'.toFin := fun e => hr (BitVec.eq_of_toFin_eq e.symm)
      rw [if_neg fun h => hr h.1]
      exact Vector.getElem_set_ne r.toFin.isLt r'.toFin.isLt (by simpa [Fin.ext_iff] using hf)

theorem csMask_inj {i k : DacIndex} : csMask i = csMask k ↔ i = k := by revert i k; decide

theorem writeFrame_fields (r : RegAddr) (d : RegData) :
    (writeFrame r d).extractLsb' 16 5 = r ∧ (writeFrame r d).extractLsb' 0 16 = d := by
  have hd := d.isLt
  have hr := r.isLt
  constructor <;> apply BitVec.eq_of_toNat_eq <;>
    simp only [BitVec.extractLsb'_toNat, writeFrame_toNat, Nat.shiftRight_eq_div_pow] <;> omega

theorem SimBank.after_append (b : SimBank) (es es' : List Event) :
    b.after (es ++ es') = (b.after es).after es' := List.foldl_append

theorem SimBank.after_resetEvents (b : SimBank) : b.after resetEvents = b := rfl
theorem SimBank.after_readEvents (b : SimBank) (m : CsMask) (c : BitVec 8) (v : RegData) :
    b.after (readEvents m c v) = b := rfl
theorem SimBank.after_lineEvents (b : SimBank) : b.after lineEvents = b := rfl
theorem SimBank.after_fault (b : SimBank) (x : FatalCondition) : b.after [.fault x] = b := rfl

/-- Of the events of a register write the chip of the mask takes the register, and no other chip anything (R71). -/
theorem SimBank.read_after_writeEvents (b : SimBank) (i k : DacIndex) (r r' : RegAddr) (d : RegData) :
    ((b.after (writeEvents (csMask k) (writeFrame r d)))[i]).read r' =
      if i = k ∧ r' = r ∧ r' ≠ 0x1F then d else (b[i]).read r' := by
  have hh : (b.after (writeEvents (csMask k) (writeFrame r d)))[i] =
      if csMask i = csMask k then (b[i]).write ((writeFrame r d).extractLsb' 16 5) ((writeFrame r d).extractLsb' 0 16)
      else b[i] := Vector.getElem_ofFn _
  obtain ⟨hr, hd⟩ := writeFrame_fields r d
  rw [hh, hr, hd]
  by_cases hi : i = k
  · rw [if_pos (csMask_inj.2 hi), SimChip.read_write]
    simp [hi]
  · rw [if_neg (mt csMask_inj.1 hi)]
    simp [hi]

/-- Of the events of a chip that passes, the chip takes the two calibration writes. -/
theorem SimBank.read_after_passEvents (b : SimBank) (t : Nat) (i k : DacIndex) (r : RegAddr) :
    ((b.after (passEvents t (csMask k)))[i]).read r =
      if i = k ∧ (r = 0x05 ∨ r = 0x08) then 0x0080 else (b[i]).read r := by
  have hp : b.after (passEvents t (csMask k)) = (b.after (writeEvents (csMask k) (writeFrame 0x05 0x0080))).after
      (writeEvents (csMask k) (writeFrame 0x08 0x0080)) := rfl
  rw [hp, SimBank.read_after_writeEvents, SimBank.read_after_writeEvents]
  have h5 : r = 0x05 → r ≠ 0x1F := by rintro rfl; decide
  have h8 : r = 0x08 → r ≠ 0x1F := by rintro rfl; decide
  grind

theorem chipGroups_succ (t : Nat) (k : DacIndex) :
    chipGroups t (k.val + 1) = chipGroups t k.val ++ passEvents t (csMask k) := by
  have hk : chipOrder.take (k.val + 1) = chipOrder.take k.val ++ [k] := by revert k; decide
  rw [chipGroups_eq, chipGroups_eq, hk]
  simp

/-- Of the groups of the first `k` chips each of them takes its two calibration writes. -/
theorem SimBank.read_after_chipGroups (b : SimBank) (t : Nat) (i : DacIndex) (r : RegAddr) : ∀ {k : Nat}, k ≤ 8 →
    ((b.after (chipGroups t k))[i]).read r =
      if i.val < k ∧ (r = 0x05 ∨ r = 0x08) then 0x0080 else (b[i]).read r := by
  intro k
  induction k with
  | zero => intro _; simp [chipGroups, SimBank.after]
  | succ k ih =>
    intro hk
    rw [chipGroups_succ t ⟨k, hk⟩, SimBank.after_append, SimBank.read_after_passEvents, ih (by omega)]
    have hi : i = ⟨k, hk⟩ ∨ i.val < k ↔ i.val < k + 1 := by
      rw [Fin.ext_iff, Nat.lt_succ_iff_lt_or_eq, Or.comm]
    grind

end Sys2Proof.Machine

namespace Sys2Proof.Proofs

open Sys2Proof.Machine

/-- Settles O39: `Bus.run_identity`; on a mismatch the exception drops no step, as none is to be taken. -/
theorem identityReadChecksTheChip : Obligations.IdentityReadChecksTheChip := by
  intro s k h
  have hr := Bus.run_identity h.line h.running s.returned
  have ht : (s.bus.didRead (csMask k) 0x9F).todo = [] := h.free
  refine (whenBusIdle_withDac_of h.toMayStart k _).trans ((runOperation_of hr).trans ?_)
  rw [Bus.raiseIdentityMismatch_eq, ← ht]

/-- Settles O40: `exec_bringUp_good`, and the transactions of eight chips (`chipGroups_count`). -/
theorem bringUpSucceedsOnGoodChips : Obligations.BringUpSucceedsOnGoodChips := by
  intro s h hr
  obtain ⟨hw, hp⟩ := chipGroups_count s.params.tSettle (Nat.le_refl 8)
  refine ⟨exec_bringUp_good h hr, rfl, ?_, ?_⟩
  · rw [List.countP_append, List.countP_append, hw]; rfl
  · rw [List.countP_append, List.countP_append, hp]; rfl

/-- Settles O41: `exec_bringUp_bad`, and the transactions of the chips before it (`chipGroups_count`) and its
own read. -/
theorem bringUpStopsAtFirstBadChip : Obligations.BringUpStopsAtFirstBadChip := by
  intro s k h hr hk
  obtain ⟨hw, hp⟩ := chipGroups_count s.params.tSettle (Nat.le_of_lt k.isLt)
  refine ⟨exec_bringUp_bad h hr hk, rfl, ?_, ?_⟩
  · rw [List.countP_append, List.countP_append, List.countP_append, hw]
    simp [resetEvents, readEvents, Event.isWrite]
  · rw [List.countP_append, List.countP_append, List.countP_append, hp]
    simp [resetEvents, readEvents, Event.isReadPhase2]

/-- Settles O42: the events of the write (`exec_writeRegister_of`) and what the chips make of them
(`SimBank.read_after_writeEvents`). -/
theorem simulatedChipTakesTheWrite : Obligations.SimulatedChipTakesTheWrite := fun _ bank k r d h =>
  ⟨_, _, exec_writeRegister_of h r d, rfl, fun i r' => bank.read_after_writeEvents i k (trunc5 r) r' (trunc16 d)⟩

/-- Settles O43: the answers are the chips' identities, so bring-up passes the first `k` chips and fails on the next, if
there is one; of its events only the calibration writes are writes (`SimBank.read_after_chipGroups`). -/
theorem bringUpProgramsSimulatedChips : Obligations.BringUpProgramsSimulatedChips := by
  intro s bank k h hk8 hr hgood hbad
  have good : ∀ n < k, s.bus.reads n = 0x000A := fun n hn => by
    have := hr ⟨n, by omega⟩
    rw [this]
    exact hgood ⟨n, by omega⟩ hn
  have groups := fun i r => SimBank.read_after_chipGroups bank s.params.tSettle i r hk8
  rcases Nat.lt_or_eq_of_le hk8 with hlt | rfl
  · have bad : s.bus.reads k ≠ 0x000A := by
      have := hr ⟨k, hlt⟩
      rw [this]
      exact hbad ⟨k, hlt⟩ rfl
    refine ⟨_, _, exec_bringUp_bad (k := ⟨k, hlt⟩) h good bad, rfl, ?_, fun i r => ?_⟩
    · simp; omega
    · rw [SimBank.after_append, SimBank.after_append, SimBank.after_append, SimBank.after_resetEvents,
        SimBank.after_readEvents, SimBank.after_fault]
      exact groups i r
  · refine ⟨_, _, exec_bringUp_good h good, rfl, by simp, fun i r => ?_⟩
    rw [SimBank.after_append, SimBank.after_append, SimBank.after_resetEvents, SimBank.after_lineEvents]
    exact groups i r

end Sys2Proof.Proofs
end

section
/-! PROOF. Stops (60_exceptions.md): the checks of R208 in their order, each for every operation that makes it. -/

namespace Sys2Proof.Machine

/-- Every bus-driver operation but `RD_P2` begins with the common checks. -/
theorem exec_checks {i : Instr} (hi : onBusDriver i = true) (h2 : ∀ n r, i ≠ .rdP2 n r) :
    ∃ k : State → Host.Outcome State Fault Refusal, ∀ s, exec i s = whenBusIdle s (k s) := by
  cases hd : dacOperand i with
  | some n =>
    rcases exec_dac hd with ⟨r, rfl⟩ | ⟨_, _, _, _, _, he⟩
    · exact absurd rfl (h2 n r)
    · exact ⟨_, he⟩
  | none =>
    rcases busDriver_cases hi hd with rfl | rfl | rfl | ⟨_, _, _, _, rfl⟩ | ⟨_, rfl⟩ <;> exact ⟨_, fun _ => rfl⟩

/-- `RD_P2` with no read open: the index is checked, and then there is nothing to complete (log 13). -/
theorem exec_rdP2_idle {s : State} (h : s.bus.MayStart) (n r : Nat) :
    exec (.rdP2 n r) s = withDac n fun _ => .fault .busProtocolViolation := by
  rw [exec, execRdP2, enterRdP2, whenDriverFree_of h.running h.free, h.idle]

theorem onChannel_none {s : State} {c : Nat} (h : s.channels.length ≤ c) (f : Channel → Channel) :
    onChannel c f s = .refused .noSuchChannel := by
  simp [onChannel, h]

/-- A batch of words for channels that exist completes, or stays at a gap that must wait. -/
theorem runBatch_completes : ∀ {ms : List BatchStep} {s : State},
    (∀ d w, BatchStep.word d w ∈ ms → d < s.channels.length) → ∃ t, runBatch ms s = .next t := by
  intro ms
  induction ms with
  | nil => intro s _; exact ⟨_, rfl⟩
  | cons m ms ih =>
    intro s h
    have rest : ∀ d w, BatchStep.word d w ∈ ms → d < s.channels.length :=
      fun d w hm => h d w (List.mem_cons_of_mem _ hm)
    cases m with
    | word c w =>
      rw [runBatch_word (List.getElem?_eq_getElem (h c w List.mem_cons_self))]
      exact ih (by simpa using rest)
    | gap =>
      by_cases hp : s.bus.phase = .idle
      · rw [runBatch_gap hp]
        exact ih rest
      · exact ⟨_, runBatch_gap_waits hp ms⟩

end Sys2Proof.Machine

namespace Sys2Proof.Proofs

open Sys2Proof.Machine

/-- Settles O45: the halt is the first check of every operation of the driver. -/
theorem haltedDriverRefusesEverything : Obligations.HaltedDriverRefusesEverything := by
  intro i s hi hh
  by_cases h2 : ∃ n r, i = .rdP2 n r
  · obtain ⟨n, r, rfl⟩ := h2
    exact unlessHalted_halted hh _
  · obtain ⟨k, hk⟩ := exec_checks hi fun n r e => h2 ⟨n, r, e⟩
    rw [hk, whenBusIdle_halted hh]

/-- Settles O46: the phase is checked next; `RD_P2` compares the open read with its own operands. -/
theorem openReadExcludesOtherOperations : Obligations.OpenReadExcludesOtherOperations := by
  refine ⟨fun i s k r hi hh ht hp hn => ?_, fun k r s h => ?_⟩
  · by_cases h2 : ∃ n q, i = .rdP2 n q
    · obtain ⟨n, q, rfl⟩ := h2
      have hc : ¬(n = k.val ∧ trunc5 q = r) := by
        rintro ⟨rfl, hq⟩
        exact hn q hq rfl
      rw [exec, execRdP2, enterRdP2, whenDriverFree_of hh ht, hp]
      exact if_neg hc
    · obtain ⟨e, he⟩ := exec_checks hi fun n q e => h2 ⟨n, q, e⟩
      rw [he, whenBusIdle_open hh ht (by rw [hp]; nofun)]
  · rw [exec_rdP2_idle h, withDac_of (dacIndex?_eq_some.2 rfl)]

/-- Settles O47: the first transfer of each operation is under its own mask, for which chip-select is not free
(`Bus.run_config_blocked`). -/
theorem transferUnderAnotherMaskFaults : Obligations.TransferUnderAnotherMaskFaults := by
  refine ⟨fun _ => rfl, fun s m h hl => ?_⟩
  have blocked : ∀ {m'}, m' ≠ m → ¬s.bus.Free m' := by
    rintro m' hm (h | h) <;> rw [hl] at h <;> cases h
    exact hm rfl
  refine ⟨fun f hf => ?_, fun hm => ?_, fun i k hd hk => ?_⟩
  · rw [exec, execBusXfer, enterBusXfer, whenBusIdle_of h.running h.free h.idle]
    exact runOperation_none (Bus.run_cons_none _ (by rw [BusStep.perform, Bus.xfer_none (blocked hf)]))
  · obtain ⟨he, hs⟩ := exec_bringUp_of h
    have hb : exec .bringUp s = .fault .busProtocolViolation := by
      rw [he, runOperation_none]
      rw [hs]
      exact Bus.run_config_blocked (b := s.bus.afterReset) (c := ⟨csMask 0, .b8, false, .out⟩) (blocked hm.symm)
        h.running _ _ _ _
    exact ⟨hb, hb⟩
  · rcases exec_dac hd with ⟨r, rfl⟩ | ⟨c, f, a, ms, hc, he⟩
    · rw [exec_rdP2_idle h, withDac_of (dacIndex?_eq_some.2 rfl)]
    · rw [he, whenBusIdle_withDac_of h]
      exact runOperation_none (Bus.run_config_blocked (by rw [hc]; exact blocked hk) h.running _ _ _ _)

/-- Settles O48: the index is the last check (`withDac_none`). -/
theorem badDacIndexIsRefused : Obligations.BadDacIndexIsRefused := by
  intro i s n hd hn h
  have hx := dacIndex?_eq_none.2 hn
  rcases exec_dac hd with ⟨r, rfl⟩ | ⟨_, _, _, _, _, he⟩
  · rw [exec_rdP2_idle h, withDac_none hx]
  · rw [he, whenBusIdle_of h.running h.free h.idle, withDac_none hx]

/-- Settles O49: each operation on one channel is a step of its agent; a batch on a channel that exists has words for
channels that exist only (`runBatch_completes`). -/
theorem channelNumbersAreBounded : Obligations.ChannelNumbersAreBounded := by
  refine ⟨fun s c la p a v e i hi => ?_, fun s c v vs hc => ?_, fun s c vs hb hv => ?_⟩
  · have ho : ∃ f, exec i s = onChannel c f s := by
      rcases hi with rfl | rfl | rfl | rfl <;> exact ⟨_, rfl⟩
    obtain ⟨f, hf⟩ := ho
    rw [hf]
    exact ⟨fun hc => onChannel_none hc f, fun hc => ⟨_, onChannel_of (List.getElem?_eq_getElem hc) f⟩⟩
  · have hn : beginBatch c (v :: vs) s = .refused .noSuchChannel := if_pos (by simpa using hc)
    rw [exec, execWriteSamples, hn]
  · rw [exec_writeSamples_of hv]
    refine runBatch_completes fun d w hd => ?_
    rcases List.mem_append.1 hd with hd | hd
    · exact hb d w hd
    · obtain rfl := batchSteps_word hd
      refine hv.resolve_left ?_
      rintro rfl
      cases hd

end Sys2Proof.Proofs
end

section
/-! PROOF. The two halves of the machine do not read each other, so their steps commute (00_scope.md R3, 20_memory.md
R81); who writes what of a channel. -/

namespace Sys2Proof.Machine

/-! ### The sample path and the driver -/

/-- The operations of the sample path and the codec: a step of one channel, a value for the caller, or a batch. -/
theorem samplePath_cases {i : Instr} (h : onBusDriver i = false) :
    (∃ (c : Nat) (f : Params → Channel → Channel), ∀ s, exec i s = onChannel c (f s.params) s) ∨
    (∃ r, ∀ s, exec i s = .next { s with returned := r }) ∨ ∃ c vs, i = .writeSamples c vs := by
  cases i with
  | wr c la p => exact .inl ⟨c, fun _ => _, fun _ => rfl⟩
  | tick c => exact .inl ⟨c, fun _ => _, fun _ => rfl⟩
  | writeSample c a v => exact .inl ⟨c, fun q => Channel.applyWord (codecEncode a v q.facadeLoadEnable), fun _ => rfl⟩
  | setEnable c e =>
    exact .inl ⟨c, fun q => Channel.applyWord (codecEncode q.setEnableAddr q.setEnableValue e), fun _ => rfl⟩
  | encode a v e => exact .inr (.inl ⟨_, fun _ => rfl⟩)
  | decode la p => exact .inr (.inl ⟨_, fun _ => rfl⟩)
  | writeSamples c vs => exact .inr (.inr ⟨c, vs, rfl⟩)
  | _ => cases h

/-- The driver with `n` gap events of a batch appended to its trace. -/
def Bus.gaps (b : Bus) (n : Nat) : Bus :=
  { b with trace := b.trace ++ List.replicate n (.delay .writeGap 100) }

theorem Bus.gaps_zero (b : Bus) : b.gaps 0 = b := by simp [Bus.gaps]

theorem Bus.gaps_succ (b : Bus) (n : Nat) : (b.emit (.delay .writeGap 100)).gaps n = b.gaps (n + 1) := by
  simp [Bus.gaps, Bus.emit, List.replicate_succ]

/-- A batch makes the same change from another driver that agrees on whether a read is open. -/
theorem runBatch_of_bus : ∀ {ms : List BatchStep} {s t : State} {b : Bus}, runBatch ms s = .next t →
    (s.bus.phase = .idle ↔ b.phase = .idle) →
    ∃ n, t.bus = s.bus.gaps n ∧ runBatch ms { s with bus := b } = .next { t with bus := b.gaps n } := by
  intro ms
  induction ms with
  | nil =>
    intro s t b h _
    cases h
    exact ⟨0, (Bus.gaps_zero _).symm, by rw [Bus.gaps_zero]; rfl⟩
  | cons m ms ih =>
    intro s t b h hp
    cases m with
    | word c w =>
      rw [runBatch, if_neg (by simp [BatchStep.waits])] at h
      split at h
      · rename_i s' hs
        obtain ⟨ch, hc, rfl⟩ := onChannel_next hs
        obtain ⟨n, hn, hr⟩ := ih (b := b) h hp
        exact ⟨n, hn, (runBatch_word (by exact hc) w ms).trans hr⟩
      · cases h
      · cases h
    | gap =>
      by_cases hi : s.bus.phase = .idle
      · rw [runBatch_gap hi] at h
        obtain ⟨n, hn, hr⟩ := ih (b := b.emit (.delay .writeGap 100)) h hp
        rw [Bus.gaps_succ] at hn hr
        exact ⟨n + 1, hn, (runBatch_gap (s := { s with bus := b }) (hp.1 hi) ms).trans hr⟩
      · rw [runBatch_gap_waits hi] at h
        cases h
        refine ⟨0, (Bus.gaps_zero _).symm, ?_⟩
        rw [Bus.gaps_zero]
        exact runBatch_gap_waits (s := { s with bus := b }) (mt hp.2 hi) ms

/-- A bus-driver operation changes the driver and the value last returned, and does so from any channels. -/
theorem exec_busDriver_next {i : Instr} {s t : State} (hi : onBusDriver i = true) (h : exec i s = .next t) :
    ∃ b o, t = { s with bus := b, returned := o } ∧
      ∀ chs, exec i { s with channels := chs } = .next { t with channels := chs } := by
  rcases start_exec i s hi with ⟨_, _, ms, hs, he⟩ | ⟨o, ho, _, he⟩
  · obtain ⟨o, b, hr, rfl⟩ := runOperation_next (he.symm.trans h)
    refine ⟨b, o, rfl, fun chs => ?_⟩
    rw [(start_congr hi (by rfl) (by rfl) (by rfl) (by rfl) hs).2]
    exact runOperation_of hr
  · exact absurd (he.symm.trans h) (ho t)

/-- A step of the driver may be moved over a step of one channel. -/
theorem onChannel_over {g : State → Host.Outcome State Fault Refusal} {c : Nat} {f : Channel → Channel} {s t u : State}
    (hu : onChannel c f t = .next u) (hc : t.channels = s.channels)
    (hg : ∀ chs, g { s with channels := chs } = .next { t with channels := chs }) :
    ∃ t', onChannel c f s = .next t' ∧ g t' = .next u := by
  obtain ⟨ch, h, rfl⟩ := onChannel_next hu
  rw [hc] at h
  refine ⟨_, onChannel_of h f, ?_⟩
  rw [hg, hc]

/-! ### The writers of a channel's fields -/

/-- A channel replaced by one with the same view leaves that view of every channel. -/
theorem channels_set_map {α : Type} {chs : List Channel} {c : Nat} {ch ch' : Channel} (g : Channel → α)
    (h : chs[c]? = some ch) (hg : g ch' = g ch) (d : Nat) : ((chs.set c ch')[d]?).map g = (chs[d]?).map g := by
  by_cases hd : c = d
  · subst hd
    rw [channels_set_self ch' h, h, Option.map_some, Option.map_some, hg]
  · rw [List.getElem?_set_ne hd]

end Sys2Proof.Machine

namespace Sys2Proof.Proofs

open Sys2Proof.Machine

/-- Settles O50: a step of one channel and a value for the caller read no driver; a batch reads its phase only
(`runBatch_of_bus`). -/
theorem samplePathIgnoresBusDriver : Obligations.SamplePathIgnoresBusDriver := by
  intro i s t b hi h hp
  suffices ∃ n, t.bus = s.bus.gaps n ∧ exec i { s with bus := b } = .next { t with bus := b.gaps n } ∧
      ((∀ c vs, i ≠ .writeSamples c vs) → n = 0) from this
  rcases samplePath_cases hi with ⟨c, f, he⟩ | ⟨r, he⟩ | ⟨c, vs, rfl⟩
  · rw [he] at h ⊢
    obtain ⟨ch, hc, rfl⟩ := onChannel_next h
    refine ⟨0, (Bus.gaps_zero _).symm, ?_, fun _ => rfl⟩
    rw [Bus.gaps_zero]
    exact onChannel_of (s := { s with bus := b }) hc (f s.params)
  · rw [he] at h ⊢
    cases h
    exact ⟨0, (Bus.gaps_zero _).symm, by rw [Bus.gaps_zero], fun _ => rfl⟩
  · obtain ⟨hc, _, rfl, hr⟩ := execWriteSamples_next h
    obtain ⟨n, hn, hr'⟩ := runBatch_of_bus hr (hp ⟨c, vs, rfl⟩)
    exact ⟨n, hn, (exec_writeSamples_of (by exact hc)).trans hr', fun hw => absurd rfl (hw c vs)⟩

/-- Settles O51: `exec_busDriver_next`. -/
theorem busDriverIgnoresSamplePath : Obligations.BusDriverIgnoresSamplePath := by
  intro i s t chs hi h
  obtain ⟨b, o, rfl, he⟩ := exec_busDriver_next hi h
  exact ⟨rfl, rfl, rfl, rfl, rfl, rfl, he chs⟩

/-- Settles O52: neither an operation of the driver nor one step of it reads the channels, so a step of one channel
moves over it (`onChannel_over`). -/
theorem pathsCommute : Obligations.PathsCommute := by
  intro i j c la p s t u hj hu
  obtain ⟨f, hf⟩ := exec_word_or_tick hj
  simp only [hf] at *
  refine ⟨fun hi ht => ?_, fun hb ht => ?_⟩
  · obtain ⟨b, o, rfl, he⟩ := exec_busDriver_next hi ht
    exact onChannel_over hu rfl he
  · obtain ⟨hh, hne⟩ := Bus.busy_eq_true.1 hb
    obtain ⟨m, ms, hm⟩ := List.exists_cons_of_ne_nil hne
    rw [driverTurn_of hm hh] at ht
    obtain ⟨o, b, hp, rfl⟩ := driverStep_next ht
    exact onChannel_over hu rfl fun chs =>
      (driverTurn_of (s := { s with channels := chs }) hm hh).trans (driverStep_of hp)

/-- Settles O53: a step of one channel is a tick, which leaves buffer and flag, or a word, which leaves pointer and
output; a batch is words. -/
theorem samplePathWriters : Obligations.SamplePathWriters := by
  refine fun i s t d h => ⟨fun hw hs hb he => ?_, fun ht => ?_⟩
  · cases hi : onBusDriver i with
    | true =>
      obtain ⟨_, _, rfl, _⟩ := exec_busDriver_next hi h
      rfl
    | false =>
      cases i with
      | tick c =>
        obtain ⟨ch, hc, rfl⟩ := onChannel_next h
        exact channels_set_map _ hc (by simp) d
      | encode a v e => cases h; rfl
      | decode la p => cases h; rfl
      | wr c la p => exact absurd rfl (hw c la p)
      | writeSample c a v => exact absurd rfl (hs c a v)
      | writeSamples c vs => exact absurd rfl (hb c vs)
      | setEnable c e => exact absurd rfl (he c e)
      | _ => cases hi
  · rcases exec_cases h with ⟨_, _, _, _, _, _, _, _, rfl⟩ | ⟨c, f, ch, _, _, hf, hc, rfl⟩ | ⟨_, _, _, rfl⟩ |
      ⟨c, vs, _, hb⟩
    · rfl
    · rcases hf with ⟨rfl, _⟩ | ⟨_, w, rfl⟩
      · exact absurd rfl (ht c)
      · exact channels_set_map (ch' := ch.applyWord w) _ hc rfl d
    · rfl
    · obtain ⟨_, _, _, hr⟩ := execWriteSamples_next hb
      obtain ⟨chs, _, _, _, hk, _, _, e⟩ := runBatch_next hr
      rw [e]
      have := congrArg (Option.map fun x => (x.1, x.2.1)) (hk.play d)
      simpa [Option.map_map, Function.comp_def] using this

end Sys2Proof.Proofs
end

section
/-! PROOF. One step of the machine: what every step keeps of the trace, the parameters and a failed driver; and what a
step is, by the agenda (00_scope.md R16). -/

namespace Sys2Proof.Machine

/-! ### What every step keeps -/

/-- From `s` to `t` the trace grew at its end, the launch parameters and the number of channels stayed, and a failed
driver gained gap events only. -/
structure State.Onward (s t : State) : Prop where
  trace    : ∃ es, t.bus.trace = s.bus.trace ++ es
  params   : t.params = s.params
  channels : t.channels.length = s.channels.length
  failed   : s.bus.halted = true → ∃ n, t.bus = s.bus.gaps n

variable {s t : State}

/-- A step that leaves the driver but for gap events. -/
theorem State.Onward.of_gaps {n : Nat} (hb : t.bus = s.bus.gaps n) (hp : t.params = s.params)
    (hc : t.channels.length = s.channels.length) : s.Onward t :=
  ⟨⟨_, by rw [hb]; rfl⟩, hp, hc, fun _ => ⟨n, hb⟩⟩

theorem State.Onward.of_same_bus (hb : t.bus = s.bus) (hp : t.params = s.params)
    (hc : t.channels.length = s.channels.length) : s.Onward t :=
  .of_gaps (hb.trans (Bus.gaps_zero _).symm) hp hc

/-- A step of a driver that is not halted. -/
theorem State.Onward.of_running {b : Bus} {o : Returned} (hh : s.bus.halted = false)
    (hb : ∃ es, b.trace = s.bus.trace ++ es) : s.Onward { s with bus := b, returned := o } :=
  ⟨hb, rfl, rfl, fun h => absurd (hh.symm.trans h) (by simp)⟩

theorem exec_onward {i : Instr} (h : exec i s = .next t) : s.Onward t := by
  rcases exec_cases h with ⟨_, hh, _, _, _, _, _, hr, rfl⟩ | ⟨_, _, _, _, _, _, _, rfl⟩ | ⟨_, _, _, rfl⟩ | ⟨_, _, _, hb⟩
  · exact .of_running hh (Bus.run_trace hr)
  · exact .of_same_bus rfl rfl (by simp)
  · exact .of_same_bus rfl rfl rfl
  · obtain ⟨_, _, _, hr⟩ := execWriteSamples_next hb
    obtain ⟨_, n, _, _, hk, _, _, e⟩ := runBatch_next hr
    rw [e]
    exact .of_gaps (n := n) rfl rfl hk.length

theorem start_onward {i : Instr} (h : start i s = .next t) : s.Onward t := by
  rcases start_cases h with ⟨_, _, hh, _, _, rfl⟩ | ⟨_, _, _, hb⟩ | ⟨_, _, he⟩
  · exact .of_running hh ⟨[], by simp⟩
  · obtain ⟨_, rfl⟩ := beginBatch_next hb
    exact .of_same_bus rfl rfl rfl
  · exact exec_onward he

theorem StepKind.onward (h : StepKind s t) : s.Onward t := by
  cases h with
  | run i _ h => exact exec_onward h
  | begun i _ h => exact start_onward h
  | mark r _ e => rw [e]; exact .of_same_bus rfl rfl rfl
  | driver m ms _ hh h =>
    obtain ⟨_, _, hp, rfl⟩ := driverStep_next h
    obtain ⟨e, es, he, _⟩ := BusStep.perform_trace hp
    exact .of_running hh ⟨_, he⟩
  | batch m ms _ _ h =>
    rcases BatchStep.perform_next h with ⟨_, _, _, _, _, rfl⟩ | ⟨_, rfl⟩
    · exact .of_same_bus rfl rfl (by simp)
    · exact .of_gaps (n := 1) rfl rfl rfl

theorem step_onward (h : step s = .next t) : s.Onward t := by
  obtain ⟨_, _, hk⟩ := step_cases h
  obtain ⟨ht, hp, hc, hf⟩ := hk.onward
  exact ⟨ht, hp, hc, hf⟩

/-! ### What a step is -/

/-- An operation that need not wait runs. -/
theorem step_run {q : Stimulus} {i : Instr} {rest : List Stimulus} (hb : onBusDriver i = true → s.bus.busy = false)
    (ha : s.agenda = q :: rest) (hq : readStimulus q = .ok (.run i)) :
    step s = keepMark { s with agenda := rest } (exec i { s with agenda := rest }) := by
  rw [step_stimulus ha hq, if_neg]
  · rfl
  · simpa [Move.waits] using hb

theorem readStimulus_wire {q : Request} {i : Instr} (hd : decode q = .ok i) (hw : i.wellFormed = true) :
    readStimulus (.wire q) = .ok (.run i) := by
  simp [readStimulus, readWire, hd, checked, hw, Except.bind, Except.map]

/-- What decodes is an operation with an encoding, and every such operation is well formed. -/
theorem decode_wellFormed {q : Request} {i : Instr} (h : decode q = .ok i) : i.wellFormed = true := by
  obtain ⟨q', he, _⟩ := encode_of_decode h
  cases i with
  | busConfig | busXfer => cases he
  | _ => rfl

/-- A request for a bus operation waits while the driver is busy, and the driver takes its turn. -/
theorem step_waits {q : Stimulus} {i : Instr} {rest : List Stimulus} {m : Move} (ha : s.agenda = q :: rest)
    (hq : readStimulus q = .ok m) (hm : m = .run i ∨ m = .invoke i) (hi : onBusDriver i = true)
    (hb : s.bus.busy = true) : step s = driverTurn s := by
  rw [step_stimulus ha hq, if_pos]
  rcases hm with rfl | rfl <;> simp [Move.waits, hi, hb]

theorem step_error {q : Stimulus} {rest : List Stimulus} {r : Refusal} (ha : s.agenda = q :: rest)
    (hq : readStimulus q = .error r) : step s = .refused r := by
  unfold step
  rw [ha]
  simp only [hq]

theorem keepMark_refused (s : State) (r : Refusal) : keepMark s (.refused r) =
    if r = .badDacIndex ∨ r = .driverHalted then .next { s with marks := s.marks ++ [r] } else .refused r := by
  cases r <;> simp [keepMark]

/-- A driver with no step to take leaves its turn to a clock. -/
theorem driverTurn_free (h : s.bus.busy = false) : driverTurn s = clockTurn s := by
  unfold driverTurn
  split
  · rfl
  · rename_i ht
    refine if_pos ?_
    simpa [Bus.busy, ht] using h

theorem batchTurn_free (h : s.batch = []) : batchTurn s = clockTurn s := by
  unfold batchTurn
  rw [h]

/-- A clock's turn in a state with another count of free choices is still a tick, and nothing else but the count. -/
theorem clockTurn_ticks (h : 0 < s.channels.length) (u : Nat) : ∃ c t n, c < s.channels.length ∧
    exec (.tick c) s = .next t ∧ clockTurn { s with unasked := u } = .next { t with unasked := n } := by
  obtain ⟨c, ch, hc, ht⟩ := clockTurn_of (s := { s with unasked := u }) h
  exact ⟨c, _, u + 1, (List.getElem?_eq_some_iff.1 hc).1, exec_tick_of hc, ht⟩

end Sys2Proof.Machine

namespace Sys2Proof.Proofs

open Sys2Proof.Machine

/-- Settles O54: `State.Onward.failed`. -/
theorem failureIsSticky : Obligations.FailureIsSticky :=
  fun _ _ i v hf h => (step_onward h).failed (Bus.halted_eq_true.2 ⟨i, v, hf⟩)

/-- Settles O55: the other fields of `State.Onward`. -/
theorem traceOnlyGrows : Obligations.TraceOnlyGrows := fun _ _ h =>
  ⟨(step_onward h).trace, (step_onward h).params, (step_onward h).channels⟩

/-- Settles O59: the agenda's head is read once (`readStimulus`), and then the operation runs, begins or waits. -/
theorem stepRunsTheAgenda : Obligations.StepRunsTheAgenda := by
  refine ⟨fun s q rest i ha hd hw hb => step_run hb ha (readStimulus_wire hd hw),
    fun s rest i hw hb => ⟨fun ha => step_run hb ha (readStimulus_call hw), fun ha => step_start hw hb ha⟩,
    fun s q rest i ha hw hq hi hb => ?_, fun s t f => ⟨rfl, rfl⟩, keepMark_refused, fun s q rest e ha he => ?_,
    fun s rest i ha hw => ?_, fun s nbits w i hd hb => ?_⟩
  · refine Eq.trans ?_ (step_driver (s := { s with agenda := .driver :: s.agenda }) rfl).symm
    rcases hq with rfl | rfl | ⟨w, rfl, hd⟩
    · exact step_waits ha (readStimulus_call hw) (.inl rfl) hi hb
    · exact step_waits ha (readStimulus_start hw) (.inr rfl) hi hb
    · exact step_waits ha (readStimulus_wire hd hw) (.inl rfl) hi hb
  · exact step_error ha (by simp [readStimulus, readWire, he, Except.bind, Except.map])
  · rcases ha with ha | ha <;> exact step_error ha (by simp [readStimulus, checked, hw, Except.map])
  · have hd : decode (tableRequest nbits w) = .ok i := by
      unfold decodeTableWord at hd
      split at hd <;> simp_all
    exact step_run (s := s.withFetchWord nbits w) (fun _ => hb) rfl (readStimulus_wire hd (decode_wellFormed hd))

/-- Settles O60: an agent with no step to take, or one that must wait, leaves its turn to a clock
(`clockTurn_ticks`). -/
theorem unaskedStepIsATurn : Obligations.UnaskedStepIsATurn := by
  intro s ha hc
  have hs : step s = freeTurn s := by
    unfold step
    rw [ha]
  have tick : ∀ {o u}, o = clockTurn { s with unasked := u } → ∃ c t n, c < s.channels.length ∧
      exec (.tick c) s = .next t ∧ o = .next { t with unasked := n } := by
    rintro _ u rfl
    exact clockTurn_ticks hc u
  rw [hs, freeTurn]
  cases Config.freeTurn s.unasked with
  | clock => exact .inl (tick rfl)
  | driver =>
    cases hb : s.bus.busy with
    | false => exact .inl (tick (driverTurn_free hb))
    | true => exact .inr (.inl ⟨rfl, by rw [step_driver (rest := []) rfl, ← ha]⟩)
  | batch =>
    by_cases hb : s.batch = []
    · exact .inl (tick (batchTurn_free hb))
    · exact .inr (.inr ⟨hb, by rw [step_batch (rest := []) rfl, ← ha]⟩)

end Sys2Proof.Proofs
end
